-- ==== Sys2Proof/Word.lean ====
section
/-! DEFINITION. The word types of the Audio Streaming Engine (00_scope.md R11, R12, R17): what the spec
treats as bit patterns, each at its one width. -/

namespace Sys2Proof

/-- An 8-bit register offset, register value or buffer byte (R11). -/
abbrev Byte := BitVec 8

/-- A 16-bit audio sample, two's complement (R11). -/
abbrev Sample := BitVec 16

/-- A 32-bit command word (30_encoding.md R110). -/
abbrev Word := BitVec 32

/-- A decibel operand: a 16-bit pattern read as `sext_16`, in units of 1/256 dB (R16, R17). -/
abbrev DbQ := BitVec 16

/-- A 7-bit control-bus address (R11). -/
abbrev BusAddr := BitVec 7

end Sys2Proof
end

