-- ==== Sys2Proof/Syntax.lean ====
section
/-! DEFINITION. The commands and events of the ASE as syntax: one constructor of `Instr` per row of
spec/opcode_table.json (30_encoding.md R119, R126), and what decoding a command word can answer (R120). -/

namespace Sys2Proof

/-- The control selector of `INC`, `DEC` and `FORMAT`, numbered 0 to 3 (30_encoding.md R117). -/
inductive Ctl where
  | bass
  | treble
  | bassFreq
  | trebleFreq
  deriving DecidableEq, Repr, Inhabited

/-- The two completion events, bits 0 and 1 of `EVT_STATUS` (30_encoding.md R126). -/
inductive Event where
  | ht
  | tc
  deriving DecidableEq, Repr, Inhabited

/-- A half of the audio buffer: FIRST_HALF = 0, SECOND_HALF = 1 (00_scope.md R18, 10_state.md R34). -/
inductive Half where
  | first
  | second
  deriving DecidableEq, Repr, Inhabited

/-- The thirteen commands and the two events. -/
inductive Instr where
  /-- `INIT`, the codec power-up sequence (40_codec.md R160). -/
  | init
  /-- `PDN`, the codec power-down sequence (R161). -/
  | pdn
  /-- `SET_MVOL db`, master volume (R162). -/
  | setMvol (db : DbQ)
  /-- `SET_HPVOL db`, headphone volume (R163). -/
  | setHpvol (db : DbQ)
  /-- `SET_MUTE on`, the canonical mute (R164). -/
  | setMute (on : Bool)
  /-- `SET_HP_MUTE on`, the legacy headphone-path mute (R165). -/
  | setHpMute (on : Bool)
  /-- `SET_TONE bass, treble, bf, tf`, the one two-word command (R166). -/
  | setTone (bass treble : DbQ) (bf tf : BitVec 2)
  /-- `PLAY` (43_playback.md R262). -/
  | play
  /-- `STOP` (R263). -/
  | stop
  /-- `GET_STATE` (R264). -/
  | getState
  /-- `INC ctl` (R271). -/
  | inc (ctl : Ctl)
  /-- `DEC ctl` (R272). -/
  | dec (ctl : Ctl)
  /-- `FORMAT ctl`, the value-formatting query (R282). -/
  | format (ctl : Ctl)
  /-- `EVT_HT`, the half-complete event (41_stream_buffer.md R211). -/
  | evtHt
  /-- `EVT_TC`, the full-complete event (R212). -/
  | evtTc
  deriving DecidableEq, Repr, Inhabited

/-- Why a command word does not decode: the three cases of 60_exceptions.md R301. -/
inductive IllegalReason where
  /-- The opcode is 0x0, 0xE or 0xF (30_encoding.md R121). -/
  | reservedOpcode
  /-- A must-be-0 field is nonzero (R122). -/
  | reservedBits
  /-- The opcode is 0x6 and `HAS_LEGACY_HP_MUTE` is false (R123). -/
  | noLegacyHpMute
  deriving DecidableEq, Repr, Inhabited

/-- The answer of the decoder on the words of one command: one of the thirteen commands, or ILLEGAL with its
reason (30_encoding.md R120, R124). -/
inductive Decoded where
  | command (i : Instr)
  | illegal (why : IllegalReason)
  deriving DecidableEq, Repr, Inhabited

/-- The commands, which `FG` runs; the other two instructions are events, which `IRQ` runs (R126). -/
def Instr.isCommand : Instr → Bool
  | .init => true
  | .pdn => true
  | .setMvol _ => true
  | .setHpvol _ => true
  | .setMute _ => true
  | .setHpMute _ => true
  | .setTone _ _ _ _ => true
  | .play => true
  | .stop => true
  | .getState => true
  | .inc _ => true
  | .dec _ => true
  | .format _ => true
  | .evtHt => false
  | .evtTc => false

/-- The instruction that handles an event (60_exceptions.md R306). -/
def Event.handler : Event → Instr
  | .ht => .evtHt
  | .tc => .evtTc

end Sys2Proof
end

