-- ==== Sys2Proof/WellFormed.lean ====
section
/-! DEFINITION. Which instructions exist on an ASE. The operand types of `Instr` already hold every range of
30_encoding.md R118 (a 16-bit `DbQ`, a 2-bit index, one of four controls, a Boolean); the one check left is R123:
`SET_HP_MUTE` exists only when the parameter `HAS_LEGACY_HP_MUTE` is true. -/

namespace Sys2Proof

/-- `i` is an instruction of an ASE whose parameter `HAS_LEGACY_HP_MUTE` is `legacy` (R123). -/
def Instr.wellFormed (legacy : Bool) : Instr → Bool
  | .init => true
  | .pdn => true
  | .setMvol _ => true
  | .setHpvol _ => true
  | .setMute _ => true
  | .setHpMute _ => legacy
  | .setTone _ _ _ _ => true
  | .play => true
  | .stop => true
  | .getState => true
  | .inc _ => true
  | .dec _ => true
  | .format _ => true
  | .evtHt => true
  | .evtTc => true

/-- `i` is a command that the decoder of such an ASE can answer: well formed, and no event (R120, R126). -/
def Instr.wellFormedCommand (legacy : Bool) (i : Instr) : Bool :=
  i.isCommand && i.wellFormed legacy

end Sys2Proof
end

