-- ==== Sys2Proof/Decode.lean ====
section
/-! DEFINITION. The command encoding (30_encoding.md): length by opcode (R111), the decode algorithm, total on every
word (R120), taking one whole command from the port's words (R31, R111), event selection (R126); after it the
encoder, written from the format tables R113–R117 and the opcode map R119; and the decoder over the opcode table's
numbering. Command words are values, not bytes: the port has no byte order (R110). -/

namespace Sys2Proof

/-- `w0[31:28]` (R111). -/
def opcode (w0 : Word) : BitVec 4 := w0.extractLsb' 28 4

/-- How many words the command that starts with `w0` has: two for opcode 0x7, else one, the reserved opcodes
included (R111). -/
def commandLength (w0 : Word) : Nat := if opcode w0 = 0x7#4 then 2 else 1

/-- The must-be-0 check (R122): `i` where the `len` bits of `w` from bit `lo` up are 0, ILLEGAL where one is not. -/
def requireZero (w : Word) (lo len : Nat) (i : Instr) : Decoded :=
  if w.extractLsb' lo len = 0 then .command i else .illegal .reservedBits

/-- The control selector of a 2-bit field (R117). -/
def Ctl.ofBits (b : BitVec 2) : Ctl :=
  match b.toNat with
  | 0 => .bass
  | 1 => .treble
  | 2 => .bassFreq
  | _ => .trebleFreq

/-- Decode one command, `w1` being its second word where it has one (R120). -/
def decodeCommand (legacy : Bool) (w0 w1 : Word) : Decoded :=
  match (opcode w0).toNat with
  | 0x1 => requireZero w0 0 28 .init
  | 0x2 => requireZero w0 0 28 .pdn
  | 0x3 => requireZero w0 16 12 (.setMvol (w0.extractLsb' 0 16))
  | 0x4 => requireZero w0 16 12 (.setHpvol (w0.extractLsb' 0 16))
  | 0x5 => requireZero w0 1 27 (.setMute (w0.getLsbD 0))
  | 0x6 => if legacy then requireZero w0 1 27 (.setHpMute (w0.getLsbD 0)) else .illegal .noLegacyHpMute
  | 0x7 =>
    if w0.extractLsb' 20 8 = 0 then
      requireZero w1 16 16
        (.setTone (w0.extractLsb' 0 16) (w1.extractLsb' 0 16) (w0.extractLsb' 16 2) (w0.extractLsb' 18 2))
    else .illegal .reservedBits
  | 0x8 => requireZero w0 0 28 .play
  | 0x9 => requireZero w0 0 28 .stop
  | 0xA => requireZero w0 0 28 .getState
  | 0xB => requireZero w0 2 26 (.inc (Ctl.ofBits (w0.extractLsb' 0 2)))
  | 0xC => requireZero w0 2 26 (.dec (Ctl.ofBits (w0.extractLsb' 0 2)))
  | 0xD => requireZero w0 2 26 (.format (Ctl.ofBits (w0.extractLsb' 0 2)))
  | _ => .illegal .reservedOpcode

/-- Take the first whole command from the port's words: what it decodes to, and the words after it. The words taken
are as many as the opcode says, whether or not they decode (R111); no answer where the command is not whole (R31, U13). -/
def takeCommandWords (legacy : Bool) : List Word → Option (Decoded × List Word)
  | [] => none
  | w0 :: rest =>
    if commandLength w0 = 2 then
      match rest with
      | [] => none
      | w1 :: rest' => some (decodeCommand legacy w0 w1, rest')
    else some (decodeCommand legacy w0 0, rest)

/-- The events that a value of `EVT_STATUS` selects: `EVT_HT` by bit 0, `EVT_TC` by bit 1 (R126). -/
def selectedEvents (status : BitVec 2) : List Event :=
  (if status.getLsbD 0 then [.ht] else []) ++ (if status.getLsbD 1 then [.tc] else [])

/-! ### The encoder -/

/-- The 2-bit field of a control (R117). -/
def Ctl.bits : Ctl → BitVec 2
  | .bass => 0
  | .treble => 1
  | .bassFreq => 2
  | .trebleFreq => 3

/-- Format `F0` (R113). -/
def formatF0 (op : BitVec 4) : Word := op ++ 0#28

/-- Format `FV` (R114). -/
def formatFV (op : BitVec 4) (db : DbQ) : Word := op ++ 0#12 ++ db

/-- Format `FB` (R115). -/
def formatFB (op : BitVec 4) (on : Bool) : Word := op ++ 0#27 ++ BitVec.ofBool on

/-- Format `FC` (R117). -/
def formatFC (op : BitVec 4) (ctl : Ctl) : Word := op ++ 0#26 ++ ctl.bits

/-- Word 0 of format `FT` (R116). -/
def formatFT0 (bass : DbQ) (bf tf : BitVec 2) : Word := 0x7#4 ++ 0#8 ++ tf ++ bf ++ bass

/-- Word 1 of format `FT` (R116). -/
def formatFT1 (treble : DbQ) : Word := 0#16 ++ treble

/-- The command words of an instruction; an event has none (R126). -/
def encode : Instr → List Word
  | .init => [formatF0 0x1]
  | .pdn => [formatF0 0x2]
  | .setMvol db => [formatFV 0x3 db]
  | .setHpvol db => [formatFV 0x4 db]
  | .setMute on => [formatFB 0x5 on]
  | .setHpMute on => [formatFB 0x6 on]
  | .setTone bass treble bf tf => [formatFT0 bass bf tf, formatFT1 treble]
  | .play => [formatF0 0x8]
  | .stop => [formatF0 0x9]
  | .getState => [formatF0 0xA]
  | .inc ctl => [formatFC 0xB ctl]
  | .dec ctl => [formatFC 0xC ctl]
  | .format ctl => [formatFC 0xD ctl]
  | .evtHt => []
  | .evtTc => []

/-- The value of `EVT_STATUS` that selects an event alone (R126). -/
def Event.bits : Event → BitVec 2
  | .ht => 0b01
  | .tc => 0b10

/-! ### The opcode table's numbering -/

/-- Words 0 and 1 of an instruction whose bits the opcode table numbers from bit 0 of the first word. -/
def tableWord0 (w : Nat) : Word := BitVec.ofNat 32 w

/-- The second word: bits 63..32 of the same number. -/
def tableWord1 (w : Nat) : Word := BitVec.ofNat 32 (w / 2 ^ 32)

/-- What the decoder reads from an instruction of the opcode table, the parameter `HAS_LEGACY_HP_MUTE` being `legacy`:
a row narrower than a command word is an event row, its bits a value of `EVT_STATUS` (R126). Where both bits are set
both rows match and the order is free (60_exceptions.md R308); this answers the first listed. -/
def decodeTable (legacy : Bool) (nbits w : Nat) : Option Instr :=
  if nbits < 32 then
    match selectedEvents (BitVec.ofNat 2 w) with
    | [] => none
    | e :: _ => some e.handler
  else
    match takeCommandWords legacy [tableWord0 w, tableWord1 w] with
    | some (.command i, _) => some i
    | some (.illegal _, _) => none
    | none => none

/-- `decodeTable` with `HAS_LEGACY_HP_MUTE` at its value of 00_scope.md R9. -/
def decodeTableWord (nbits w : Nat) : Option Instr := decodeTable true nbits w

end Sys2Proof
end

