-- ==== Sys2Proof/Config.lean ====
section
/-! DEFINITION. What an implementation fixes and what the spec leaves free: the types of the implementation
parameters (00_scope.md R9, 40_codec.md R152, R153), the answers of the host's oracles (R15), and the free values,
constants without a body of which nothing can be proved. -/

namespace Sys2Proof

/-- The result of one control-bus transaction (00_scope.md R15). -/
inductive BusResult where
  | ok
  | timeout
  | nack
  deriving DecidableEq, Repr, Inhabited

/-- Which of two enabled agents takes the next step: the transfer engine, or the one context (`IRQ` or `FG`) that is
enabled beside it (60_exceptions.md R305). -/
inductive Turn where
  | dma
  | context
  deriving DecidableEq, Repr, Inhabited

/-- `REGMAP`: one codec register offset per role; `pcmMute` is a list of at least one offset (40_codec.md R152). -/
structure RegMap where
  pwrCtl : Byte
  routing : Byte
  clocking : Byte
  iface : Byte
  miscCtl : Byte
  playbackCtl : Byte
  pcmMute : List Byte
  toneCfg : Byte
  toneGain : Byte
  mvolA : Byte
  mvolB : Byte
  hpvolA : Byte
  hpvolB : Byte
  deriving DecidableEq, Repr

/-- `VAL`: the fixed bytes the ASE writes (40_codec.md R153). -/
structure Vals where
  pwrOutputsOff : Byte
  routingVal : Byte
  clockingVal : Byte
  ifaceVal : Byte
  pwrOn : Byte
  pwrDown : Byte
  miscRampOff : Byte
  pcmMuteOn : Byte
  pcmMuteOff : Byte
  hpMuteOn : Byte
  hpMuteOff : Byte
  toneCfgBase : Byte
  deriving DecidableEq, Repr

/-- The implementation parameters of 00_scope.md R9; those it derives are functions of them (Machine/Parameters.lean).
Times are in microseconds, `toneStepQ` in 1/256 dB. `toneNib` is `TONE_NIB` as a table of the step counts −7, −6, …, 8
in order (40_codec.md R155). Labels are ASCII bytes (43_playback.md R281). -/
structure Params where
  halfBytes : Nat
  channels : Nat
  sampleBytes : Nat
  mvolMin : Int
  mvolMax : Int
  hpvolMin : Int
  hpvolMax : Int
  toneStepQ : Int
  toneMinSteps : Int
  toneMaxSteps : Int
  freqCount : Nat
  labelsBass : List (List Byte)
  labelsTreble : List (List Byte)
  meterPeriod : Nat
  meterK : Nat
  codecAddr : BusAddr
  regMap : RegMap
  vals : Vals
  toneNib : List (BitVec 4)
  hasLegacyHpMute : Bool
  sampleRateHz : Nat
  callbackPeriodUs : Nat
  tRstHoldUs : Nat
  tSettleUs : Nat
  tBusTimeoutUs : Nat
  tPdnWaitUs : Nat
  deriving DecidableEq, Repr

/-! ### Free values

Each oracle's answer is a free value: the constant below, applied to a counter in State that every draw advances.
None has a body, so no proof can rest on what it answers. -/

/-- The result of the n-th bus transaction whose result was not given beforehand (R15, 40_codec.md R150, U3). Log 4. -/
opaque Config.busAnswer : Nat → BusResult

/-- The byte that the n-th bus transaction delivers when it is a read (R15). Log 22. -/
opaque Config.busReadByte : Nat → Byte

/-- Byte j of the answer to the n-th source read, where it was not given beforehand (41_stream_buffer.md R214, U5). Log 5. -/
opaque Config.sourceByte : Nat → Nat → Byte

/-- The n-th choice between two enabled agents (60_exceptions.md R305). Log 6. -/
opaque Config.nextTurn : Nat → Turn

/-- The n-th choice of the event taken first when both are pending (60_exceptions.md R308, U7). Log 7. -/
opaque Config.firstEvent : Nat → Event

/-- `TONE_NIB` of a step count outside −7..8, for which 40_codec.md R155 gives no code. DESIGN CHOICE, log 18. -/
opaque Config.toneNibOutside : Int → BitVec 4

end Sys2Proof
end

