-- ==== Sys2Proof/Machine/Parameters.lean ====
section
/-! DEFINITION. The implementation parameters (00_scope.md section 4): the derived sizes (R9), the constraints a model
refuses a configuration for (R10 and the rules that state one of a single parameter), and the reference instance that
`State.reset` holds (R9; 40_codec.md R152, R153, R155; 43_playback.md R281). -/

namespace Sys2Proof

/-- `HALF_WORDS = HALF_BYTES / 2` (R9). -/
def Params.halfWords (p : Params) : Nat := p.halfBytes / 2

/-- `BUF_BYTES = 2 × HALF_BYTES` (R9). -/
def Params.bufBytes (p : Params) : Nat := 2 * p.halfBytes

/-- `BUF_WORDS = BUF_BYTES / 2` (R9). -/
def Params.bufWords (p : Params) : Nat := p.bufBytes / 2

/-- A volume bound fits the 16-bit operand (R10, R17). -/
def fitsDbQ (v : Int) : Bool := decide (-32768 ≤ v ∧ v ≤ 32767)

/-- The constraints of 00_scope.md R10. -/
def Params.validSizes (p : Params) : Bool :=
  decide (0 < p.halfBytes ∧ p.halfBytes % 4 = 0 ∧ p.mvolMin ≤ p.mvolMax ∧ p.hpvolMin ≤ p.hpvolMax
    ∧ fitsDbQ p.mvolMin ∧ fitsDbQ p.mvolMax ∧ fitsDbQ p.hpvolMin ∧ fitsDbQ p.hpvolMax ∧ 1 ≤ p.meterK)

/-- Samples are 16-bit and interleaved in stereo (R11): every rule that moves a sample is written for them. Log 30. -/
def Params.validSamples (p : Params) : Bool := decide (p.channels = 2 ∧ p.sampleBytes = 2)

/-- The ranges R9 gives for `TONE_MIN_STEPS`, `TONE_MAX_STEPS` and `FREQ_COUNT`, and a positive `TONE_STEP_Q`
(log 30). -/
def Params.validTone (p : Params) : Bool :=
  decide (0 < p.toneStepQ ∧ -7 ≤ p.toneMinSteps ∧ p.toneMinSteps ≤ 0 ∧ 0 ≤ p.toneMaxSteps ∧ p.toneMaxSteps ≤ 8
    ∧ 1 ≤ p.freqCount ∧ p.freqCount ≤ 4)

/-- `METER_PERIOD` keeps the meter's counter in 0..9 (10_state.md R37). Log 21. -/
def Params.validMeter (p : Params) : Bool := decide (1 ≤ p.meterPeriod ∧ p.meterPeriod ≤ 10)

/-- The constraints on the codec's parameters: at least one PCM-mute register (40_codec.md R152),
`TONE_CFG_BASE[4:1] = 0` (R153), a code for every step count −7..8 (R155); and on the labels: one for every index, none
longer than 7 characters (43_playback.md R281). -/
def Params.validCodec (p : Params) : Bool :=
  decide (p.regMap.pcmMute ≠ [] ∧ p.vals.toneCfgBase.extractLsb' 1 4 = 0 ∧ p.toneNib.length = 16
    ∧ p.freqCount ≤ p.labelsBass.length ∧ p.freqCount ≤ p.labelsTreble.length
    ∧ (∀ l ∈ p.labelsBass, l.length ≤ 7) ∧ ∀ l ∈ p.labelsTreble, l.length ≤ 7)

/-- A configuration the model accepts; it refuses every other (R10, U15). Log 17. -/
def Params.valid (p : Params) : Bool :=
  p.validSizes && (p.validSamples && (p.validTone && (p.validMeter && p.validCodec)))

/-- The ASCII bytes of a text. -/
def asciiBytes (l : List Char) : List Byte := l.map fun c => BitVec.ofNat 8 c.toNat

/-- The reference register map (40_codec.md R152). PRESUMED: the spec's reference codec, log 1. -/
def referenceRegMap : RegMap where
  pwrCtl := 0x02
  routing := 0x04
  clocking := 0x05
  iface := 0x06
  miscCtl := 0x0E
  playbackCtl := 0x0F
  pcmMute := [0x1A, 0x1B]
  toneCfg := 0x1E
  toneGain := 0x1F
  mvolA := 0x20
  mvolB := 0x21
  hpvolA := 0x22
  hpvolB := 0x23

/-- The reference register values (40_codec.md R153). PRESUMED: the spec's reference codec, log 1. -/
def referenceVals : Vals where
  pwrOutputsOff := 0x01
  routingVal := 0xAF
  clockingVal := 0x81
  ifaceVal := 0x04
  pwrOn := 0x9E
  pwrDown := 0x9F
  miscRampOff := 0x04
  pcmMuteOn := 0x80
  pcmMuteOff := 0x00
  hpMuteOn := 0xC0
  hpMuteOff := 0x00
  toneCfgBase := 0x21

/-- The reference `TONE_NIB(s) = (8 − s) mod 16` for s = −7, …, 8 (40_codec.md R155). PRESUMED, log 1. -/
def referenceToneNib : List (BitVec 4) :=
  (List.range 16).map fun k => BitVec.ofInt 4 (8 - ((k : Int) - 7))

/-- The parameters at their values of 00_scope.md R9, the OPEN ones at the spec's reference instance (PRESUMED, log 1);
`T_RST_HOLD`, which has neither, at 0, the wait that bounds nothing (DESIGN CHOICE, log 2). -/
def Params.reference : Params where
  halfBytes := 192
  channels := 2
  sampleBytes := 2
  mvolMin := -26112
  mvolMax := 3072
  hpvolMin := -26112
  hpvolMax := 0
  toneStepQ := 384
  toneMinSteps := -7
  toneMaxSteps := 6
  freqCount := 4
  labelsBass := [asciiBytes ['5', '0', 'H', 'z'], asciiBytes ['1', '0', '0', 'H', 'z'],
    asciiBytes ['2', '0', '0', 'H', 'z'], asciiBytes ['2', '5', '0', 'H', 'z']]
  labelsTreble := [asciiBytes ['5', 'k', 'H', 'z'], asciiBytes ['7', 'k', 'H', 'z'],
    asciiBytes ['1', '0', 'k', 'H', 'z'], asciiBytes ['1', '5', 'k', 'H', 'z']]
  meterPeriod := 10
  meterK := 3277
  codecAddr := 0x4A
  regMap := referenceRegMap
  vals := referenceVals
  toneNib := referenceToneNib
  hasLegacyHpMute := true
  sampleRateHz := 48000
  callbackPeriodUs := 1000
  tRstHoldUs := 0
  tSettleUs := 100000
  tBusTimeoutUs := 1000000
  tPdnWaitUs := 100

end Sys2Proof
end

