-- ==== Sys2Proof/Machine/State.lean ====
section
/-! DEFINITION. The state of the ASE as plain data: every field of 10_state.md R31–R45, the command port (R49), the
observable traces (R46), the implementation parameters (00_scope.md R9), and the model's own input feeds; the reasons a
step can stop; and `State.reset` (70_reset_and_hazards.md R350). Field `S.f` of the spec is the field named beside it. -/

namespace Sys2Proof.Machine

/-- Why the machine stops with a fault. The spec has no fatal state (60_exceptions.md R324) and no rule leads to one of
these; each names a use of the state that the spec says does not exist. All are safe: they stop where no rule speaks. -/
inductive Fault where
  /-- Raised by `memReadByte`, `memReadWord`, `memWriteByte`, `memWriteWord`: an address outside `0 .. BUF_BYTES−1`
  (20_memory.md R80, R88). Safe; unreachable in `State.Inv`. -/
  | outsideBuffer
  /-- Raised by `memReadWord`, `memWriteWord`: an odd byte address (20_memory.md R84, U18). Safe; unreachable. -/
  | misaligned
  /-- Raised by every instruction at a position past its last atomic block (10_state.md R31, R43). Safe; unreachable. -/
  | noBlock
  /-- Raised by `contextStep`: `S.fg_busy` is true and `S.fg_cmd` holds no command of `FG` (R31). Safe; unreachable. -/
  | noCommand
  deriving DecidableEq, Repr

/-- Why the model refuses to give a meaning. -/
inductive Refusal where
  /-- Raised by an arm of `exec` for an instruction that has no meaning yet. Safe. No arm raises it. -/
  | notModelled (mnemonic : String)
  /-- Raised by `nextStep`: the parameters break a constraint of 00_scope.md R10 or of the rule of one parameter
  (U15: a model refuses the configuration). Safe. -/
  | badConfiguration
  deriving DecidableEq, Repr

/-! ### Command sequencer (10_state.md R31) -/

/-- `S.fg_acc`: the failure flag and the loop index of the command in progress. -/
structure FgAcc where
  fail : Bool
  idx : Nat
  deriving DecidableEq, Repr

/-- `S.fg_busy`, `S.fg_cmd`, `S.fg_pos`, `S.fg_acc`. -/
structure Fg where
  busy : Bool
  cmd : Option Decoded
  pos : Nat
  acc : Option FgAcc
  deriving DecidableEq, Repr

/-! ### Stream, meter, tone, transfer, events -/

/-- `S.stream_state` (R32). -/
inductive StreamState where
  | stopped
  | streaming
  deriving DecidableEq, Repr, Inhabited

/-- The word that holds the flag: STOPPED = 0, STREAMING = 1 (R32). -/
def StreamState.code : StreamState → BitVec 32
  | .stopped => 0
  | .streaming => 1

/-- `S.meter_avg`, `S.meter_cnt` (4 bits), `S.meter_on` (R36, R37, R40). -/
structure Meter where
  avg : BitVec 32
  cnt : BitVec 4
  on : Bool
  deriving DecidableEq, Repr

/-- `S.tone_bass`, `S.tone_treble`, in steps of 1.5 dB (R38), and `S.tone_bf`, `S.tone_tf` (R39). -/
structure Tone where
  bass : Int
  treble : Int
  bf : BitVec 2
  tf : BitVec 2
  deriving DecidableEq, Repr

/-- `S.dma_running`, `S.dma_pos` (R41). -/
structure Dma where
  running : Bool
  pos : Nat
  deriving DecidableEq, Repr

/-- `EVT_STATUS`: `S.ht_pend` is bit 0, `S.tc_pend` is bit 1 (R42). -/
structure EvtStatus where
  ht : Bool
  tc : Bool
  deriving DecidableEq, Repr

/-- `S.irq_active`, `S.irq_evt`, `S.irq_pos` (R43). The fields `data` and `idx` are the handler's local variables
`data` and `j` of 41_stream_buffer.md R213, which live from one atomic block to the next (DESIGN CHOICE, log 11). -/
structure Irq where
  active : Bool
  evt : Event
  pos : Nat
  data : List Byte
  idx : Nat
  deriving DecidableEq, Repr

/-! ### Output pins (R44) and result register (R45) -/

/-- The codec reset line. -/
inductive ResetLine where
  | asserted
  | released
  deriving DecidableEq, Repr, Inhabited

/-- `S.codec_rst`, `S.sclk_en`. -/
structure Pins where
  codecRst : ResetLine
  sclkEn : Bool
  deriving DecidableEq, Repr

/-- A change of a pin, as the pin trace records it. -/
inductive PinChange where
  | codecRst (l : ResetLine)
  | sclkEn (b : Bool)
  deriving DecidableEq, Repr

/-- `RESULT.status`. -/
inductive Status where
  | ok
  | fail
  | illegal
  deriving DecidableEq, Repr, Inhabited

/-- The 2-bit code of a status; 3 is never written. -/
def Status.code : Status → BitVec 2
  | .ok => 0
  | .fail => 1
  | .illegal => 2

/-- `RESULT.text`: seven bytes of ASCII. -/
abbrev Text := Vector Byte 7

/-- Seven 0x20 bytes. -/
def Text.spaces : Text := #v[0x20, 0x20, 0x20, 0x20, 0x20, 0x20, 0x20]

/-- `RESULT`. -/
structure Result where
  status : Status
  value : BitVec 32
  text : Text
  deriving DecidableEq, Repr

/-! ### Observables (00_scope.md R15, 10_state.md R46) -/

/-- One control-bus write, as the bus trace records it. -/
structure BusRecord where
  addr : BusAddr
  reg : Byte
  val : Byte
  result : BusResult
  deriving DecidableEq, Repr

/-- The six append-only traces, oldest record first. -/
structure Traces where
  bus : List BusRecord
  src : List (Half × Nat)
  audio : List Sample
  pin : List PinChange
  result : List Result
  meter : List Bool
  deriving DecidableEq, Repr

/-! ### The model's own input feeds -/

/-- The answers of one oracle: those given beforehand, next first, and how many have been drawn so far. When none is
given the next answer is the oracle's free value at `drawn`. -/
structure Feed (α : Type) where
  given : List α
  drawn : Nat
  deriving DecidableEq, Repr

/-- One feed for each oracle the step reads: bus results, source bytes, whose turn it is, which event is first
(DESIGN CHOICE, logs 4 to 7). -/
structure Inputs where
  bus : Feed BusResult
  src : Feed (List Byte)
  turn : Feed Turn
  first : Feed Event
  deriving DecidableEq, Repr

/-! ### The state -/

/-- The audio buffer's bytes by address, rising, none equal to what an unlisted address reads as. -/
abbrev Memory := List Host.Cell

structure State where
  params : Params
  port : List Word
  fg : Fg
  stream : StreamState
  started : Bool
  target : Half
  buf : Memory
  meter : Meter
  tone : Tone
  dma : Dma
  evt : EvtStatus
  irq : Irq
  pins : Pins
  result : Result
  traces : Traces
  inputs : Inputs
  deriving DecidableEq, Repr

/-- The state right after reset (70_reset_and_hazards.md R350). The spec gives every value but those of `irq.evt`
(log 12), of the OPEN parameters (logs 1, 2) and of the model's own fields (logs 4 to 7, 11). -/
def State.reset : State where
  params := Params.reference
  port := []
  fg := ⟨false, none, 0, none⟩
  stream := .stopped
  started := false
  target := .first
  buf := []
  meter := ⟨0, 0, false⟩
  tone := ⟨0, 0, 0, 0⟩
  dma := ⟨false, 0⟩
  evt := ⟨false, false⟩
  irq := ⟨false, .ht, 0, [], 0⟩
  pins := ⟨.asserted, false⟩
  result := ⟨.ok, 0, Text.spaces⟩
  traces := ⟨[], [], [], [], [], []⟩
  inputs := ⟨⟨[], 0⟩, ⟨[], 0⟩, ⟨[], 0⟩, ⟨[], 0⟩⟩

end Sys2Proof.Machine
end

