-- ==== Sys2Proof/Machine/Ops.lean ====
section
/-! DEFINITION. The named operations over the state: the audio buffer (20_memory.md), the oracles and host primitives
of 00_scope.md R15, the pins (10_state.md R44), the command sequencer's own moves (R31, R45), `ILLEGAL`
(60_exceptions.md R301), and the entry to and return from the interrupt context (R306, R307). -/

namespace Sys2Proof.Machine

/-! ### Memory -/

/-- What an address reads as that the memory does not list: 0x00, the buffer's reset content (10_state.md R35). -/
abbrev Memory.unlisted : Byte := 0

/-- The byte at address `x`. -/
def Memory.read : Memory → Nat → Byte
  | [], _ => Memory.unlisted
  | (a, b) :: m, x => if x = a then b else Memory.read m x

/-- Store `v` at address `x`, keeping the canonical form. -/
def Memory.write : Memory → Nat → Byte → Memory
  | [], x, v => if v = Memory.unlisted then [] else [(x, v)]
  | (a, b) :: m, x, v =>
    if x < a then (if v = Memory.unlisted then (a, b) :: m else (x, v) :: (a, b) :: m)
    else if x = a then (if v = Memory.unlisted then m else (x, v) :: m)
    else (a, b) :: Memory.write m x v

/-- The canonical form from address `lo` up: addresses strictly rising, no byte an unlisted address reads as. -/
def Memory.wfFrom : Nat → Memory → Bool
  | _, [] => true
  | lo, (a, b) :: m => decide (lo ≤ a) && decide (b ≠ Memory.unlisted) && Memory.wfFrom (a + 1) m

/-- The canonical form. -/
def Memory.wf (m : Memory) : Bool := Memory.wfFrom 0 m

/-- Every listed address is below `n`. -/
def Memory.below (n : Nat) (m : Memory) : Bool := m.all fun c => decide (c.1 < n)

/-- The number of a half: FIRST_HALF 0, SECOND_HALF 1 (10_state.md R34). -/
def halfIndex : Half → Nat
  | .first => 0
  | .second => 1

/-- `base(h) = h × HALF_BYTES` (20_memory.md R81). -/
def halfBase (p : Params) (h : Half) : Nat := halfIndex h * p.halfBytes

/-- `MemRead(addr, 1)` (00_scope.md R14). -/
def memReadByte (s : State) (a : Nat) : Except Fault Byte :=
  if a < s.params.bufBytes then .ok (Memory.read s.buf a) else .error .outsideBuffer

/-- `MemRead(addr, 2)`: little-endian, at an even address (R14, 20_memory.md R83, R84). -/
def memReadWord (s : State) (a : Nat) : Except Fault Sample :=
  if a % 2 = 1 then .error .misaligned
  else if a + 1 < s.params.bufBytes then .ok (Memory.read s.buf (a + 1) ++ Memory.read s.buf a)
  else .error .outsideBuffer

/-- `MemWrite(addr, 1, v)` (R14). -/
def memWriteByte (s : State) (a : Nat) (v : Byte) : Except Fault State :=
  if a < s.params.bufBytes then .ok { s with buf := Memory.write s.buf a v } else .error .outsideBuffer

/-- `MemWrite(addr, 2, v)`: the low byte at `addr`, at an even address (R14, R83, R84). -/
def memWriteWord (s : State) (a : Nat) (v : Sample) : Except Fault State :=
  if a % 2 = 1 then .error .misaligned
  else if a + 1 < s.params.bufBytes then
    .ok { s with buf := Memory.write (Memory.write s.buf a (v.extractLsb' 0 8)) (a + 1) (v.extractLsb' 8 8) }
  else .error .outsideBuffer

/-! ### Oracles and host primitives (00_scope.md R15) -/

/-- The next answer of a feed and the feed after it: the first answer given beforehand, else the free value. -/
def Feed.draw {α : Type} (free : Nat → α) (f : Feed α) : α × Feed α :=
  match f.given with
  | [] => (free f.drawn, ⟨[], f.drawn + 1⟩)
  | a :: rest => (a, ⟨rest, f.drawn + 1⟩)

/-- The result the next bus transaction will have (R15, 40_codec.md R150). -/
def State.busAnswer (s : State) : BusResult := (s.inputs.bus.draw Config.busAnswer).1

/-- One bus answer is used up. -/
def State.useBusAnswer (s : State) : State :=
  { s with inputs := { s.inputs with bus := (s.inputs.bus.draw Config.busAnswer).2 } }

/-- `BusWrite(reg, val)`: one write transaction at `CODEC_ADDR`, recorded in the bus trace (R15, R150). -/
def busWrite (reg val : Byte) (s : State) : BusResult × State :=
  (s.busAnswer,
    { s.useBusAnswer with
      traces := { s.traces with bus := s.traces.bus ++ [⟨s.params.codecAddr, reg, val, s.busAnswer⟩] } })

/-- `BusRead(reg)`: one read transaction; the byte is free (R15). R15 has only `BusWrite` append to the bus trace
(log 22). No operation of the ASE calls it (40_codec.md R170). -/
def busRead (_reg : Byte) (s : State) : (BusResult × Byte) × State :=
  ((s.busAnswer, Config.busReadByte s.inputs.bus.drawn), s.useBusAnswer)

/-- Exactly `n` bytes of the source's next answer; bytes it was not given beforehand are free (41_stream_buffer.md R214). -/
def State.sourceAnswer (s : State) (n : Nat) : List Byte :=
  let given := (s.inputs.src.draw fun _ => []).1
  (List.range n).map fun j => given.getD j (Config.sourceByte s.inputs.src.drawn j)

/-- `SrcRead(dst_half, n)`: the bytes, and the record in the source trace (R15). -/
def srcRead (h : Half) (n : Nat) (s : State) : List Byte × State :=
  (s.sourceAnswer n,
    { s with
      inputs := { s.inputs with src := (s.inputs.src.draw fun _ => []).2 }
      traces := { s.traces with src := s.traces.src ++ [(h, n)] } })

/-- `Emit(w)`: one word on the serial audio output, recorded in the audio-output trace (R15). -/
def emit (w : Sample) (s : State) : State :=
  { s with traces := { s.traces with audio := s.traces.audio ++ [w] } }

/-- The turn the schedule gives next, and the state after the choice is used up (60_exceptions.md R305). -/
def drawTurn (s : State) : Turn × State :=
  let d := s.inputs.turn.draw Config.nextTurn
  (d.1, { s with inputs := { s.inputs with turn := d.2 } })

/-- The event taken first when both are pending, and the state after the choice is used up (R308). -/
def drawFirst (s : State) : Event × State :=
  let d := s.inputs.first.draw Config.firstEvent
  (d.1, { s with inputs := { s.inputs with first := d.2 } })

/-! ### Pins (10_state.md R44): every change is recorded, a write of the value already held is no change -/

/-- `S.codec_rst <- l`. -/
def setCodecRst (l : ResetLine) (s : State) : State :=
  { s with
    pins := { s.pins with codecRst := l }
    traces := { s.traces with
      pin := if s.pins.codecRst = l then s.traces.pin else s.traces.pin ++ [.codecRst l] } }

/-- `S.sclk_en <- b`. -/
def setSclkEn (b : Bool) (s : State) : State :=
  { s with
    pins := { s.pins with sclkEn := b }
    traces := { s.traces with
      pin := if s.pins.sclkEn = b then s.traces.pin else s.traces.pin ++ [.sclkEn b] } }

/-- The meter fields are written; the new `meter_on` is recorded (R46, 42_signal_meter.md R241, R243). -/
def setMeter (m : Meter) (s : State) : State :=
  { s with meter := m, traces := { s.traces with meter := s.traces.meter ++ [m.on] } }

/-! ### The command sequencer (10_state.md R31) -/

/-- The accumulators of the command in progress; those a command starts with where there are none. -/
def State.acc (s : State) : FgAcc := s.fg.acc.getD ⟨false, 0⟩

/-- Go on to the next atomic block. -/
def fgAdvance (s : State) : State := { s with fg := { s.fg with pos := s.fg.pos + 1 } }

/-- `fail <- b`. -/
def fgSetFail (b : Bool) (s : State) : State :=
  { s with fg := { s.fg with acc := some { s.acc with fail := b } } }

/-- One iteration of a `for` loop is done: with another to come, count it and stay at the loop's block; else leave the
loop for the next block. -/
def fgLoop (another : Bool) (s : State) : State :=
  if another then { s with fg := { s.fg with acc := some { s.acc with idx := s.acc.idx + 1 } } }
  else fgAdvance { s with fg := { s.fg with acc := some { s.acc with idx := 0 } } }

/-- `r <- BusWrite(reg, val); fail <- fail or (r != OK)` (40_codec.md R160, R169). -/
def fgTransact (reg val : Byte) (s : State) : State :=
  let d := busWrite reg val s
  fgSetFail (d.2.acc.fail || decide (d.1 ≠ .ok)) d.2

/-- `Wait(t)`: a step without a state effect (R15); time itself is not modelled (D39, log 2). -/
def fgWait (_microseconds : Nat) (s : State) : State := s

/-- `result <- (status, value, text)` by a command's last block, which also sets `S.fg_busy <- false` (R31, R45); the
result joins the sequence of results (R46). The idle sequencer holds no command, position 0 and no accumulators
(DEDUCED, log 10). -/
def fgFinish (status : Status) (value : BitVec 32) (text : Text) (s : State) : State :=
  { s with
    result := ⟨status, value, text⟩
    traces := { s.traces with result := s.traces.result ++ [⟨status, value, text⟩] }
    fg := ⟨false, none, 0, none⟩ }

/-- `raise Illegal(word)`: the one block that takes the place of the command's body (60_exceptions.md R301). -/
def raiseIllegal (s : State) : State := fgFinish .illegal 0 Text.spaces s

/-! ### Interrupt entry and return (60_exceptions.md R306–R308) -/

/-- The event an entry takes, and the state after the choice R308 leaves free. -/
def chooseEvent (s : State) : Event × State :=
  if s.evt.ht && s.evt.tc then drawFirst s
  else if s.evt.ht then (.ht, s)
  else (.tc, s)

/-- Clear the pending bit of an event. -/
def clearPending (e : Event) (v : EvtStatus) : EvtStatus :=
  match e with
  | .ht => { v with ht := false }
  | .tc => { v with tc := false }

/-- The `IRQ` entry step: the event's bit is cleared, `FG`'s state stays where it was (R306). -/
def irqEnter (s : State) : State :=
  let d := chooseEvent s
  { d.2 with evt := clearPending d.1 d.2.evt, irq := ⟨true, d.1, 0, [], 0⟩ }

/-- The `IRQ` return step: nothing is restored, because entry saved nothing (R307). -/
def irqReturn (s : State) : State :=
  { s with irq := { s.irq with active := false, pos := 0, data := [], idx := 0 } }

/-- The handler goes on at its block `p`. -/
def irqGoto (p : Nat) (s : State) : State := { s with irq := { s.irq with pos := p } }

end Sys2Proof.Machine
end

