-- ==== Sys2Proof/Machine/Operands.lean ====
section
/-! DEFINITION. The operand forms and conversions: the integer notation of 00_scope.md R12, volume and tone
quantisation (40_codec.md R157, R158), the tone registers' bytes (R155, R156), the saturating steps of 43_playback.md
R271 and R272, and the 16-bit samples of a refill's bytes (20_memory.md R83). -/

namespace Sys2Proof.Machine

/-- `clamp(v, lo, hi) = min(max(v, lo), hi)`. -/
def clamp (v lo hi : Int) : Int := min (max v lo) hi

/-- `floor_div(a, b) = floor(a / b)` for b > 0. -/
def floorDiv (a b : Int) : Int := a.fdiv b

/-- `asr(n, k) = floor(n / 2^k)`. -/
def asr (n : Int) (k : Nat) : Int := floorDiv n (2 ^ k)

/-- `lo8(n)`: n mod 256 as a byte. -/
def lo8 (n : Int) : Byte := BitVec.ofInt 8 n

/-- `sext_16` of a pattern. -/
def sext16 (v : BitVec 16) : Int := v.toInt

/-- `vol_code(d, lo, hi)` (R157): clamp first, then the arithmetic shift by 7, then the low byte (R154). -/
def volCode (d : DbQ) (lo hi : Int) : Byte := lo8 (asr (clamp (sext16 d) lo hi) 7)

/-- `tone_steps(d)` (R158, its 384 being the `TONE_STEP_Q` of 00_scope.md R9). -/
def toneSteps (p : Params) (d : DbQ) : Int :=
  floorDiv (clamp (sext16 d) (p.toneMinSteps * p.toneStepQ) (p.toneMaxSteps * p.toneStepQ)) p.toneStepQ

/-- `freq_idx(i) = min(i, FREQ_COUNT − 1)` (R158). -/
def freqIdx (p : Params) (i : BitVec 2) : BitVec 2 := BitVec.ofNat 2 (min i.toNat (p.freqCount - 1))

/-- `TONE_NIB(s)` (R155): the table's code for a step count in −7..8. For any other the spec defines none, and the model's
code is a free value (DESIGN CHOICE, log 18; no tone field of the invariant asks for it). -/
def toneNib (p : Params) (s : Int) : BitVec 4 :=
  if s < -7 then Config.toneNibOutside s else p.toneNib.getD (s + 7).toNat (Config.toneNibOutside s)

/-- The tone gain byte: treble in bits 7:4, bass in bits 3:0 (R155, R167). -/
def toneGainByte (p : Params) (t : Tone) : Byte := toneNib p t.treble ++ toneNib p t.bass

/-- The tone configuration byte `TONE_CFG_BASE | (tf << 3) | (bf << 1)` (R156, R167). -/
def toneCfgByte (p : Params) (t : Tone) : Byte :=
  p.vals.toneCfgBase ||| (t.tf.setWidth 8 <<< 3) ||| (t.bf.setWidth 8 <<< 1)

/-- The step of `INC ctl` on the tone fields (R271). -/
def toneInc (p : Params) (ctl : Ctl) (t : Tone) : Tone :=
  match ctl with
  | .bass => { t with bass := min (t.bass + 1) p.toneMaxSteps }
  | .treble => { t with treble := min (t.treble + 1) p.toneMaxSteps }
  | .bassFreq => { t with bf := BitVec.ofNat 2 (min (t.bf.toNat + 1) (p.freqCount - 1)) }
  | .trebleFreq => { t with tf := BitVec.ofNat 2 (min (t.tf.toNat + 1) (p.freqCount - 1)) }

/-- The step of `DEC ctl` on the tone fields (R272). An index is not below 0, so `Nat` subtraction is the `max` with 0. -/
def toneDec (p : Params) (ctl : Ctl) (t : Tone) : Tone :=
  match ctl with
  | .bass => { t with bass := max (t.bass - 1) p.toneMinSteps }
  | .treble => { t with treble := max (t.treble - 1) p.toneMinSteps }
  | .bassFreq => { t with bf := BitVec.ofNat 2 (t.bf.toNat - 1) }
  | .trebleFreq => { t with tf := BitVec.ofNat 2 (t.tf.toNat - 1) }

/-- Word j of a refill's bytes, `{data[2j+1], data[2j]}` (R83, 41_stream_buffer.md R213). -/
def sampleOf (data : List Byte) (j : Nat) : Sample := data.getD (2 * j + 1) 0 ++ data.getD (2 * j) 0

end Sys2Proof.Machine
end

