-- ==== Sys2Proof/Machine/Flags.lean ====
section
/-! DEFINITION. The flags: a command's status from its failure flag (10_state.md R45, 60_exceptions.md R302), the
registers' read-out (R42, R45, R49), the pending bits that a transfer step sets (41_stream_buffer.md R220), and the
meter's computation with its output line (42_signal_meter.md R241, R242). -/

namespace Sys2Proof.Machine

/-- `if fail then FAIL else OK`. -/
def busStatus (fail : Bool) : Status := if fail then .fail else .ok

/-- The end of a command that used the bus: `result <- (if fail then FAIL else OK, 0, "       ")`. -/
def fgFinishBus (s : State) : State := fgFinish (busStatus s.acc.fail) 0 Text.spaces s

/-- `EVT_STATUS` as its two bits, bit 1 `tc_pend`, bit 0 `ht_pend` (R42). -/
def evtStatusBits (v : EvtStatus) : BitVec 2 := BitVec.ofBool v.tc ++ BitVec.ofBool v.ht

/-- `EVT_STATUS` as a 32-bit register: bits 31..2 do not exist and read as 0 (R42, R49). -/
def evtStatusWord (v : EvtStatus) : BitVec 32 := (evtStatusBits v).setWidth 32

/-- The pending bits after a transfer step that leaves position p, counted before the wrap (R220): a bit already set
stays set, so an event is lost without a record (R42). -/
def crossPending (p : Params) (pos : Nat) (v : EvtStatus) : EvtStatus :=
  ⟨v.ht || decide (pos = p.halfWords), v.tc || decide (pos = p.bufWords)⟩

/-- `|sext_16(w)|`, with no width limit (R242). -/
def magnitude (w : Sample) : Nat := (sext16 w).natAbs

/-- `peak(data)`: the largest magnitude over the words of a half (R242). -/
def peak (halfWords : Nat) (data : List Byte) : Nat :=
  (List.range halfWords).foldl (fun m j => max m (magnitude (sampleOf data j))) 0

/-- The new average `(9 * avg + m) div 10` (R241). -/
def meterAverage (avg m : Nat) : Nat := (9 * avg + m) / 10

/-- `METER_UPDATE` on the meter's fields (R241): `on` compares the new average with the counter before it advances. -/
def meterUpdate (p : Params) (m : Nat) (t : Meter) : Meter :=
  let a := meterAverage t.avg.toNat m
  ⟨BitVec.ofNat 32 a, BitVec.ofNat 4 ((t.cnt.toNat + 1) % p.meterPeriod), decide (t.cnt.toNat < a / p.meterK)⟩

/-- The meter's reset values (R243). -/
def meterCleared : Meter := ⟨0, 0, false⟩

end Sys2Proof.Machine
end

