-- ==== Sys2Proof/Machine/Format.lean ====
section
/-! DEFINITION. The display text of a tone field (43_playback.md R280, R281), as ASCII bytes. -/

namespace Sys2Proof.Machine

/-- `dec(n)`: the decimal digits of n, no leading zeros, `dec(0) = "0"`. -/
def decDigits (n : Nat) : List Byte := asciiBytes (Nat.toDigits 10 n)

/-- `leftpad(x, w, " ")`. -/
def leftPad (x : List Byte) (w : Nat) : List Byte := List.replicate (w - x.length) 0x20 ++ x

/-- `fmt_gain(s)` (R280). -/
def fmtGain (steps : Int) : List Byte :=
  let t := 15 * steps
  let sgn : List Byte := if t < 0 then asciiBytes ['-'] else asciiBytes [' ']
  let a := t.natAbs
  let body := sgn ++ decDigits (a / 10) ++ asciiBytes ['.'] ++ decDigits (a % 10)
  leftPad body 5 ++ asciiBytes ['d', 'B']

/-- `fmt_freq(labels, i)` (R281). -/
def fmtFreq (labels : List (List Byte)) (i : BitVec 2) : List Byte := leftPad (labels.getD i.toNat []) 7

/-- The seven bytes of `RESULT.text` that hold a text of seven characters. A text is never longer or shorter where the
parameters are valid and the tone fields in range (R280, R281; log 19). -/
def textOf (l : List Byte) : Text :=
  #v[l.getD 0 0x20, l.getD 1 0x20, l.getD 2 0x20, l.getD 3 0x20, l.getD 4 0x20, l.getD 5 0x20, l.getD 6 0x20]

/-- The text of a control's field (R282). -/
def formatText (p : Params) (ctl : Ctl) (t : Tone) : Text :=
  match ctl with
  | .bass => textOf (fmtGain t.bass)
  | .treble => textOf (fmtGain t.treble)
  | .bassFreq => textOf (fmtFreq p.labelsBass t.bf)
  | .trebleFreq => textOf (fmtFreq p.labelsTreble t.tf)

end Sys2Proof.Machine
end

