-- ==== Sys2Proof/Machine/Codec.lean ====
section
/-! DEFINITION. The Codec Controller's commands (40_codec.md): `INIT`, `PDN`, `SET_MVOL`, `SET_HPVOL`, `SET_MUTE`,
`SET_HP_MUTE`, `SET_TONE`, and the internal `TONE_WRITE`. A meaning performs the atomic block of the command's
pseudocode at `S.fg_pos`; a `for` loop is one block performed once per iteration (10_state.md R31, logs 3, 14). -/

namespace Sys2Proof.Machine

/-- A block that is one bus write and goes on to the next block. -/
def busBlock (reg val : Byte) (s : State) : State := fgAdvance (fgTransact reg val s)

/-- A command's last block that is one bus write and the result. -/
def busLastBlock (reg val : Byte) (s : State) : State := fgFinishBus (fgTransact reg val s)

/-- One iteration of `for each reg in REGMAP.PCM_MUTE, in list order` (R161, R164, 43_playback.md R262, R263). -/
def pcmMuteBlock (val : Byte) (s : State) : State :=
  match s.params.regMap.pcmMute[s.acc.idx]? with
  | some reg => fgLoop (decide (s.acc.idx + 1 < s.params.regMap.pcmMute.length)) (fgTransact reg val s)
  | none => fgLoop false s

/-- `TONE_WRITE` from block `first` of the command that uses it: the gain register, then the configuration register
and the result (R167). -/
def toneWrite (first : Nat) (s : State) : Host.Outcome State Fault Refusal :=
  if s.fg.pos = first then .next (busBlock s.params.regMap.toneGain (toneGainByte s.params s.tone) s)
  else if s.fg.pos = first + 1 then .next (busLastBlock s.params.regMap.toneCfg (toneCfgByte s.params s.tone) s)
  else .fault .noBlock

/-- A volume command: the same byte to the left, then to the right channel's register (R162, R163). -/
def volumeWrite (regA regB code : Byte) (s : State) : Host.Outcome State Fault Refusal :=
  match s.fg.pos with
  | 0 => .next (busBlock regA code s)
  | 1 => .next (busLastBlock regB code s)
  | _ => .fault .noBlock

/-- `INIT` (R160). -/
def execInit (s : State) : Host.Outcome State Fault Refusal :=
  match s.fg.pos with
  | 0 => .next (fgAdvance (setCodecRst .asserted (fgSetFail false s)))
  | 1 => .next (fgAdvance (fgWait s.params.tRstHoldUs s))
  | 2 => .next (fgAdvance (setCodecRst .released s))
  | 3 => .next (fgAdvance (setSclkEn true s))
  | 4 => .next (fgAdvance (fgWait s.params.tSettleUs s))
  | 5 => .next (busBlock s.params.regMap.pwrCtl s.params.vals.pwrOutputsOff s)
  | 6 => .next (busBlock s.params.regMap.routing s.params.vals.routingVal s)
  | 7 => .next (busBlock s.params.regMap.clocking s.params.vals.clockingVal s)
  | 8 => .next (busBlock s.params.regMap.iface s.params.vals.ifaceVal s)
  | 9 => .next (busLastBlock s.params.regMap.pwrCtl s.params.vals.pwrOn s)
  | _ => .fault .noBlock

/-- `PDN` (R161). -/
def execPdn (s : State) : Host.Outcome State Fault Refusal :=
  match s.fg.pos with
  | 0 => .next (fgAdvance (fgSetFail false s))
  | 1 => .next (pcmMuteBlock s.params.vals.pcmMuteOn s)
  | 2 => .next (busBlock s.params.regMap.miscCtl s.params.vals.miscRampOff s)
  | 3 => .next (busBlock s.params.regMap.pwrCtl s.params.vals.pwrDown s)
  | 4 => .next (fgFinishBus (fgWait s.params.tPdnWaitUs s))
  | _ => .fault .noBlock

/-- `SET_MVOL db` (R162). -/
def execSetMvol (db : DbQ) (s : State) : Host.Outcome State Fault Refusal :=
  volumeWrite s.params.regMap.mvolA s.params.regMap.mvolB (volCode db s.params.mvolMin s.params.mvolMax) s

/-- `SET_HPVOL db` (R163). -/
def execSetHpvol (db : DbQ) (s : State) : Host.Outcome State Fault Refusal :=
  volumeWrite s.params.regMap.hpvolA s.params.regMap.hpvolB (volCode db s.params.hpvolMin s.params.hpvolMax) s

/-- `SET_MUTE on` (R164). -/
def execSetMute (on : Bool) (s : State) : Host.Outcome State Fault Refusal :=
  match s.fg.pos with
  | 0 => .next (fgAdvance (fgSetFail false s))
  | 1 => .next (pcmMuteBlock (if on then s.params.vals.pcmMuteOn else s.params.vals.pcmMuteOff) s)
  | 2 => .next (fgFinishBus s)
  | _ => .fault .noBlock

/-- `SET_HP_MUTE on` (R165). Without `HAS_LEGACY_HP_MUTE` the command is ILLEGAL (30_encoding.md R123, log 23). -/
def execSetHpMute (on : Bool) (s : State) : Host.Outcome State Fault Refusal :=
  match s.fg.pos with
  | 0 =>
    if s.params.hasLegacyHpMute then
      .next (busLastBlock s.params.regMap.playbackCtl
        (if on then s.params.vals.hpMuteOn else s.params.vals.hpMuteOff) s)
    else .next (raiseIllegal s)
  | _ => .fault .noBlock

/-- `SET_TONE bass, treble, bf, tf` (R166): the tone state is written before the bus and whatever the bus answers. -/
def execSetTone (bass treble : DbQ) (bf tf : BitVec 2) (s : State) : Host.Outcome State Fault Refusal :=
  match s.fg.pos with
  | 0 => .next (fgAdvance { s with
      tone := ⟨toneSteps s.params bass, toneSteps s.params treble, freqIdx s.params bf, freqIdx s.params tf⟩ })
  | _ => toneWrite 1 s

end Sys2Proof.Machine
end

