-- ==== Sys2Proof/Machine/Stream.lean ====
section
/-! DEFINITION. The Stream Buffer Manager and the transfer engine (41_stream_buffer.md): the blocks of `SBM_START` and
`SBM_STOP`, the handlers `EVT_HT` and `EVT_TC` with `REFILL` and `METER_UPDATE`, and the `DMA` step. A handler's
meaning performs the block at `S.irq_pos`: 0 sets the target; 1 reads the stream state; 2 reads the source; 3 writes one
word, once per word; 4 updates the meter; 5 returns (10_state.md R43, logs 3, 14). -/

namespace Sys2Proof.Machine

/-- `SBM_START`, one block: the guard and the start (R201). -/
def sbmStart (s : State) : State :=
  if s.started then s
  else { s with started := true, dma := ⟨true, 0⟩, evt := ⟨false, false⟩ }

/-- `METER_RESET`, one block of `SBM_STOP` (42_signal_meter.md R243). -/
def meterReset (s : State) : State := setMeter meterCleared s

/-- One iteration of the zero fill: word k of the whole buffer (R202). -/
def zeroFillBlock (s : State) : Host.Outcome State Fault Refusal :=
  match memWriteWord s (2 * s.acc.idx) 0 with
  | .ok t => .next (fgLoop (decide (s.acc.idx + 1 < s.params.bufWords)) t)
  | .error f => .fault f

/-- The position of a handler's return step. -/
def handlerReturn : Nat := 5

/-- `st <- S.stream_state; if st = STOPPED then return` (R213). -/
def refillGuard (s : State) : State :=
  match s.stream with
  | .stopped => irqGoto handlerReturn s
  | .streaming => irqGoto 2 s

/-- `data <- SrcRead(h, HALF_BYTES)` with h the target (R213, R214). -/
def refillRead (s : State) : State :=
  let d := srcRead s.target s.params.halfBytes s
  { d.2 with irq := { d.2.irq with data := d.1, idx := 0, pos := 3 } }

/-- `MemWrite(b + 2j, 2, {data[2j+1], data[2j]})`, one iteration (R213). -/
def refillWrite (s : State) : Host.Outcome State Fault Refusal :=
  match memWriteWord s (halfBase s.params s.target + 2 * s.irq.idx) (sampleOf s.irq.data s.irq.idx) with
  | .ok t =>
    if s.irq.idx + 1 < s.params.halfWords then .next { t with irq := { t.irq with idx := t.irq.idx + 1 } }
    else .next (irqGoto 4 t)
  | .error f => .fault f

/-- `METER_UPDATE(data)` (42_signal_meter.md R241). -/
def refillMeter (s : State) : State :=
  irqGoto handlerReturn (setMeter (meterUpdate s.params (peak s.params.halfWords s.irq.data) s.meter) s)

/-- `REFILL` and the handler's return (R213, 60_exceptions.md R307). -/
def refill (s : State) : Host.Outcome State Fault Refusal :=
  match s.irq.pos with
  | 1 => .next (refillGuard s)
  | 2 => .next (refillRead s)
  | 3 => refillWrite s
  | 4 => .next (refillMeter s)
  | 5 => .next (irqReturn s)
  | _ => .fault .noBlock

/-- `EVT_HT` (R211): the target is set by the event's kind, not toggled (90_conflicts.md C1). -/
def execEvtHt (s : State) : Host.Outcome State Fault Refusal :=
  match s.irq.pos with
  | 0 => .next (irqGoto 1 { s with target := .first })
  | _ => refill s

/-- `EVT_TC` (R212). -/
def execEvtTc (s : State) : Host.Outcome State Fault Refusal :=
  match s.irq.pos with
  | 0 => .next (irqGoto 1 { s with target := .second })
  | _ => refill s

/-- The transfer moves past position p − 1: pending bits, and the wrap at `BUF_WORDS` (R220). -/
def dmaMove (s : State) : State :=
  let p := s.dma.pos + 1
  { s with
    evt := crossPending s.params p s.evt
    dma := { s.dma with pos := if p = s.params.bufWords then 0 else p } }

/-- The `DMA` step: read one word, emit it, move on (R220). -/
def dmaStep (s : State) : Host.Outcome State Fault Refusal :=
  match memReadWord s (2 * s.dma.pos) with
  | .ok w => .next (dmaMove (emit w s))
  | .error f => .fault f

end Sys2Proof.Machine
end

