-- ==== Sys2Proof/Machine/Playback.lean ====
section
/-! DEFINITION. The Playback State Machine and the UI commands (43_playback.md): `PLAY`, `STOP`, `GET_STATE`, `INC`,
`DEC`, `FORMAT`. As in Codec.lean, a meaning performs the atomic block at `S.fg_pos`. -/

namespace Sys2Proof.Machine

/-- `PLAY` (R262): the state, the guarded start, then the canonical unmute. -/
def execPlay (s : State) : Host.Outcome State Fault Refusal :=
  match s.fg.pos with
  | 0 => .next (fgAdvance { s with stream := .streaming })
  | 1 => .next (fgAdvance (sbmStart s))
  | 2 => .next (fgAdvance (fgSetFail false s))
  | 3 => .next (pcmMuteBlock s.params.vals.pcmMuteOff s)
  | 4 => .next (fgFinishBus s)
  | _ => .fault .noBlock

/-- `STOP` (R263): the canonical mute, then `SBM_STOP`: STOPPED, the meter reset, the zero fill (41_stream_buffer.md
R202). -/
def execStop (s : State) : Host.Outcome State Fault Refusal :=
  match s.fg.pos with
  | 0 => .next (fgAdvance (fgSetFail false s))
  | 1 => .next (pcmMuteBlock s.params.vals.pcmMuteOn s)
  | 2 => .next (fgAdvance { s with stream := .stopped })
  | 3 => .next (fgAdvance (meterReset s))
  | 4 => zeroFillBlock s
  | 5 => .next (fgFinishBus s)
  | _ => .fault .noBlock

/-- `GET_STATE` (R264). -/
def execGetState (s : State) : Host.Outcome State Fault Refusal :=
  match s.fg.pos with
  | 0 => .next (fgFinish .ok s.stream.code Text.spaces s)
  | _ => .fault .noBlock

/-- `INC ctl` (R271). -/
def execInc (ctl : Ctl) (s : State) : Host.Outcome State Fault Refusal :=
  match s.fg.pos with
  | 0 => .next (fgAdvance { s with tone := toneInc s.params ctl s.tone })
  | _ => toneWrite 1 s

/-- `DEC ctl` (R272). -/
def execDec (ctl : Ctl) (s : State) : Host.Outcome State Fault Refusal :=
  match s.fg.pos with
  | 0 => .next (fgAdvance { s with tone := toneDec s.params ctl s.tone })
  | _ => toneWrite 1 s

/-- `FORMAT ctl` (R282). -/
def execFormat (ctl : Ctl) (s : State) : Host.Outcome State Fault Refusal :=
  match s.fg.pos with
  | 0 => .next (fgFinish .ok 0 (formatText s.params ctl s.tone) s)
  | _ => .fault .noBlock

end Sys2Proof.Machine
end

