-- ==== Sys2Proof/Machine/Dispatch.lean ====
section
/-! DEFINITION. One arm per instruction: `exec i s` performs the next atomic block of i, the one at `S.fg_pos` for a
command and at `S.irq_pos` for an event. -/

namespace Sys2Proof.Machine

def exec (i : Instr) (s : State) : Host.Outcome State Fault Refusal :=
  match i with
  | .init => Sys2Proof.Machine.execInit s
  | .pdn => Sys2Proof.Machine.execPdn s
  | .setMvol db => Sys2Proof.Machine.execSetMvol db s
  | .setHpvol db => Sys2Proof.Machine.execSetHpvol db s
  | .setMute on => Sys2Proof.Machine.execSetMute on s
  | .setHpMute on => Sys2Proof.Machine.execSetHpMute on s
  | .setTone bass treble bf tf => Sys2Proof.Machine.execSetTone bass treble bf tf s
  | .play => Sys2Proof.Machine.execPlay s
  | .stop => Sys2Proof.Machine.execStop s
  | .getState => Sys2Proof.Machine.execGetState s
  | .inc ctl => Sys2Proof.Machine.execInc ctl s
  | .dec ctl => Sys2Proof.Machine.execDec ctl s
  | .format ctl => Sys2Proof.Machine.execFormat ctl s
  | .evtHt => Sys2Proof.Machine.execEvtHt s
  | .evtTc => Sys2Proof.Machine.execEvtTc s

end Sys2Proof.Machine
end

