-- ==== Sys2Proof/Machine/Schedule.lean ====
section
/-! DEFINITION. The agents and their interleaving: which agent has an enabled step (60_exceptions.md R305), taking a
command from the port (10_state.md R31), the step of the enabled context, the choice between two enabled agents, and
the issuer's write of the port (R322). -/

namespace Sys2Proof.Machine

/-- The `DMA` step is enabled (R305, 41_stream_buffer.md R220). -/
def State.dmaEnabled (s : State) : Bool := s.dma.running && s.pins.sclkEn

/-- A completion event is pending. -/
def State.pending (s : State) : Bool := s.evt.ht || s.evt.tc

/-- The first whole command at the port, decoded, and the words after it. -/
def State.waiting (s : State) : Option (Decoded × List Word) :=
  takeCommandWords s.params.hasLegacyHpMute s.port

/-- `IRQ` has a step: its entry, or the next block of the handler or its return (R305). -/
def State.irqEnabled (s : State) : Bool := s.irq.active || s.pending

/-- `FG` has a step: `IRQ` has none, and a command is in progress or a whole one waits at the port (R305). -/
def State.fgEnabled (s : State) : Bool := !s.irqEnabled && (s.fg.busy || s.waiting.isSome)

/-- `FG` takes the next whole command from the port and decodes it; where none is whole it has no step (R31). -/
def takeCommand (s : State) : State :=
  match s.waiting with
  | some (d, rest) => { s with port := rest, fg := ⟨true, some d, 0, some ⟨false, 0⟩⟩ }
  | none => s

/-- The next block of the command in progress (R31); an ILLEGAL command has the one block of R301. -/
def commandStep (s : State) : Host.Outcome State Fault Refusal :=
  match s.fg.cmd with
  | some (.command i) => if i.isCommand then exec i s else .fault .noCommand
  | some (.illegal _) => .next (raiseIllegal s)
  | none => .fault .noCommand

/-- The `FG` step. -/
def fgStep (s : State) : Host.Outcome State Fault Refusal :=
  if s.fg.busy then commandStep s else .next (takeCommand s)

/-- The `IRQ` step: the next block of the handler of the event in hand, or the entry (R306). -/
def irqStep (s : State) : Host.Outcome State Fault Refusal :=
  if s.irq.active then exec s.irq.evt.handler s else .next (irqEnter s)

/-- The step of the one context that is enabled: a pending event is entered before the next `FG` block (R305). -/
def contextStep (s : State) : Host.Outcome State Fault Refusal :=
  if s.irqEnabled then irqStep s else fgStep s

/-- One step of the machine: any enabled agent may take it (R305). Where two agents are enabled the schedule's next
turn decides; where one is, it moves; where none is, the machine waits for its issuer (logs 6, 9). -/
def nextStep (s : State) : Host.Outcome State Fault Refusal :=
  if s.params.valid then
    match s.dmaEnabled, s.irqEnabled || s.fgEnabled with
    | false, false => .next s
    | true, false => dmaStep s
    | false, true => contextStep s
    | true, true =>
      match drawTurn s with
      | (.dma, t) => dmaStep t
      | (.context, t) => contextStep t
  else .refused .badConfiguration

/-- The command issuer writes words to the port, behind those already there (60_exceptions.md R322). -/
def State.issue (ws : List Word) (s : State) : State := { s with port := s.port ++ ws }

/-- The port holds whole commands only: the issuer's first duty (R322). -/
def wholeCommands : List Word → Bool
  | [] => true
  | w0 :: rest =>
    if commandLength w0 = 2 then
      match rest with
      | [] => false
      | _ :: rest' => wholeCommands rest'
    else wholeCommands rest

/-- A prefix of a run is quiescent: `FG` is idle, the port empty, `IRQ` inactive and no bit pending (R325). -/
def State.quiescent (s : State) : Bool :=
  !s.fg.busy && s.port.isEmpty && !s.irq.active && !s.pending

/-- The state in which the very next step performs the first block of `d`, as right after `FG` took `d` from the port:
no event holds `FG`, and where the transfer also has a step the turn is the context's. -/
def latchCommand (d : Decoded) (s : State) : State :=
  { s with
    fg := ⟨true, some d, 0, some ⟨false, 0⟩⟩
    evt := ⟨false, false⟩
    irq := ⟨false, s.irq.evt, 0, [], 0⟩
    inputs := { s.inputs with turn :=
      if s.dmaEnabled then ⟨.context :: s.inputs.turn.given, s.inputs.turn.drawn⟩ else s.inputs.turn } }

/-- The state in which the very next step performs the first block of the handler of `e`, as right after entry. -/
def latchEvent (e : Event) (s : State) : State :=
  { s with
    evt := clearPending e s.evt
    irq := ⟨true, e, 0, [], 0⟩
    inputs := { s.inputs with turn :=
      if s.dmaEnabled then ⟨.context :: s.inputs.turn.given, s.inputs.turn.drawn⟩ else s.inputs.turn } }

/-- The instruction whose bits the opcode table numbers, placed where the next step runs it (log 8): a command word as
`FG` latches it, an event as `IRQ` entry selects it. -/
def placeTableWord (nbits w : Nat) (s : State) : State :=
  if nbits < 32 then
    match selectedEvents (BitVec.ofNat 2 w) with
    | [] => s
    | e :: _ => latchEvent e s
  else
    match takeCommandWords s.params.hasLegacyHpMute [tableWord0 w, tableWord1 w] with
    | some (d, _) => latchCommand d s
    | none => s

end Sys2Proof.Machine
end

