-- ==== Sys2Proof/Machine/Step.lean ====
section
/-! DEFINITION. The step of the machine, and the placement of one instruction for it. -/

namespace Sys2Proof.Machine

/-- One step of one agent (60_exceptions.md R305). -/
def step (s : State) : Host.Outcome State Fault Refusal := nextStep s

/-- `s` with an instruction of the opcode table placed so that the very next step runs it. -/
def State.withFetchWord (s : State) (nbits w : Nat) : State := placeTableWord nbits w s

end Sys2Proof.Machine
end

