-- ==== Sys2Proof/Machine/Assembler.lean ====
section
/-! DEFINITION. The assembler of 30_encoding.md section 7: one command per line (R127), exact decibel literals (R128),
the four pseudo-instructions (R129). A line it refuses gives no words. The lexical points R127 leaves open (blanks
around operands) are log 24. The schedule lines of 95_test_vectors.md are no commands and are not assembled. -/

namespace Sys2Proof.Machine

/-- Cut a line's operands at its commas. -/
def splitCommas : List Char → List (List Char)
  | [] => [[]]
  | c :: cs =>
    if c = ',' then [] :: splitCommas cs
    else
      match splitCommas cs with
      | [] => [[c]]
      | piece :: rest => (c :: piece) :: rest

/-- A text without the blanks at its ends. -/
def trimBlanks (l : List Char) : List Char :=
  ((l.dropWhile (· = ' ')).reverse.dropWhile (· = ' ')).reverse

/-- The value of a decimal digit. -/
def digitValue (c : Char) : Option Nat :=
  if '0'.toNat ≤ c.toNat ∧ c.toNat ≤ '9'.toNat then some (c.toNat - '0'.toNat) else none

/-- The value of a hexadecimal digit, in either case. -/
def hexValue (c : Char) : Option Nat :=
  if '0'.toNat ≤ c.toNat ∧ c.toNat ≤ '9'.toNat then some (c.toNat - '0'.toNat)
  else if 'A'.toNat ≤ c.toNat ∧ c.toNat ≤ 'F'.toNat then some (c.toNat - 'A'.toNat + 10)
  else if 'a'.toNat ≤ c.toNat ∧ c.toNat ≤ 'f'.toNat then some (c.toNat - 'a'.toNat + 10)
  else none

/-- The number a run of digits stands for in a base; no answer where a character is no digit. -/
def digitsValue (base : Nat) (value : Char → Option Nat) : Nat → List Char → Option Nat
  | n, [] => some n
  | n, c :: cs =>
    match value c with
    | some d => digitsValue base value (n * base + d) cs
    | none => none

/-- The sign of a literal and the text after it. -/
def takeSign : List Char → Int × List Char
  | '-' :: cs => (-1, cs)
  | '+' :: cs => (1, cs)
  | cs => (1, cs)

/-- A signed decimal number of decibels, as a `DbQ`: refused unless 256·x is an integer in [−32768, 32767] (R128). -/
def decimalDb (l : List Char) : Option DbQ :=
  let (sign, body) := takeSign l
  let whole := body.takeWhile (· ≠ '.')
  let tail := body.dropWhile (· ≠ '.')
  let fraction := tail.drop 1
  if whole = [] ∨ (tail ≠ [] ∧ fraction = []) then none
  else
    match digitsValue 10 digitValue 0 (whole ++ fraction) with
    | none => none
    | some n =>
      if 256 * n % 10 ^ fraction.length = 0 then
        let q : Int := sign * (256 * n / 10 ^ fraction.length : Nat)
        if -32768 ≤ q ∧ q ≤ 32767 then some (BitVec.ofInt 16 q) else none
      else none

/-- A `<db>` operand: a raw pattern `#0xHHHH`, or a decimal number of decibels (R128). -/
def dbOperand : List Char → Option DbQ
  | ['#', '0', 'x', a, b, c, d] => (digitsValue 16 hexValue 0 [a, b, c, d]).map (BitVec.ofNat 16)
  | l => decimalDb l

/-- A `<0|1>` operand. -/
def boolOperand : List Char → Option Bool
  | ['0'] => some false
  | ['1'] => some true
  | _ => none

/-- A `<bf>` or `<tf>` operand, decimal 0..3. -/
def indexOperand : List Char → Option (BitVec 2)
  | ['0'] => some 0
  | ['1'] => some 1
  | ['2'] => some 2
  | ['3'] => some 3
  | _ => none

/-- A `<ctl>` operand. -/
def ctlOperand (l : List Char) : Option Ctl :=
  if l = "BASS".toList then some .bass
  else if l = "TREBLE".toList then some .treble
  else if l = "BASS_FREQ".toList then some .bassFreq
  else if l = "TREBLE_FREQ".toList then some .trebleFreq
  else none

/-- The command of a mnemonic or pseudo-instruction with its operands (R127, R129). -/
def assembleCommand (mnemonic : List Char) (operands : List (List Char)) : Option Instr :=
  match operands with
  | [] =>
    if mnemonic = "INIT".toList then some .init
    else if mnemonic = "PDN".toList then some .pdn
    else if mnemonic = "PLAY".toList then some .play
    else if mnemonic = "STOP".toList then some .stop
    else if mnemonic = "GET_STATE".toList then some .getState
    else if mnemonic = "MUTE".toList then some (.setMute true)
    else if mnemonic = "UNMUTE".toList then some (.setMute false)
    else if mnemonic = "HP_MUTE".toList then some (.setHpMute true)
    else if mnemonic = "HP_UNMUTE".toList then some (.setHpMute false)
    else none
  | [a] =>
    if mnemonic = "SET_MVOL".toList then (dbOperand a).map .setMvol
    else if mnemonic = "SET_HPVOL".toList then (dbOperand a).map .setHpvol
    else if mnemonic = "SET_MUTE".toList then (boolOperand a).map .setMute
    else if mnemonic = "SET_HP_MUTE".toList then (boolOperand a).map .setHpMute
    else if mnemonic = "INC".toList then (ctlOperand a).map .inc
    else if mnemonic = "DEC".toList then (ctlOperand a).map .dec
    else if mnemonic = "FORMAT".toList then (ctlOperand a).map .format
    else none
  | [a, b, c, d] =>
    if mnemonic = "SET_TONE".toList then
      match dbOperand a, dbOperand b, indexOperand c, indexOperand d with
      | some bass, some treble, some bf, some tf => some (.setTone bass treble bf tf)
      | _, _, _, _ => none
    else none
  | _ => none

/-- The command of one line. -/
def assembleLine (line : String) : Option Instr :=
  let text := trimBlanks line.toList
  let operands := trimBlanks (text.dropWhile (· ≠ ' '))
  assembleCommand (text.takeWhile (· ≠ ' ')) (if operands = [] then [] else (splitCommas operands).map trimBlanks)

/-- The command words of one line (R127–R129). -/
def assemble (line : String) : Option (List Word) := (assembleLine line).map encode

end Sys2Proof.Machine
end

