-- ==== Sys2Proof/Safety.lean ====
section
/-! DEFINITION. What counts as a good state and a safe run, in the terms the statements use: the invariant of the
machine, the silence of a stopped stream, the deadline premise of the refill, what `FG` can see of the state, the
append-only order of the traces, and the effect of a command run alone, written once and whole from its rule. -/

namespace Sys2Proof.Machine

/-! ### The shape of an instruction -/

/-- How many atomic blocks an instruction's pseudocode has, a loop counted as one block; a handler's return is its last
(40_codec.md R160–R167, 43_playback.md R262–R282, 41_stream_buffer.md R202, R211–R213, 60_exceptions.md R307). -/
def blockCount : Instr → Nat
  | .init => 10
  | .pdn => 5
  | .setMvol _ => 2
  | .setHpvol _ => 2
  | .setMute _ => 3
  | .setHpMute _ => 1
  | .setTone _ _ _ _ => 3
  | .play => 5
  | .stop => 6
  | .getState => 1
  | .inc _ => 3
  | .dec _ => 3
  | .format _ => 1
  | .evtHt => 6
  | .evtTc => 6

/-- The block of a command that is a loop over `REGMAP.PCM_MUTE`. -/
def muteBlock : Instr → Option Nat
  | .pdn => some 1
  | .setMute _ => some 1
  | .play => some 3
  | .stop => some 1
  | _ => none

/-- How often the block at a position is performed: once, or once per iteration of its loop. -/
def iterations (p : Params) (i : Instr) (pos : Nat) : Nat :=
  if muteBlock i = some pos then p.regMap.pcmMute.length
  else if i = .stop ∧ pos = 4 then p.bufWords
  else 1

/-! ### The invariant -/

/-- The command sequencer is idle and empty, or in the middle of a decoded command (10_state.md R31). -/
def fgInv (s : State) : Prop :=
  if s.fg.busy then
    s.fg.acc.isSome = true ∧
    match s.fg.cmd with
    | some (.command i) =>
      i.wellFormedCommand s.params.hasLegacyHpMute = true ∧ s.fg.pos < blockCount i ∧
        s.acc.idx < iterations s.params i s.fg.pos
    | some (.illegal _) => s.fg.pos = 0
    | none => False
  else s.fg = ⟨false, none, 0, none⟩

/-- The half that the handler of an event refills (41_stream_buffer.md R211, R212). -/
def Event.half : Event → Half
  | .ht => .first
  | .tc => .second

/-- The handler is inactive at position 0, or in the middle of its event: past its first block the target is the
event's half, inside the refill the stream is STREAMING and the data are one half long (10_state.md R43, R213). -/
def irqInv (s : State) : Prop :=
  if s.irq.active then
    s.irq.pos ≤ 5 ∧
    (1 ≤ s.irq.pos → s.target = Event.half s.irq.evt) ∧
    (2 ≤ s.irq.pos → s.irq.pos ≤ 4 → s.stream = .streaming) ∧
    (3 ≤ s.irq.pos → s.irq.pos ≤ 4 → s.irq.data.length = s.params.halfBytes) ∧
    (s.irq.pos = 3 → s.irq.idx < s.params.halfWords)
  else s.irq.pos = 0

/-- What holds at reset and after every step. -/
structure State.Inv (s : State) : Prop where
  /-- The configuration is one the model accepts (00_scope.md R10). -/
  params : s.params.valid = true
  /-- R31. -/
  fg : fgInv s
  /-- R43. -/
  irq : irqInv s
  /-- The buffer is in canonical form and lies inside its address space (20_memory.md R80). -/
  bufWf : Memory.wf s.buf = true
  bufBelow : Memory.below s.params.bufBytes s.buf = true
  /-- `meter_avg` is in 0..32768 (10_state.md R36). -/
  meter : s.meter.avg.toNat ≤ 32768
  /-- `meter_cnt` is below `METER_PERIOD` (R37). -/
  meterCnt : s.meter.cnt.toNat < s.params.meterPeriod
  /-- The tone gains are in `TONE_MIN_STEPS .. TONE_MAX_STEPS` (R38). -/
  bassLo : s.params.toneMinSteps ≤ s.tone.bass
  bassHi : s.tone.bass ≤ s.params.toneMaxSteps
  trebleLo : s.params.toneMinSteps ≤ s.tone.treble
  trebleHi : s.tone.treble ≤ s.params.toneMaxSteps
  /-- The frequency indices are below `FREQ_COUNT` (R39). -/
  bf : s.tone.bf.toNat < s.params.freqCount
  tf : s.tone.tf.toNat < s.params.freqCount
  /-- `dma_pos` is in `0 .. BUF_WORDS−1` (R41). -/
  dmaPos : s.dma.pos < s.params.bufWords
  /-- The transfer runs exactly since the start guard was set (R33, R41). -/
  running : s.dma.running = s.started
  /-- An event is pending or handled only once the transfer can step (41_stream_buffer.md R220). -/
  events : s.irqEnabled = true → s.dmaEnabled = true

/-- An outcome of a step that is safe: a next state, and the invariant holds of it. -/
def SafeOutcome (o : Host.Outcome State Fault Refusal) : Prop := ∃ t, o = .next t ∧ t.Inv

/-! ### Silence (41_stream_buffer.md R216) -/

/-- `STOP` is between its `STOPPED` store and the end of its zero fill. -/
def State.stopFilling (s : State) : Bool :=
  s.fg.busy && decide (s.fg.cmd = some (.command .stop)) && decide (3 ≤ s.fg.pos) && decide (s.fg.pos ≤ 4)

/-- While the stream is STOPPED and no `STOP` is still filling, every byte of the buffer is 0; during the fill the words
already passed are 0; and past its store `STOP` has a stopped stream. -/
structure State.Silence (s : State) : Prop where
  zero : s.stream = .stopped → s.stopFilling = false → s.buf = []
  filled : s.stopFilling = true → s.fg.pos = 4 → ∀ a, a < 2 * s.acc.idx → Memory.read s.buf a = 0
  stopped : s.fg.busy = true → s.fg.cmd = some (.command .stop) → 3 ≤ s.fg.pos → s.stream = .stopped

/-! ### The refill deadline (70_reset_and_hazards.md R360, 20_memory.md R94) -/

/-- The half that `DMA` reads next. -/
def State.dmaHalf (s : State) : Half := if s.dma.pos < s.params.halfWords then .first else .second

/-- An event is pending or in hand. -/
def State.outstanding (s : State) (e : Event) : Bool :=
  (match e with
    | .ht => s.evt.ht
    | .tc => s.evt.tc)
  || (s.irq.active && decide (s.irq.evt = e))

/-- No refill is late: while an event is outstanding, `DMA` reads the half that the event does not refill. This is the
model's form of the timing premise (DESIGN CHOICE, log 31), stricter than the one that R360 counts out: there a refill is on
time when its last `MemWrite` precedes `DMA` step `HALF_WORDS + 1` after the notification; here `DMA` stays outside the
half until the handler has returned, so not even stands at its first word, which it reaches with step `HALF_WORDS`. -/
def State.Timely (s : State) : Prop :=
  ∀ e, s.outstanding e = true → s.dmaHalf ≠ Event.half e

/-- An address of a half (20_memory.md R81). -/
def inHalf (p : Params) (h : Half) (a : Nat) : Prop := halfBase p h ≤ a ∧ a < halfBase p h + p.halfBytes

/-! ### What `FG` can see (10_state.md R47) -/

/-- Two states agree on everything `FG` reads and on everything it answers with: its own state, the stream flag, the
start guard, the tone fields, the pins, `RESULT`, the port, the bus, and the traces `FG` alone extends. -/
structure SameForeground (s t : State) : Prop where
  params : s.params = t.params
  port : s.port = t.port
  fg : s.fg = t.fg
  stream : s.stream = t.stream
  started : s.started = t.started
  tone : s.tone = t.tone
  pins : s.pins = t.pins
  result : s.result = t.result
  busTrace : s.traces.bus = t.traces.bus
  pinTrace : s.traces.pin = t.traces.pin
  resultTrace : s.traces.result = t.traces.result
  bus : s.inputs.bus = t.inputs.bus

/-! ### Traces are append-only (00_scope.md R18) -/

/-- Every trace of `t` continues the same trace of `s`. -/
structure TracesGrow (s t : State) : Prop where
  bus : s.traces.bus <+: t.traces.bus
  src : s.traces.src <+: t.traces.src
  audio : s.traces.audio <+: t.traces.audio
  pin : s.traces.pin <+: t.traces.pin
  result : s.traces.result <+: t.traces.result
  meter : s.traces.meter <+: t.traces.meter

/-! ### The effect of a command's blocks, as state after state -/

/-- The command goes on at its block `k`. -/
def goOn (k : Nat) (s : State) : State := { s with fg := { s.fg with pos := k } }

/-- `fail <- false`, and on to block `k`. -/
def clearFail (k : Nat) (s : State) : State :=
  { s with fg := { s.fg with pos := k, acc := some ⟨false, s.acc.idx⟩ } }

/-- One control-bus write took place: its record, its result taken from the oracle, and the failure flag
(00_scope.md R15, 40_codec.md R169). -/
def wrote (reg val : Byte) (s : State) : State :=
  { s with
    traces := { s.traces with bus := s.traces.bus ++ [⟨s.params.codecAddr, reg, val, s.busAnswer⟩] }
    inputs := { s.inputs with bus := ⟨s.inputs.bus.given.tail, s.inputs.bus.drawn + 1⟩ }
    fg := { s.fg with acc := some ⟨s.acc.fail || decide (s.busAnswer ≠ .ok), s.acc.idx⟩ } }

/-- A command ended: `RESULT`, the sequence of results, an idle sequencer (10_state.md R31, R45). -/
def ended (status : Status) (value : BitVec 32) (text : Text) (s : State) : State :=
  { s with
    result := ⟨status, value, text⟩
    traces := { s.traces with result := s.traces.result ++ [⟨status, value, text⟩] }
    fg := ⟨false, none, 0, none⟩ }

/-- A command that used the bus ended: `(if fail then FAIL else OK, 0, "       ")`. -/
def endedBus (s : State) : State := ended (if s.acc.fail then .fail else .ok) 0 Text.spaces s

/-- After one iteration of a loop of `n` at block `k`: the loop index counts on, or the loop is left. -/
def looped (k n : Nat) (s : State) : State :=
  if s.acc.idx + 1 < n then { s with fg := { s.fg with pos := k, acc := some ⟨s.acc.fail, s.acc.idx + 1⟩ } }
  else { s with fg := { s.fg with pos := k + 1, acc := some ⟨s.acc.fail, 0⟩ } }

/-! ### A command run alone, from the block after its decode to its result -/

/-- `n` consecutive blocks of an instruction, with no other agent's step between them. -/
def runBlocks (i : Instr) : Nat → State → Host.Outcome State Fault Refusal
  | 0, s => .next s
  | n + 1, s =>
    match exec i s with
    | .next t => runBlocks i n t
    | .fault f => .fault f
    | .refused r => .refused r

/-- `FG` has just taken the command `i` (10_state.md R31). -/
def began (i : Instr) (s : State) : State := { s with fg := ⟨true, some (.command i), 0, some ⟨false, 0⟩⟩ }

/-- The tone state that a command leaves (40_codec.md R166, 43_playback.md R271, R272). -/
def toneAfter (p : Params) (i : Instr) (t : Tone) : Tone :=
  match i with
  | .setTone bass treble bf tf => ⟨toneSteps p bass, toneSteps p treble, freqIdx p bf, freqIdx p tf⟩
  | .inc ctl => toneInc p ctl t
  | .dec ctl => toneDec p ctl t
  | _ => t

/-- The control-bus writes of a command, in order (R160–R167, R262, R263), `t` being the tone state it leaves. -/
def commandWrites (p : Params) (t : Tone) (i : Instr) : List (Byte × Byte) :=
  match i with
  | .init => [(p.regMap.pwrCtl, p.vals.pwrOutputsOff), (p.regMap.routing, p.vals.routingVal),
      (p.regMap.clocking, p.vals.clockingVal), (p.regMap.iface, p.vals.ifaceVal), (p.regMap.pwrCtl, p.vals.pwrOn)]
  | .pdn => p.regMap.pcmMute.map (·, p.vals.pcmMuteOn)
      ++ [(p.regMap.miscCtl, p.vals.miscRampOff), (p.regMap.pwrCtl, p.vals.pwrDown)]
  | .setMvol db => [(p.regMap.mvolA, volCode db p.mvolMin p.mvolMax), (p.regMap.mvolB, volCode db p.mvolMin p.mvolMax)]
  | .setHpvol db =>
    [(p.regMap.hpvolA, volCode db p.hpvolMin p.hpvolMax), (p.regMap.hpvolB, volCode db p.hpvolMin p.hpvolMax)]
  | .setMute on => p.regMap.pcmMute.map (·, if on then p.vals.pcmMuteOn else p.vals.pcmMuteOff)
  | .setHpMute on => [(p.regMap.playbackCtl, if on then p.vals.hpMuteOn else p.vals.hpMuteOff)]
  | .setTone _ _ _ _ => [(p.regMap.toneGain, toneGainByte p t), (p.regMap.toneCfg, toneCfgByte p t)]
  | .play => p.regMap.pcmMute.map (·, p.vals.pcmMuteOff)
  | .stop => p.regMap.pcmMute.map (·, p.vals.pcmMuteOn)
  | .getState => []
  | .inc _ => [(p.regMap.toneGain, toneGainByte p t), (p.regMap.toneCfg, toneCfgByte p t)]
  | .dec _ => [(p.regMap.toneGain, toneGainByte p t), (p.regMap.toneCfg, toneCfgByte p t)]
  | .format _ => []
  | .evtHt => []
  | .evtTc => []

/-- The results of the next `n` bus transactions. -/
def nextAnswers (f : Feed BusResult) (n : Nat) : List BusResult :=
  (List.range n).map fun k => f.given.getD k (Config.busAnswer (f.drawn + k))

/-- The bus records of a list of writes, each with its result. -/
def busRecords (s : State) (ws : List (Byte × Byte)) : List BusRecord :=
  List.zipWith (fun w r => ⟨s.params.codecAddr, w.1, w.2, r⟩) ws (nextAnswers s.inputs.bus ws.length)

/-- The status of a command with these writes: FAIL if any result is not OK (60_exceptions.md R302). -/
def writesStatus (s : State) (ws : List (Byte × Byte)) : Status :=
  if (nextAnswers s.inputs.bus ws.length).all (fun r => decide (r = .ok)) then .ok else .fail

/-- What a command does to the stream, the transfer, the meter, the buffer and the pins, besides the bus, the tone state
and `RESULT` (40_codec.md R160, 43_playback.md R262, R263, 41_stream_buffer.md R201, R202). -/
def ownEffect (i : Instr) (s : State) : State :=
  match i with
  | .init =>
    { s with
      pins := ⟨.released, true⟩
      traces := { s.traces with pin := s.traces.pin
        ++ (if s.pins.codecRst = .asserted then [] else [.codecRst .asserted]) ++ [.codecRst .released]
        ++ (if s.pins.sclkEn then [] else [.sclkEn true]) } }
  | .play =>
    if s.started then { s with stream := .streaming }
    else { s with stream := .streaming, started := true, dma := ⟨true, 0⟩, evt := ⟨false, false⟩ }
  | .stop =>
    { s with
      stream := .stopped
      meter := ⟨0, 0, false⟩
      buf := []
      traces := { s.traces with meter := s.traces.meter ++ [false] } }
  | _ => s

/-- `RESULT.value` of a command (10_state.md R45). -/
def resultValue (i : Instr) (s : State) : BitVec 32 :=
  match i with
  | .getState => s.stream.code
  | _ => 0

/-- `RESULT.text` of a command (R45). -/
def resultText (i : Instr) (s : State) : Text :=
  match i with
  | .format ctl => formatText s.params ctl s.tone
  | _ => Text.spaces

/-- The whole effect of a command run alone: its writes on the bus in order, its own effect, the tone state, `RESULT`,
and an idle sequencer. Nothing else changes. -/
def wholeEffect (i : Instr) (s : State) : State :=
  let tone := toneAfter s.params i s.tone
  let ws := commandWrites s.params tone i
  let res : Result := ⟨writesStatus s ws, resultValue i s, resultText i s⟩
  let u := ownEffect i s
  { u with
    tone := tone
    result := res
    traces := { u.traces with bus := s.traces.bus ++ busRecords s ws, result := s.traces.result ++ [res] }
    inputs := { s.inputs with bus := ⟨s.inputs.bus.given.drop ws.length, s.inputs.bus.drawn + ws.length⟩ }
    fg := ⟨false, none, 0, none⟩ }

/-- How many blocks a handler performs: target, guard and return while STOPPED; while STREAMING also the source read, one
block a word, and the meter (41_stream_buffer.md R211–R213, 60_exceptions.md R307). -/
def handlerBlocks (s : State) : Nat :=
  match s.stream with
  | .stopped => 3
  | .streaming => 5 + s.params.halfWords

/-- How many blocks a command performs: each of its blocks as often as its loop says. -/
def blocksPerformed (p : Params) (i : Instr) : Nat :=
  ((List.range (blockCount i)).map (iterations p i)).sum

/-- `n` consecutive steps of the transfer engine, with no other agent's step between them. -/
def runDma : Nat → State → Host.Outcome State Fault Refusal
  | 0, s => .next s
  | n + 1, s =>
    match dmaStep s with
    | .next t => runDma n t
    | .fault f => .fault f
    | .refused r => .refused r

/-! ### Tables and runs the statements speak of -/

/-- The match and mask of word 0 of each opcode of R119. -/
def commandRows : List (Word × Word) :=
  [(0x10000000, 0xFFFFFFFF), (0x20000000, 0xFFFFFFFF), (0x30000000, 0xFFFF0000), (0x40000000, 0xFFFF0000),
   (0x50000000, 0xFFFFFFFE), (0x60000000, 0xFFFFFFFE), (0x70000000, 0xFFF00000), (0x80000000, 0xFFFFFFFF),
   (0x90000000, 0xFFFFFFFF), (0xA0000000, 0xFFFFFFFF), (0xB0000000, 0xFFFFFFFC), (0xC0000000, 0xFFFFFFFC),
   (0xD0000000, 0xFFFFFFFC)]

/-- The number that decimal digits stand for, most significant first. -/
def decimalValue (ds : List (Fin 10)) : Nat := ds.foldl (fun n d => 10 * n + d.val) 0

/-- The sixteen hexadecimal digits. -/
def hexDigits : List Char := ['0', '1', '2', '3', '4', '5', '6', '7', '8', '9', 'A', 'B', 'C', 'D', 'E', 'F']

/-- The meter after each of a sequence of updates with the peaks `ms`, from the meter `t`. -/
def meterRun (p : Params) : List Nat → Meter → List Meter
  | [], _ => []
  | m :: ms, t => meterUpdate p m t :: meterRun p ms (meterUpdate p m t)

end Sys2Proof.Machine
end

