-- ==== Sys2Proof/Certificates/Slice0/Obligations.lean ====
section
/-! DEFINITION. The statements for the provers. Each docstring names the rule it formalises. `exec i s` is the atomic
block of i at `S.fg_pos` (for an event, at `S.irq_pos`); every equation below gives the whole next state, so it is also
the frame: what it does not name is unchanged. Where a next state contains an oracle's answer (`s.busAnswer`,
`s.sourceAnswer`), the equation holds for every answer. -/

open Sys2Proof Sys2Proof.Machine

/-! ### Encoding (30_encoding.md) -/

/-- R110–R120: the words of every well-formed command decode to that command and leave the words behind them. -/
def Obligations.EncodedCommandDecodesToItself : Prop :=
  ∀ (legacy : Bool) (i : Instr) (rest : List Word), i.wellFormedCommand legacy = true →
    takeCommandWords legacy (encode i ++ rest) = some (.command i, rest)

/-- R120, R124: words that decode to a command are exactly that command's words, so no bit of them is ignored; and what
decodes is a well-formed command. -/
def Obligations.DecodedWordsAreTheEncoding : Prop :=
  ∀ (legacy : Bool) (words : List Word) (i : Instr) (rest : List Word),
    takeCommandWords legacy words = some (.command i, rest) →
    words = encode i ++ rest ∧ i.wellFormedCommand legacy = true

/-- R119, R122: with `HAS_LEGACY_HP_MUTE` true, a command decodes if and only if its word 0 satisfies the match and mask
of some row of the opcode map and, for `SET_TONE`, word 1 satisfies its own; no word satisfies two rows. -/
def Obligations.DecodingFollowsTheOpcodeMap : Prop :=
  (∀ w0 w1 : Word,
    (∃ i, decodeCommand true w0 w1 = .command i) ↔
      (∃ r ∈ commandRows, w0 &&& r.2 = r.1 ∧ (r.1 = 0x70000000 → w1 &&& 0xFFFF0000 = 0))) ∧
  commandRows.Pairwise (fun r q => ∀ w : Word, w &&& r.2 = r.1 → w &&& q.2 ≠ q.1)

/-- Words of 95_test_vectors.md V1, written out, decode to the commands the table there gives. -/
def Obligations.WrittenOutWordsDecode : Prop :=
  takeCommandWords true [0x10000000] = some (.command .init, []) ∧
  takeCommandWords true [0x3000F580] = some (.command (.setMvol (BitVec.ofInt 16 (-2688))), []) ∧
  takeCommandWords true [0x50000001] = some (.command (.setMute true), []) ∧
  takeCommandWords true [0x70090900, 0x0000F580]
    = some (.command (.setTone (BitVec.ofInt 16 2304) (BitVec.ofInt 16 (-2688)) 1 2), []) ∧
  takeCommandWords true [0xB0000003] = some (.command (.inc .trebleFreq), []) ∧
  takeCommandWords true [0x70100000, 0x00000000] = some (.illegal .reservedBits, []) ∧
  takeCommandWords true [0x30010000] = some (.illegal .reservedBits, []) ∧
  takeCommandWords true [0xE0000000] = some (.illegal .reservedOpcode, [])

/-- R121: opcodes 0x0, 0xE and 0xF decode to ILLEGAL, whatever the other bits. -/
def Obligations.ReservedOpcodesAreIllegal : Prop :=
  ∀ (legacy : Bool) (w0 w1 : Word), opcode w0 = 0x0 ∨ opcode w0 = 0xE ∨ opcode w0 = 0xF →
    decodeCommand legacy w0 w1 = .illegal .reservedOpcode

/-- R111: the opcode alone fixes how many words are consumed, legal or not: two for 0x7, else one; a command that is not
whole is not taken. -/
def Obligations.OpcodeFixesTheLength : Prop :=
  ∀ (legacy : Bool) (w0 : Word) (rest : List Word),
    (opcode w0 ≠ 0x7 → ∃ d, takeCommandWords legacy (w0 :: rest) = some (d, rest)) ∧
    (opcode w0 = 0x7 → ∀ w1, ∃ d, takeCommandWords legacy (w0 :: w1 :: rest) = some (d, rest)) ∧
    (opcode w0 = 0x7 → takeCommandWords legacy [w0] = none)

/-- R123: without `HAS_LEGACY_HP_MUTE` every word with opcode 0x6 decodes to ILLEGAL. -/
def Obligations.LegacyMuteNeedsItsParameter : Prop :=
  ∀ w0 w1 : Word, opcode w0 = 0x6 → ∃ why, decodeCommand false w0 w1 = .illegal why

/-- R126: `EVT_STATUS` bit 0 selects `EVT_HT`, bit 1 selects `EVT_TC`, both bits select both, none selects none. -/
def Obligations.EventStatusSelectsEvents : Prop :=
  ∀ v : EvtStatus,
    (Event.ht ∈ selectedEvents (evtStatusBits v) ↔ v.ht = true) ∧
    (Event.tc ∈ selectedEvents (evtStatusBits v) ↔ v.tc = true)

/-- R128, R129: a raw literal's four hex digits are placed in the field unchanged. A decimal literal (a sign or none, any
number of digits, a point with any number of further digits or none) that stands for x dB is the `DbQ` 256·x, and refused
unless that is an integer in [−32768, 32767]; below, `q` is 256·x·10^k for k digits after the point. The four
pseudo-instructions expand to one command each. -/
def Obligations.AssemblerIsExact : Prop :=
  (∀ a b c d : Fin 16,
    dbOperand (['#', '0', 'x'] ++ [a, b, c, d].map (fun k => hexDigits.getD k.val '0'))
      = some (BitVec.ofNat 16 (((a.val * 16 + b.val) * 16 + c.val) * 16 + d.val))) ∧
  (∀ (sign : List Char) (whole fraction : List (Fin 10)), sign ∈ [[], ['+'], ['-']] → whole ≠ [] →
    let digits (l : List (Fin 10)) : List Char := l.map (fun k => hexDigits.getD k.val '0')
    let q : Int := (if sign = ['-'] then -256 else 256) * decimalValue (whole ++ fraction)
    let scale : Int := 10 ^ fraction.length
    dbOperand (sign ++ digits whole ++ (if fraction = [] then [] else '.' :: digits fraction))
      = (if q % scale = 0 ∧ -32768 ≤ q / scale ∧ q / scale ≤ 32767 then some (BitVec.ofInt 16 (q / scale))
         else none)) ∧
  assemble "MUTE" = some [0x50000001] ∧ assemble "UNMUTE" = some [0x50000000] ∧
  assemble "HP_MUTE" = some [0x60000001] ∧ assemble "HP_UNMUTE" = some [0x60000000]

/-! ### Reset, taking a command, running it -/

/-- R350: the reset values the spec gives, with an empty port and empty traces. -/
def Obligations.ResetLeavesTheGivenValues : Prop :=
  let s := State.reset
  s.fg = ⟨false, none, 0, none⟩ ∧ s.stream = .stopped ∧ s.started = false ∧ s.target = .first ∧
  (∀ a, Memory.read s.buf a = 0) ∧ s.meter = ⟨0, 0, false⟩ ∧ s.tone = ⟨0, 0, 0, 0⟩ ∧ s.dma = ⟨false, 0⟩ ∧
  evtStatusWord s.evt = 0 ∧ s.irq.active = false ∧ s.irq.pos = 0 ∧ s.pins = ⟨.asserted, false⟩ ∧
  s.result = ⟨.ok, 0, #v[0x20, 0x20, 0x20, 0x20, 0x20, 0x20, 0x20]⟩ ∧ s.port = [] ∧
  s.traces = ⟨[], [], [], [], [], []⟩

/-- The invariant, the silence of a stopped stream and the deadline premise hold at reset. -/
def Obligations.ResetMeetsTheInvariants : Prop :=
  State.reset.Inv ∧ State.reset.Silence ∧ State.reset.Timely

/-- R351: right after reset `FG` is idle, no event is pending, `IRQ` is inactive and the transfer is not running; `FG`
alone can have a step, and has one exactly when a whole command waits at the port. -/
def Obligations.ResetOnlyWaitsForACommand : Prop :=
  ∀ ws : List Word,
    let s := State.issue ws State.reset
    s.fg.busy = false ∧ s.pending = false ∧ s.irq.active = false ∧ s.dma.running = false ∧
    s.dmaEnabled = false ∧ s.irqEnabled = false ∧
    (s.fgEnabled = true ↔ ∃ d rest, takeCommandWords s.params.hasLegacyHpMute ws = some (d, rest))

/-- R31: when neither `IRQ` nor a command in progress holds `FG`, the context's step takes the first whole command from
the port: its words leave the port, `fg_busy` is true, `fg_pos` is 0, the accumulators are fresh, the command is decoded.
It is the step of the machine where the transfer has none. -/
def Obligations.IdleForegroundTakesACommand : Prop :=
  ∀ (s : State) (d : Decoded) (rest : List Word),
    s.irqEnabled = false → s.fg.busy = false →
    takeCommandWords s.params.hasLegacyHpMute s.port = some (d, rest) →
    contextStep s = .next { s with port := rest, fg := ⟨true, some d, 0, some ⟨false, 0⟩⟩ } ∧
    (s.params.valid = true → s.dmaEnabled = false →
      step s = .next { s with port := rest, fg := ⟨true, some d, 0, some ⟨false, 0⟩⟩ })

/-- R31, R305, R306: a step of the context runs the decoded command in progress, or the handler of the event in hand;
where the transfer also has a step, after the turn is drawn and given to the context. -/
def Obligations.StepRunsTheDecodedInstruction : Prop :=
  (∀ (s : State) (i : Instr), s.params.valid = true → s.irqEnabled = false → s.fg.busy = true →
    s.fg.cmd = some (.command i) → i.isCommand = true →
    (s.dmaEnabled = false → step s = exec i s) ∧
    (s.dmaEnabled = true → (drawTurn s).1 = .context → step s = exec i (drawTurn s).2)) ∧
  (∀ (s : State), s.params.valid = true → s.irq.active = true →
    (s.dmaEnabled = false → step s = exec s.irq.evt.handler s) ∧
    (s.dmaEnabled = true → (drawTurn s).1 = .context → step s = exec s.irq.evt.handler (drawTurn s).2))

/-- R305: whichever of the transfer and the enabled context the schedule names takes the step; with neither enabled the
machine waits unchanged (the waiting step is the model's choice, log 9). -/
def Obligations.AnyEnabledAgentMayStep : Prop :=
  ∀ s : State, s.params.valid = true →
    (s.dmaEnabled = true → (s.irqEnabled || s.fgEnabled) = false → step s = dmaStep s) ∧
    (s.dmaEnabled = true → (s.irqEnabled || s.fgEnabled) = true →
      (∀ rest, s.inputs.turn.given = .dma :: rest →
        step s = dmaStep { s with inputs := { s.inputs with turn := ⟨rest, s.inputs.turn.drawn + 1⟩ } }) ∧
      (∀ rest, s.inputs.turn.given = .context :: rest →
        step s = contextStep { s with inputs := { s.inputs with turn := ⟨rest, s.inputs.turn.drawn + 1⟩ } })) ∧
    (s.dmaEnabled = false → (s.irqEnabled || s.fgEnabled) = true → step s = contextStep s) ∧
    (s.dmaEnabled = false → (s.irqEnabled || s.fgEnabled) = false → step s = .next s)

/-- R301: the one block of an ILLEGAL command writes `RESULT = (ILLEGAL, 0, spaces)`, ends the command, and writes no
other state; no bus transaction. -/
def Obligations.IllegalCommandOnlyReports : Prop :=
  ∀ (s : State) (why : IllegalReason),
    s.irqEnabled = false → s.fg.busy = true → s.fg.cmd = some (.illegal why) →
    contextStep s = .next { s with
      result := ⟨.illegal, 0, Text.spaces⟩
      traces := { s.traces with result := s.traces.result ++ [⟨.illegal, 0, Text.spaces⟩] }
      fg := ⟨false, none, 0, none⟩ }

/-- R10, U15: a configuration that breaks a constraint of R10 is refused. -/
def Obligations.BadConfigurationIsRefused : Prop :=
  ∀ s : State,
    s.params.halfBytes = 0 ∨ s.params.halfBytes % 4 ≠ 0 ∨ s.params.mvolMax < s.params.mvolMin ∨
    s.params.hpvolMax < s.params.hpvolMin ∨ s.params.meterK = 0 ∨
    (∃ v ∈ [s.params.mvolMin, s.params.mvolMax, s.params.hpvolMin, s.params.hpvolMax], v < -32768 ∨ 32767 < v) →
    step s = .refused .badConfiguration

/-! ### The commands, block by block -/

/-- R160: `INIT`. -/
def Obligations.InitPowersTheCodecUp : Prop :=
  (∀ legacy, takeCommandWords legacy [0x10000000] = some (.command .init, [])) ∧
  ∀ s : State,
    (s.fg.pos = 0 → exec .init s = .next (clearFail 1 { s with
      pins := { s.pins with codecRst := .asserted }
      traces := { s.traces with pin := if s.pins.codecRst = .asserted then s.traces.pin
                                       else s.traces.pin ++ [.codecRst .asserted] } })) ∧
    (s.fg.pos = 1 → exec .init s = .next (goOn 2 s)) ∧
    (s.fg.pos = 2 → exec .init s = .next (goOn 3 { s with
      pins := { s.pins with codecRst := .released }
      traces := { s.traces with pin := if s.pins.codecRst = .released then s.traces.pin
                                       else s.traces.pin ++ [.codecRst .released] } })) ∧
    (s.fg.pos = 3 → exec .init s = .next (goOn 4 { s with
      pins := { s.pins with sclkEn := true }
      traces := { s.traces with pin := if s.pins.sclkEn = true then s.traces.pin
                                       else s.traces.pin ++ [.sclkEn true] } })) ∧
    (s.fg.pos = 4 → exec .init s = .next (goOn 5 s)) ∧
    (s.fg.pos = 5 → exec .init s = .next (goOn 6 (wrote s.params.regMap.pwrCtl s.params.vals.pwrOutputsOff s))) ∧
    (s.fg.pos = 6 → exec .init s = .next (goOn 7 (wrote s.params.regMap.routing s.params.vals.routingVal s))) ∧
    (s.fg.pos = 7 → exec .init s = .next (goOn 8 (wrote s.params.regMap.clocking s.params.vals.clockingVal s))) ∧
    (s.fg.pos = 8 → exec .init s = .next (goOn 9 (wrote s.params.regMap.iface s.params.vals.ifaceVal s))) ∧
    (s.fg.pos = 9 → exec .init s = .next (endedBus (wrote s.params.regMap.pwrCtl s.params.vals.pwrOn s)))

/-- R161: `PDN`. -/
def Obligations.PdnPowersTheCodecDown : Prop :=
  (∀ legacy, takeCommandWords legacy [0x20000000] = some (.command .pdn, [])) ∧
  ∀ s : State,
    (s.fg.pos = 0 → exec .pdn s = .next (clearFail 1 s)) ∧
    (s.fg.pos = 1 → ∀ reg, s.params.regMap.pcmMute[s.acc.idx]? = some reg →
      exec .pdn s = .next (looped 1 s.params.regMap.pcmMute.length (wrote reg s.params.vals.pcmMuteOn s))) ∧
    (s.fg.pos = 2 → exec .pdn s = .next (goOn 3 (wrote s.params.regMap.miscCtl s.params.vals.miscRampOff s))) ∧
    (s.fg.pos = 3 → exec .pdn s = .next (goOn 4 (wrote s.params.regMap.pwrCtl s.params.vals.pwrDown s))) ∧
    (s.fg.pos = 4 → exec .pdn s = .next (endedBus s))

/-- R162: `SET_MVOL db`: the word, the byte of R157 on both channels, left first, the second write whatever the first
answered. -/
def Obligations.SetMvolWritesBothChannels : Prop :=
  ∀ (db : DbQ) (s : State),
    (∀ legacy, takeCommandWords legacy [0x3#4 ++ 0#12 ++ db] = some (.command (.setMvol db), [])) ∧
    (let c := volCode db s.params.mvolMin s.params.mvolMax
     (s.fg.pos = 0 → exec (.setMvol db) s = .next (goOn 1 (wrote s.params.regMap.mvolA c s))) ∧
     (s.fg.pos = 1 → exec (.setMvol db) s = .next (endedBus (wrote s.params.regMap.mvolB c s))))

/-- R163: `SET_HPVOL db`. -/
def Obligations.SetHpvolWritesBothChannels : Prop :=
  ∀ (db : DbQ) (s : State),
    (∀ legacy, takeCommandWords legacy [0x4#4 ++ 0#12 ++ db] = some (.command (.setHpvol db), [])) ∧
    (let c := volCode db s.params.hpvolMin s.params.hpvolMax
     (s.fg.pos = 0 → exec (.setHpvol db) s = .next (goOn 1 (wrote s.params.regMap.hpvolA c s))) ∧
     (s.fg.pos = 1 → exec (.setHpvol db) s = .next (endedBus (wrote s.params.regMap.hpvolB c s))))

/-- R164: `SET_MUTE on`: every register of `REGMAP.PCM_MUTE` in list order, then the result. -/
def Obligations.SetMuteWritesEveryPcmRegister : Prop :=
  (∀ legacy, takeCommandWords legacy [0x50000001] = some (.command (.setMute true), [])) ∧
  (∀ legacy, takeCommandWords legacy [0x50000000] = some (.command (.setMute false), [])) ∧
  ∀ (on : Bool) (s : State),
    let v := if on = true then s.params.vals.pcmMuteOn else s.params.vals.pcmMuteOff
    (s.fg.pos = 0 → exec (.setMute on) s = .next (clearFail 1 s)) ∧
    (s.fg.pos = 1 → ∀ reg, s.params.regMap.pcmMute[s.acc.idx]? = some reg →
      exec (.setMute on) s = .next (looped 1 s.params.regMap.pcmMute.length (wrote reg v s))) ∧
    (s.fg.pos = 2 → exec (.setMute on) s = .next (endedBus s))

/-- R165: `SET_HP_MUTE on`: one write; ILLEGAL without `HAS_LEGACY_HP_MUTE`. -/
def Obligations.SetHpMuteWritesTheLegacyRegister : Prop :=
  takeCommandWords true [0x60000001] = some (.command (.setHpMute true), []) ∧
  takeCommandWords true [0x60000000] = some (.command (.setHpMute false), []) ∧
  (∀ on, ∃ why, takeCommandWords false [0x60000000 ||| (BitVec.ofBool on).setWidth 32] = some (.illegal why, [])) ∧
  ∀ (on : Bool) (s : State), s.fg.pos = 0 →
    (s.params.hasLegacyHpMute = true → exec (.setHpMute on) s = .next (endedBus
      (wrote s.params.regMap.playbackCtl
        (if on = true then s.params.vals.hpMuteOn else s.params.vals.hpMuteOff) s))) ∧
    (s.params.hasLegacyHpMute = false →
      exec (.setHpMute on) s = .next (ended .illegal 0 Text.spaces s))

/-- R166, R167: `SET_TONE`: the four tone fields, before the bus and whatever it answers; then the gain register, then
the configuration register with the result. -/
def Obligations.SetToneUpdatesThenWrites : Prop :=
  ∀ (bass treble : DbQ) (bf tf : BitVec 2) (s : State),
    (∀ legacy, takeCommandWords legacy
        [0x7#4 ++ 0#8 ++ tf ++ bf ++ bass, 0#16 ++ treble]
      = some (.command (.setTone bass treble bf tf), [])) ∧
    (s.fg.pos = 0 → exec (.setTone bass treble bf tf) s = .next (goOn 1 { s with
      tone := ⟨toneSteps s.params bass, toneSteps s.params treble, freqIdx s.params bf, freqIdx s.params tf⟩ })) ∧
    (s.fg.pos = 1 → exec (.setTone bass treble bf tf) s = .next (goOn 2
      (wrote s.params.regMap.toneGain (toneGainByte s.params s.tone) s))) ∧
    (s.fg.pos = 2 → exec (.setTone bass treble bf tf) s = .next (endedBus
      (wrote s.params.regMap.toneCfg (toneCfgByte s.params s.tone) s)))

/-- R262, R201: `PLAY`: STREAMING, then the guarded start in one block, then the canonical unmute and its status. -/
def Obligations.PlayStreamsStartsAndUnmutes : Prop :=
  (∀ legacy, takeCommandWords legacy [0x80000000] = some (.command .play, [])) ∧
  ∀ s : State,
    (s.fg.pos = 0 → exec .play s = .next (goOn 1 { s with stream := .streaming })) ∧
    (s.fg.pos = 1 → s.started = false → exec .play s = .next (goOn 2 { s with
      started := true, dma := ⟨true, 0⟩, evt := ⟨false, false⟩ })) ∧
    (s.fg.pos = 1 → s.started = true → exec .play s = .next (goOn 2 s)) ∧
    (s.fg.pos = 2 → exec .play s = .next (clearFail 3 s)) ∧
    (s.fg.pos = 3 → ∀ reg, s.params.regMap.pcmMute[s.acc.idx]? = some reg →
      exec .play s = .next (looped 3 s.params.regMap.pcmMute.length (wrote reg s.params.vals.pcmMuteOff s))) ∧
    (s.fg.pos = 4 → exec .play s = .next (endedBus s))

/-- R263, R202, R243: `STOP`: the canonical mute, then STOPPED, then the meter's reset, then one zero word a block over
the whole buffer, every other byte untouched, then the mute's status. -/
def Obligations.StopMutesStopsAndZeroFills : Prop :=
  (∀ legacy, takeCommandWords legacy [0x90000000] = some (.command .stop, [])) ∧
  ∀ s : State,
    (s.fg.pos = 0 → exec .stop s = .next (clearFail 1 s)) ∧
    (s.fg.pos = 1 → ∀ reg, s.params.regMap.pcmMute[s.acc.idx]? = some reg →
      exec .stop s = .next (looped 1 s.params.regMap.pcmMute.length (wrote reg s.params.vals.pcmMuteOn s))) ∧
    (s.fg.pos = 2 → exec .stop s = .next (goOn 3 { s with stream := .stopped })) ∧
    (s.fg.pos = 3 → exec .stop s = .next (goOn 4 { s with
      meter := ⟨0, 0, false⟩, traces := { s.traces with meter := s.traces.meter ++ [false] } })) ∧
    (s.fg.pos = 4 → s.acc.idx < s.params.bufWords → Memory.wf s.buf = true →
      ∃ m : Memory, exec .stop s = .next (looped 4 s.params.bufWords { s with buf := m }) ∧ Memory.wf m = true ∧
        Memory.read m (2 * s.acc.idx) = 0 ∧ Memory.read m (2 * s.acc.idx + 1) = 0 ∧
        ∀ a, a ≠ 2 * s.acc.idx → a ≠ 2 * s.acc.idx + 1 → Memory.read m a = Memory.read s.buf a) ∧
    (s.fg.pos = 5 → exec .stop s = .next (endedBus s))

/-- R264: `GET_STATE` is one block: (OK, the stream state as 0 or 1, spaces), and nothing else. -/
def Obligations.GetStateReadsTheStreamState : Prop :=
  (∀ legacy, takeCommandWords legacy [0xA0000000] = some (.command .getState, [])) ∧
  ∀ s : State, s.fg.pos = 0 →
    exec .getState s = .next (ended .ok (if s.stream = .streaming then 1 else 0) Text.spaces s)

/-- R271: `INC ctl`: one tone field steps up, saturating; then both tone registers are written. -/
def Obligations.IncStepsUpAndWrites : Prop :=
  ∀ (ctl : Ctl) (s : State),
    (∀ legacy, takeCommandWords legacy [0xB0000000 ||| ctl.bits.setWidth 32] = some (.command (.inc ctl), [])) ∧
    (s.fg.pos = 0 → exec (.inc ctl) s = .next (goOn 1 { s with tone := match ctl with
      | .bass => { s.tone with bass := min (s.tone.bass + 1) s.params.toneMaxSteps }
      | .treble => { s.tone with treble := min (s.tone.treble + 1) s.params.toneMaxSteps }
      | .bassFreq => { s.tone with bf := BitVec.ofNat 2 (min (s.tone.bf.toNat + 1) (s.params.freqCount - 1)) }
      | .trebleFreq => { s.tone with tf := BitVec.ofNat 2 (min (s.tone.tf.toNat + 1) (s.params.freqCount - 1)) } })) ∧
    (s.fg.pos = 1 → exec (.inc ctl) s = .next (goOn 2
      (wrote s.params.regMap.toneGain (toneGainByte s.params s.tone) s))) ∧
    (s.fg.pos = 2 → exec (.inc ctl) s = .next (endedBus
      (wrote s.params.regMap.toneCfg (toneCfgByte s.params s.tone) s)))

/-- R272: `DEC ctl`: one tone field steps down, saturating; then both tone registers are written. -/
def Obligations.DecStepsDownAndWrites : Prop :=
  ∀ (ctl : Ctl) (s : State),
    (∀ legacy, takeCommandWords legacy [0xC0000000 ||| ctl.bits.setWidth 32] = some (.command (.dec ctl), [])) ∧
    (s.fg.pos = 0 → exec (.dec ctl) s = .next (goOn 1 { s with tone := match ctl with
      | .bass => { s.tone with bass := max (s.tone.bass - 1) s.params.toneMinSteps }
      | .treble => { s.tone with treble := max (s.tone.treble - 1) s.params.toneMinSteps }
      | .bassFreq => { s.tone with bf := BitVec.ofInt 2 (max ((s.tone.bf.toNat : Int) - 1) 0) }
      | .trebleFreq => { s.tone with tf := BitVec.ofInt 2 (max ((s.tone.tf.toNat : Int) - 1) 0) } })) ∧
    (s.fg.pos = 1 → exec (.dec ctl) s = .next (goOn 2
      (wrote s.params.regMap.toneGain (toneGainByte s.params s.tone) s))) ∧
    (s.fg.pos = 2 → exec (.dec ctl) s = .next (endedBus
      (wrote s.params.regMap.toneCfg (toneCfgByte s.params s.tone) s)))

/-- R282: `FORMAT ctl` is one block: (OK, 0, the text of the control's field), no bus traffic, nothing else; a text of
seven characters is put into `RESULT.text` as it stands (R280 and R281 give no other: `GainTextIsSevenCharacters`,
`FrequencyTextIsItsLabel`). -/
def Obligations.FormatReturnsTheText : Prop :=
  ∀ (ctl : Ctl) (s : State),
    (∀ legacy, takeCommandWords legacy [0xD0000000 ||| ctl.bits.setWidth 32] = some (.command (.format ctl), [])) ∧
    (s.fg.pos = 0 → exec (.format ctl) s = .next (ended .ok 0 (match ctl with
      | .bass => textOf (fmtGain s.tone.bass)
      | .treble => textOf (fmtGain s.tone.treble)
      | .bassFreq => textOf (fmtFreq s.params.labelsBass s.tone.bf)
      | .trebleFreq => textOf (fmtFreq s.params.labelsTreble s.tone.tf)) s)) ∧
    (∀ text : List Byte, text.length = 7 → (textOf text).toList = text)

/-! ### The events -/

/-- R211, R212, R213, R214, R241, R307: `EVT_HT` (`Event.ht.handler`) and `EVT_TC` (`Event.tc.handler`), block by block:
the target by the event's kind; a stopped stream goes to the return; one source read of `HALF_BYTES`
bytes; one word a block into the target half, little-endian, every other byte untouched; the meter; the return. -/
def Obligations.EventHandlersRefillTheirHalf : Prop :=
  ∀ (e : Event) (s : State),
    (s.irq.pos = 0 → exec e.handler s = .next { s with
      target := (match e with
        | .ht => .first
        | .tc => .second)
      irq := { s.irq with pos := 1 } }) ∧
    (s.irq.pos = 1 → s.stream = .stopped → exec e.handler s = .next { s with irq := { s.irq with pos := 5 } }) ∧
    (s.irq.pos = 1 → s.stream = .streaming → exec e.handler s = .next { s with irq := { s.irq with pos := 2 } }) ∧
    (s.irq.pos = 2 → ∃ data : List Byte, data.length = s.params.halfBytes ∧
      (∀ bytes rest, s.inputs.src.given = bytes :: rest → bytes.length = s.params.halfBytes → data = bytes) ∧
      exec e.handler s = .next { s with
        inputs := { s.inputs with src := ⟨s.inputs.src.given.tail, s.inputs.src.drawn + 1⟩ }
        traces := { s.traces with src := s.traces.src ++ [(s.target, s.params.halfBytes)] }
        irq := { s.irq with data := data, idx := 0, pos := 3 } }) ∧
    (s.irq.pos = 3 → s.params.valid = true → s.irq.idx < s.params.halfWords → Memory.wf s.buf = true →
      let a := halfBase s.params s.target + 2 * s.irq.idx
      ∃ m : Memory, Memory.wf m = true ∧
        Memory.read m a = s.irq.data.getD (2 * s.irq.idx) 0 ∧
        Memory.read m (a + 1) = s.irq.data.getD (2 * s.irq.idx + 1) 0 ∧
        (∀ x, x ≠ a → x ≠ a + 1 → Memory.read m x = Memory.read s.buf x) ∧
        exec e.handler s = .next { s with
          buf := m
          irq := if s.irq.idx + 1 < s.params.halfWords then { s.irq with idx := s.irq.idx + 1 }
                 else { s.irq with pos := 4 } }) ∧
    (s.irq.pos = 4 → exec e.handler s = .next { s with
      meter := meterUpdate s.params (peak s.params.halfWords s.irq.data) s.meter
      traces := { s.traces with
        meter := s.traces.meter ++ [(meterUpdate s.params (peak s.params.halfWords s.irq.data) s.meter).on] }
      irq := { s.irq with pos := 5 } }) ∧
    (s.irq.pos = 5 → exec e.handler s = .next { s with irq := ⟨false, s.irq.evt, 0, [], 0⟩ })

/-- R306: the entry step takes the pending event, clears its bit, and leaves `FG`'s state and everything else where it
was. -/
def Obligations.IrqEntryTakesThePendingEvent : Prop :=
  ∀ s : State, s.irq.active = false →
    (s.evt = ⟨true, false⟩ →
      contextStep s = .next { s with evt := ⟨false, false⟩, irq := ⟨true, .ht, 0, [], 0⟩ }) ∧
    (s.evt = ⟨false, true⟩ →
      contextStep s = .next { s with evt := ⟨false, false⟩, irq := ⟨true, .tc, 0, [], 0⟩ })

/-- R308: with both events pending, the entry takes one of them and leaves the other pending; which one is a free choice,
and either may be given. -/
def Obligations.BothPendingEitherMayBeFirst : Prop :=
  ∀ s : State, s.evt = ⟨true, true⟩ → s.irq.active = false →
    (∃ t, contextStep s = .next t ∧ t.irq.active = true ∧ SameForeground s t ∧
      (t.irq.evt = .ht ∧ t.evt = ⟨false, true⟩ ∨ t.irq.evt = .tc ∧ t.evt = ⟨true, false⟩)) ∧
    (∀ (e : Event) (rest : List Event) (t : State), s.inputs.first.given = e :: rest →
      contextStep s = .next t → t.irq.evt = e)

/-- R220, R42: the transfer step is enabled while the transfer runs on an enabled clock; it emits the word at `dma_pos`,
moves on with the wrap, and sets the bit of the boundary it crosses, a bit already set staying set. -/
def Obligations.DmaStepEmitsAndNotifies : Prop :=
  ∀ s : State,
    (s.dmaEnabled = true ↔ s.dma.running = true ∧ s.pins.sclkEn = true) ∧
    (s.params.valid = true → s.dma.pos < s.params.bufWords →
      dmaStep s = .next { s with
        traces := { s.traces with audio := s.traces.audio
          ++ [Memory.read s.buf (2 * s.dma.pos + 1) ++ Memory.read s.buf (2 * s.dma.pos)] }
        evt := ⟨s.evt.ht || decide (s.dma.pos + 1 = s.params.halfWords),
                s.evt.tc || decide (s.dma.pos + 1 = s.params.bufWords)⟩
        dma := ⟨s.dma.running, if s.dma.pos + 1 = s.params.bufWords then 0 else s.dma.pos + 1⟩ })

/-! ### Functions of the rules -/

/-- R157, R154: the volume byte is the low 8 bits of the largest whole number of half-decibel steps not above the
clamped operand, and that number is in `[asr(lo, 7), asr(hi, 7)]`. R163: with the headphone range of R9 no operand gives
the byte 0x01, and every operand above 0 gives 0x00. -/
def Obligations.VolumeCodeRoundsDown : Prop :=
  (∀ (d : DbQ) (lo hi : Int), lo ≤ hi →
    ∃ n : Int, volCode d lo hi = BitVec.ofInt 8 n ∧
      128 * n ≤ min (max d.toInt lo) hi ∧ min (max d.toInt lo) hi < 128 * (n + 1) ∧
      asr lo 7 ≤ n ∧ n ≤ asr hi 7) ∧
  (∀ d : DbQ, volCode d (-26112) 0 ≠ 0x01 ∧ (0 < d.toInt → volCode d (-26112) 0 = 0x00))

/-- R158: the step count is the floor of the clamped operand over `TONE_STEP_Q` (R9; it is 384 in R158 and at reset),
inside the tone range; an index is clamped to `FREQ_COUNT − 1`. -/
def Obligations.ToneQuantisationClampsAndFloors : Prop :=
  ∀ p : Params, p.valid = true →
    (∀ d : DbQ,
      let clamped := min (max d.toInt (p.toneStepQ * p.toneMinSteps)) (p.toneStepQ * p.toneMaxSteps)
      p.toneStepQ * toneSteps p d ≤ clamped ∧ clamped < p.toneStepQ * (toneSteps p d + 1) ∧
      p.toneMinSteps ≤ toneSteps p d ∧ toneSteps p d ≤ p.toneMaxSteps) ∧
    (∀ i : BitVec 2, (freqIdx p i).toNat = min i.toNat (p.freqCount - 1)) ∧
    State.reset.params.toneStepQ = 384

/-- R155, R156: the fields of the two tone bytes: treble over bass nibble, a nibble of −7..8 steps being the parameter
`TONE_NIB`'s code for them, at the reference (8 − s) mod 16; bits 7:5 and 0 of the base, treble index in 4:3, bass index
in 2:1. -/
def Obligations.ToneBytesHoldTheirFields : Prop :=
  ∀ (p : Params) (t : Tone), p.valid = true →
    (toneGainByte p t).extractLsb' 4 4 = toneNib p t.treble ∧
    (toneGainByte p t).extractLsb' 0 4 = toneNib p t.bass ∧
    (toneCfgByte p t).extractLsb' 5 3 = p.vals.toneCfgBase.extractLsb' 5 3 ∧
    (toneCfgByte p t).extractLsb' 3 2 = t.tf ∧
    (toneCfgByte p t).extractLsb' 1 2 = t.bf ∧
    (toneCfgByte p t).extractLsb' 0 1 = p.vals.toneCfgBase.extractLsb' 0 1 ∧
    ∀ s : Int, -7 ≤ s → s ≤ 8 →
      p.toneNib[(s + 7).toNat]? = some (toneNib p s) ∧ ((toneNib Params.reference s).toNat : Int) = (8 - s) % 16

/-- R242: the peak is the largest magnitude of the half's samples: none exceeds it, one reaches it, and it is at most
32768. -/
def Obligations.PeakIsTheLargestMagnitude : Prop :=
  ∀ (n : Nat) (data : List Byte), 0 < n →
    (∀ j, j < n → (sampleOf data j).toInt.natAbs ≤ peak n data) ∧
    (∃ j, j < n ∧ (sampleOf data j).toInt.natAbs = peak n data) ∧
    peak n data ≤ 32768

/-- R241: the new average, the output line compared with the counter before it advances, and the counter modulo
`METER_PERIOD`, which is 10 at reset (R9). -/
def Obligations.MeterUpdateFollowsTheFormula : Prop :=
  ∀ (p : Params) (m : Nat) (t : Meter), p.valid = true → m ≤ 32768 →
    (meterUpdate p m t).avg.toNat = (9 * t.avg.toNat + m) / 10 ∧
    ((meterUpdate p m t).on = true ↔ t.cnt.toNat < (9 * t.avg.toNat + m) / 10 / p.meterK) ∧
    (meterUpdate p m t).cnt.toNat = (t.cnt.toNat + 1) % p.meterPeriod ∧
    State.reset.params.meterPeriod = 10

/-- R244: the five laws of the average: its bound; its fixed points, and that a constant peak reached from below leaves
it in their band; its decay to 0; the dead band; its monotonicity. -/
def Obligations.MeterAverageLaws : Prop :=
  (∀ a m, a ≤ 32768 → m ≤ 32768 → meterAverage a m ≤ 32768 ∧ meterAverage a m ≤ max a m) ∧
  (∀ a m : Nat, meterAverage a m = a ↔ a ≤ m ∧ m ≤ a + 9) ∧
  (∀ a m : Nat, a ≤ m → ∃ n,
    (fun x => meterAverage x m)^[n] a ≤ m ∧ m ≤ (fun x => meterAverage x m)^[n] a + 9) ∧
  (∀ a, 1 ≤ a → meterAverage a 0 < a) ∧
  (∀ a, ∃ n, (fun x => meterAverage x 0)^[n] a = 0) ∧
  (∀ m, m ≤ 9 → meterAverage 0 m = 0) ∧
  (∀ a b m k, a ≤ b → m ≤ k → meterAverage a m ≤ meterAverage b k)

/-- R245: over one period of updates that leave the average at A each, from counter 0, the line is on in
`min(METER_PERIOD, A div METER_K)` of them: with the period of R9, ten updates and `min(10, A div METER_K)`. -/
def Obligations.MeterDutyFollowsTheAverage : Prop :=
  ∀ (p : Params) (ms : List Nat) (t : Meter) (a : Nat), p.valid = true → ms.length = p.meterPeriod →
    (∀ m ∈ ms, m ≤ 32768) → t.cnt = 0 →
    (∀ u ∈ meterRun p ms t, u.avg.toNat = a) →
    ((meterRun p ms t).filter (fun u => u.on)).length = min p.meterPeriod (a / p.meterK) ∧
    (p.meterPeriod = 10 → ((meterRun p ms t).filter (fun u => u.on)).length = min 10 (a / p.meterK))

/-- R273: n steps up from bass 0 reach min(n, TONE_MAX_STEPS); a step down from index 0 stays; a step up and a step down
on one control is the identity unless the step up saturated. -/
def Obligations.ToneSteppingLaws : Prop :=
  ∀ (p : Params) (t : Tone), p.valid = true →
    p.toneMinSteps ≤ t.bass → t.bass ≤ p.toneMaxSteps → p.toneMinSteps ≤ t.treble → t.treble ≤ p.toneMaxSteps →
    t.bf.toNat < p.freqCount → t.tf.toNat < p.freqCount →
    (t.bass = 0 → ∀ n : Nat, ((toneInc p .bass)^[n] t).bass = min (n : Int) p.toneMaxSteps) ∧
    (t.bf = 0 → toneDec p .bassFreq t = t) ∧
    (∀ ctl, toneInc p ctl t ≠ t → toneDec p ctl (toneInc p ctl t) = t) ∧
    (∀ ctl, ∀ u ∈ [toneInc p ctl t, toneDec p ctl t],
      p.toneMinSteps ≤ u.bass ∧ u.bass ≤ p.toneMaxSteps ∧ p.toneMinSteps ≤ u.treble ∧ u.treble ≤ p.toneMaxSteps ∧
      u.bf.toNat < p.freqCount ∧ u.tf.toNat < p.freqCount)

/-- R280: the text of a gain of −7..8 steps has 7 characters: blanks, then a minus sign or a blank, the whole decibels,
a point, the tenth, and "dB"; `RESULT.text` holds it as it stands. -/
def Obligations.GainTextIsSevenCharacters : Prop :=
  ∀ s : Int, -7 ≤ s → s ≤ 8 →
    (fmtGain s).length = 7 ∧ (textOf (fmtGain s)).toList = fmtGain s ∧
    ∃ (k a b : Nat) (whole : List Char), 15 * s.natAbs = 10 * a + b ∧ b < 10 ∧ whole = Nat.toDigits 10 a ∧
      fmtGain s = List.replicate k 0x20
        ++ asciiBytes ([if s < 0 then '-' else ' '] ++ whole ++ ['.', Char.ofNat (48 + b), 'd', 'B'])

/-- R281: the text of a frequency index is its label after blanks to 7 characters, and `RESULT.text` holds it as it
stands. -/
def Obligations.FrequencyTextIsItsLabel : Prop :=
  ∀ (p : Params) (i : BitVec 2), p.valid = true → i.toNat < p.freqCount →
    (∃ label ∈ p.labelsBass, p.labelsBass[i.toNat]? = some label ∧
      fmtFreq p.labelsBass i = List.replicate (7 - label.length) 0x20 ++ label ∧
      (textOf (fmtFreq p.labelsBass i)).toList = fmtFreq p.labelsBass i ∧ (fmtFreq p.labelsBass i).length = 7) ∧
    (∃ label ∈ p.labelsTreble, p.labelsTreble[i.toNat]? = some label ∧
      fmtFreq p.labelsTreble i = List.replicate (7 - label.length) 0x20 ++ label ∧
      (textOf (fmtFreq p.labelsTreble i)).toList = fmtFreq p.labelsTreble i ∧ (fmtFreq p.labelsTreble i).length = 7)

/-- R83, R14: a word written at an even address of the buffer reads back, low byte at the lower address, and no other byte
changes. That an odd address and one outside the buffer stop as the faults `misaligned` and `outsideBuffer` is the model's
own choice (log 16): the spec says of an odd address only that a model may refuse it. -/
def Obligations.BufferWordsReadBack : Prop :=
  ∀ (s : State) (a : Nat) (v : Sample), Memory.wf s.buf = true →
    (a % 2 = 0 → a + 1 < s.params.bufBytes → ∃ t, memWriteWord s a v = .ok t ∧ t = { s with buf := t.buf } ∧
      memReadWord t a = .ok v ∧ memReadByte t a = .ok (v.extractLsb' 0 8) ∧
      memReadByte t (a + 1) = .ok (v.extractLsb' 8 8) ∧ Memory.wf t.buf = true ∧
      ∀ x, x ≠ a → x ≠ a + 1 → Memory.read t.buf x = Memory.read s.buf x) ∧
    (a % 2 = 1 → memWriteWord s a v = .error .misaligned ∧ memReadWord s a = .error .misaligned) ∧
    (a % 2 = 0 → s.params.bufBytes ≤ a + 1 →
      memWriteWord s a v = .error .outsideBuffer ∧ memReadWord s a = .error .outsideBuffer)

/-! ### The whole machine -/

/-- R324, R80, R38, R39, R41, R43: from every state of the invariant a step is a next state of the invariant: nothing
faults, nothing is refused, no field leaves its range. -/
def Obligations.EveryStepIsSafe : Prop :=
  ∀ s : State, s.Inv → SafeOutcome (step s)

/-- R31, R160–R167, R262–R282: a command run alone, from the block after its decode, completes in the number of blocks
its pseudocode has and leaves exactly its whole effect: its bus writes in order with whatever results, FAIL if any result
is not OK, its own effect, `RESULT`, an idle sequencer. -/
def Obligations.CommandRunAloneHasItsWholeEffect : Prop :=
  ∀ (i : Instr) (s : State), i.wellFormedCommand s.params.hasLegacyHpMute = true → s.params.valid = true →
    Memory.wf s.buf = true → Memory.below s.params.bufBytes s.buf = true →
    runBlocks i (blocksPerformed s.params i) (began i s) = .next (wholeEffect i s)

/-- R307, R47: no step of `IRQ` or `DMA` changes anything `FG` can see, and a block of a command does the same from two
states that `FG` cannot tell apart: no command's result depends on whether, or how often, the handler ran. -/
def Obligations.ForegroundCannotSeeTheHandlers : Prop :=
  (∀ s t : State, irqStep s = .next t → s.irqEnabled = true → SameForeground s t) ∧
  (∀ s t : State, dmaStep s = .next t → SameForeground s t) ∧
  (∀ (i : Instr) (s t s' : State), i.isCommand = true → SameForeground s t → exec i s = .next s' →
    ∃ t', exec i t = .next t' ∧ SameForeground s' t')

/-- R216, R202: the silence of a stopped stream is kept by every step, and while it lasts every word the transfer emits
is 0. -/
def Obligations.StoppedStreamStaysSilent : Prop :=
  ∀ s t : State, s.Inv → s.Silence → step s = .next t →
    t.Silence ∧
    (s.stream = .stopped → s.stopFilling = false →
      t.traces.audio = s.traces.audio ∨ t.traces.audio = s.traces.audio ++ [0])

/-- R94, R215, R360: if no step lets the transfer leave its half while an event is outstanding, no refill is late; and a
step of a timely state changes no byte of the half the transfer reads, unless it is `FG`'s zero fill. What is late is the
model's choice (`State.Timely`, log 31), stricter than R360's count: the transfer stays out of the half up to the handler's
return, not only up to its step `HALF_WORDS + 1` after the notification and the refill's last write. -/
def Obligations.RefillNeverTouchesTheHalfInTransfer : Prop :=
  ∀ s t : State, s.Inv → s.Timely → step s = .next t →
    ((s.outstanding .ht = true ∨ s.outstanding .tc = true → t.dmaHalf = s.dmaHalf) → t.Timely) ∧
    (s.irqEnabled = true → ∀ a, inHalf s.params s.dmaHalf a → Memory.read t.buf a = Memory.read s.buf a)

/-- R305, R309: while a bit is pending or the handler is active no step changes what `FG` can see; an active handler is
not interrupted: after a step it is active for the same event at the same or a later block, or it has returned. R211–R213,
R307: and it does return: its blocks, from the first, run through `handlerBlocks` of them to an inactive handler, having
set the target and, in a stopped stream, nothing else; in a streaming one it has read `HALF_BYTES` bytes from the source,
put them into its half and nowhere else, and updated the meter with their peak. -/
def Obligations.HandlerRunsToCompletion : Prop :=
  (∀ s t : State, s.irqEnabled = true → step s = .next t → SameForeground s t) ∧
  (∀ s t : State, s.irq.active = true → step s = .next t →
    (t.irq.active = true ∧ t.irq.evt = s.irq.evt ∧ s.irq.pos ≤ t.irq.pos) ∨
    (t.irq.active = false ∧ s.irq.pos = 5)) ∧
  (∀ (e : Event) (s : State), s.params.valid = true → Memory.wf s.buf = true → s.irq.pos = 0 →
    (s.stream = .stopped → runBlocks e.handler (handlerBlocks s) s = .next { s with
      target := Event.half e
      irq := ⟨false, s.irq.evt, 0, [], 0⟩ }) ∧
    (s.stream = .streaming → ∃ (data : List Byte) (m : Memory),
      data.length = s.params.halfBytes ∧
      (∀ bytes rest, s.inputs.src.given = bytes :: rest → bytes.length = s.params.halfBytes → data = bytes) ∧
      Memory.wf m = true ∧
      (∀ j, j < s.params.halfBytes → Memory.read m (halfBase s.params (Event.half e) + j) = data.getD j 0) ∧
      (∀ a, ¬ inHalf s.params (Event.half e) a → Memory.read m a = Memory.read s.buf a) ∧
      runBlocks e.handler (handlerBlocks s) s = .next { s with
        target := Event.half e
        buf := m
        meter := meterUpdate s.params (peak s.params.halfWords data) s.meter
        traces := { s.traces with
          src := s.traces.src ++ [(Event.half e, s.params.halfBytes)]
          meter := s.traces.meter ++ [(meterUpdate s.params (peak s.params.halfWords data) s.meter).on] }
        inputs := { s.inputs with src := ⟨s.inputs.src.given.tail, s.inputs.src.drawn + 1⟩ }
        irq := ⟨false, s.irq.evt, 0, [], 0⟩ }))

/-- R15, R18: every trace is append-only. -/
def Obligations.TracesOnlyGrow : Prop :=
  ∀ s t : State, step s = .next t → TracesGrow s t

/-- R221, R33, R222: no step clears the start guard, stops the transfer, or disables the serial clock; and once started,
only the transfer's own step moves `dma_pos`. -/
def Obligations.TransferIsNeverHalted : Prop :=
  ∀ s t : State, step s = .next t →
    (s.started = true → t.started = true) ∧
    (s.dma.running = true → t.dma.running = true) ∧
    (s.pins.sclkEn = true → t.pins.sclkEn = true) ∧
    (s.started = true → t.dma.pos = s.dma.pos ∨ ∃ u : Inputs, dmaStep { s with inputs := u } = .next t)

/-- R353: with the transfer started but the serial clock off, no step emits a sample, moves the transfer or raises an
event. -/
def Obligations.NoClockNoTransfer : Prop :=
  ∀ s t : State, s.pins.sclkEn = false → s.started = true → step s = .next t →
    t.traces.audio = s.traces.audio ∧ t.dma = s.dma ∧ (s.evt.ht = false → t.evt.ht = false) ∧
    (s.evt.tc = false → t.evt.tc = false)

/-- R261, R32: a step that changes the stream state is a block of `PLAY`, to STREAMING, or of `STOP`, to STOPPED. -/
def Obligations.OnlyPlayAndStopChangeTheState : Prop :=
  ∀ s t : State, step s = .next t → t.stream ≠ s.stream →
    s.fg.busy = true ∧ s.irqEnabled = false ∧
    ((s.fg.cmd = some (.command .play) ∧ t.stream = .streaming) ∨
     (s.fg.cmd = some (.command .stop) ∧ t.stream = .stopped))

/-- R151, R302: a step that uses the control bus is a block of one of the eleven commands of R302, taken by `FG`; it adds
one record, at `CODEC_ADDR`. -/
def Obligations.OnlyForegroundUsesTheBus : Prop :=
  ∀ s t : State, step s = .next t → t.traces.bus ≠ s.traces.bus →
    s.irqEnabled = false ∧ s.fg.busy = true ∧
    (∃ i, s.fg.cmd = some (.command i) ∧ i.isCommand = true ∧ i ≠ .getState ∧ ∀ ctl, i ≠ .format ctl) ∧
    (∃ r, t.traces.bus = s.traces.bus ++ [r] ∧ r.addr = s.params.codecAddr)

/-- R168: every record a command adds to the bus trace is one of the command's own writes, so a command other than
`SET_MVOL` and `SET_HPVOL` writes no volume register, where the volume registers are no other role's. -/
def Obligations.VolumeIsNeverUsedAsMute : Prop :=
  ∀ (i : Instr) (s t : State), exec i s = .next t → (∀ db, i ≠ .setMvol db) → (∀ db, i ≠ .setHpvol db) →
    (∀ v ∈ [s.params.regMap.mvolA, s.params.regMap.mvolB, s.params.regMap.hpvolA, s.params.regMap.hpvolB],
      v ∉ [s.params.regMap.pwrCtl, s.params.regMap.routing, s.params.regMap.clocking, s.params.regMap.iface,
        s.params.regMap.miscCtl, s.params.regMap.playbackCtl, s.params.regMap.toneCfg, s.params.regMap.toneGain]
        ++ s.params.regMap.pcmMute) →
    ∀ r ∈ t.traces.bus, r ∈ s.traces.bus ∨
      r.reg ∉ [s.params.regMap.mvolA, s.params.regMap.mvolB, s.params.regMap.hpvolA, s.params.regMap.hpvolB]

/-- R9: no step changes a parameter, and reset holds the values R9 gives for those that are not OPEN; R322: a step only
takes whole commands from the front of the port, so a port of whole commands stays one. -/
def Obligations.ParametersAndPortAreKept : Prop :=
  (∀ s t : State, step s = .next t →
    t.params = s.params ∧ t.port <:+ s.port ∧ (wholeCommands s.port = true → wholeCommands t.port = true)) ∧
  (let p := State.reset.params
   p.halfBytes = 192 ∧ p.halfWords = 96 ∧ p.bufBytes = 384 ∧ p.bufWords = 192 ∧ p.channels = 2 ∧ p.sampleBytes = 2 ∧
   p.sampleRateHz = 48000 ∧ p.callbackPeriodUs = 1000 ∧ p.mvolMin = -26112 ∧ p.mvolMax = 3072 ∧ p.hpvolMin = -26112 ∧
   p.hpvolMax = 0 ∧ p.toneStepQ = 384 ∧ p.toneMinSteps = -7 ∧ p.toneMaxSteps = 6 ∧ p.freqCount = 4 ∧
   p.meterPeriod = 10 ∧ p.tSettleUs = 100000 ∧ p.tBusTimeoutUs = 1000000 ∧ p.hasLegacyHpMute = true)

/-- R360, R210: `n` transfer steps from position p leave position (p + n) modulo `BUF_WORDS`, so from a notification the
transfer reads word j of the target half at its step `HALF_WORDS + j + 1` and the next word before it. -/
def Obligations.TransferReachesTheTargetHalfOnTime : Prop :=
  ∀ (s : State) (n : Nat), s.params.valid = true → s.dma.pos < s.params.bufWords →
    ∃ t, runDma n s = .next t ∧ t.dma.pos = (s.dma.pos + n) % s.params.bufWords ∧ t.buf = s.buf ∧
      (∀ j, s.dma.pos = s.params.halfWords → n = s.params.halfWords + j → j < s.params.halfWords → t.dma.pos = j) ∧
      (∀ j, s.dma.pos = 0 → n = s.params.halfWords + j → j < s.params.halfWords →
        t.dma.pos = s.params.halfWords + j)

/-- R45, R300–R304: a step writes `RESULT` only by ending a command of `FG` and recording what it reports (without a new
record `RESULT` is as it was); the report has value 0 unless the command is `GET_STATE` and blank text unless it is
`FORMAT`, and is OK for these two; it is FAIL only for one of the eleven commands of R302 that use the bus; and it is
ILLEGAL exactly for an ILLEGAL command, and for `SET_HP_MUTE` where its parameter is false. -/
def Obligations.ResultsAreReportedByCommandsOnly : Prop :=
  ∀ s t : State, step s = .next t →
    (t.traces.result = s.traces.result → t.result = s.result) ∧
    (t.traces.result ≠ s.traces.result →
      s.irqEnabled = false ∧ s.fg.busy = true ∧ t.fg.busy = false ∧ t.traces.result = s.traces.result ++ [t.result] ∧
      (s.fg.cmd ≠ some (.command .getState) → t.result.value = 0) ∧
      ((∀ ctl, s.fg.cmd ≠ some (.command (.format ctl))) → t.result.text = Text.spaces) ∧
      (s.fg.cmd = some (.command .getState) ∨ (∃ ctl, s.fg.cmd = some (.command (.format ctl))) →
        t.result.status = .ok) ∧
      (t.result.status = .fail →
        ∃ i, s.fg.cmd = some (.command i) ∧ i.isCommand = true ∧ i ≠ .getState ∧ ∀ ctl, i ≠ .format ctl) ∧
      (t.result.status = .illegal ↔ (∃ why, s.fg.cmd = some (.illegal why)) ∨
        (s.params.hasLegacyHpMute = false ∧ ∃ on, s.fg.cmd = some (.command (.setHpMute on)))))
end

