-- ==== Sys2Proof/Laws/Memory.lean ====
section
/-! SUPPORT. The laws of the audio buffer: a byte written reads back, every other byte is unchanged, and every memory
operation keeps the canonical form. -/

namespace Sys2Proof.Machine

@[simp] theorem Memory.read_nil (x : Nat) : Memory.read [] x = 0 := rfl

theorem Memory.read_of_wfFrom_lt {lo x : Nat} {m : Memory} (h : Memory.wfFrom lo m = true) (hx : x < lo) :
    Memory.read m x = 0 := by
  induction m generalizing lo with
  | nil => rfl
  | cons c m ih =>
    obtain ⟨a, b⟩ := c
    simp only [Memory.wfFrom, Bool.and_eq_true, decide_eq_true_eq] at h
    have hne : x ≠ a := by omega
    simp only [Memory.read, hne, if_false]
    exact ih h.2 (by omega)

theorem Memory.wfFrom_mono {lo lo' : Nat} {m : Memory} (h : Memory.wfFrom lo m = true) (hl : lo' ≤ lo) :
    Memory.wfFrom lo' m = true := by
  cases m with
  | nil => rfl
  | cons c m =>
    obtain ⟨a, b⟩ := c
    simp only [Memory.wfFrom, Bool.and_eq_true, decide_eq_true_eq] at h ⊢
    exact ⟨⟨by omega, h.1.2⟩, h.2⟩

/-- A byte written is the byte read at its address, and no other address is touched. -/
theorem Memory.read_write {lo : Nat} {m : Memory} (h : Memory.wfFrom lo m = true) (x : Nat) (v : Byte) (y : Nat) :
    Memory.read (Memory.write m x v) y = if y = x then v else Memory.read m y := by
  induction m generalizing lo with
  | nil =>
    rw [Memory.write]
    by_cases hv : v = Memory.unlisted
    · rw [if_pos hv]; by_cases hy : y = x <;> simp [hy, hv]
    · rw [if_neg hv]; by_cases hy : y = x <;> simp [Memory.read, hy]
  | cons c m ih =>
    obtain ⟨a, b⟩ := c
    simp only [Memory.wfFrom, Bool.and_eq_true, decide_eq_true_eq] at h
    have htail := h.2
    simp only [Memory.write]
    by_cases hxa : x < a
    · have hread : Memory.read ((a, b) :: m) x = 0 := by
        have hne : x ≠ a := by omega
        simp only [Memory.read, hne, if_false]
        exact Memory.read_of_wfFrom_lt htail (by omega)
      simp only [hxa, if_true, Memory.unlisted]
      by_cases hv : v = 0
      · simp only [hv, if_true]
        by_cases hy : y = x
        · rw [if_pos hy, hy]; exact hread
        · rw [if_neg hy]
      · simp only [hv, if_false]
        by_cases hy : y = x
        · simp [Memory.read, hy]
        · rw [if_neg hy]; conv_lhs => rw [Memory.read]
          simp [hy]
    · by_cases hxe : x = a
      · subst hxe
        simp only [lt_irrefl, if_false, if_true, Memory.unlisted]
        by_cases hv : v = 0
        · simp only [hv, if_true]
          by_cases hy : y = x
          · rw [if_pos hy, hy]; exact Memory.read_of_wfFrom_lt htail (by omega)
          · simp [Memory.read, hy]
        · simp only [hv, if_false]
          by_cases hy : y = x <;> simp [Memory.read, hy]
      · simp only [hxa, hxe, if_false, Memory.read]
        by_cases hya : y = a
        · subst hya
          have : ¬ y = x := fun h => hxe h.symm
          simp [this]
        · simp only [hya, if_false]
          exact ih htail

theorem Memory.wfFrom_write {lo : Nat} {m : Memory} (h : Memory.wfFrom lo m = true) (x : Nat) (v : Byte)
    (hx : lo ≤ x) : Memory.wfFrom lo (Memory.write m x v) = true := by
  induction m generalizing lo with
  | nil =>
    simp only [Memory.write]
    split <;> simp_all [Memory.wfFrom]
  | cons c m ih =>
    obtain ⟨a, b⟩ := c
    simp only [Memory.wfFrom, Bool.and_eq_true, decide_eq_true_eq] at h
    simp only [Memory.write]
    split
    · split
      · simp only [Memory.wfFrom, Bool.and_eq_true, decide_eq_true_eq]; exact h
      · rename_i hlt hv
        simp only [Memory.wfFrom, Bool.and_eq_true, decide_eq_true_eq]
        exact ⟨⟨hx, hv⟩, ⟨by omega, h.1.2⟩, h.2⟩
    · split
      · split
        · exact Memory.wfFrom_mono h.2 (by omega)
        · rename_i heq hv
          simp only [Memory.wfFrom, Bool.and_eq_true, decide_eq_true_eq]
          exact ⟨⟨hx, hv⟩, by rw [heq]; exact h.2⟩
      · simp only [Memory.wfFrom, Bool.and_eq_true, decide_eq_true_eq]
        exact ⟨h.1, ih h.2 (by omega)⟩

/-- Every write keeps the canonical form. -/
theorem Memory.wf_write {m : Memory} (h : Memory.wf m = true) (x : Nat) (v : Byte) :
    Memory.wf (Memory.write m x v) = true := Memory.wfFrom_write h x v (Nat.zero_le x)

/-- A write below a bound keeps the listed addresses below it. -/
theorem Memory.below_write {n : Nat} {m : Memory} (h : Memory.below n m = true) (x : Nat) (v : Byte) (hx : x < n) :
    Memory.below n (Memory.write m x v) = true := by
  induction m with
  | nil => simp only [Memory.write]; split <;> simp [Memory.below, hx]
  | cons c m ih =>
    obtain ⟨a, b⟩ := c
    simp only [Memory.below, List.all_cons, Bool.and_eq_true, decide_eq_true_eq] at h ih
    simp only [Memory.write]
    split
    · split <;> simp [Memory.below, h.1, h.2, hx]
    · split
      · split <;> simp [Memory.below, h.2, hx]
      · simp only [Memory.below, List.all_cons, Bool.and_eq_true, decide_eq_true_eq]
        exact ⟨h.1, ih h.2⟩

/-- A canonical memory below a bound that reads 0 everywhere below it lists nothing. -/
theorem Memory.eq_nil_of_read_zero {n : Nat} {m : Memory} (hw : Memory.wf m = true) (hb : Memory.below n m = true)
    (h : ∀ a, a < n → Memory.read m a = 0) : m = [] := by
  cases m with
  | nil => rfl
  | cons c m =>
    obtain ⟨a, b⟩ := c
    simp only [Memory.wf, Memory.wfFrom, Bool.and_eq_true, decide_eq_true_eq, Memory.unlisted] at hw
    simp only [Memory.below, List.all_cons, Bool.and_eq_true, decide_eq_true_eq] at hb
    have := h a hb.1
    simp only [Memory.read, if_true] at this
    exact absurd this (by simpa using hw.1.2)

/-- What a word write can do: it answers a state in which only the buffer differs, or a named fault. -/
theorem memWriteWord_cases {s : State} {a : Nat} {v : Sample} {t : State} (h : memWriteWord s a v = .ok t) :
    a % 2 = 0 ∧ a + 1 < s.params.bufBytes ∧
      t = { s with
        buf := Memory.write (Memory.write s.buf a (v.extractLsb' 0 8)) (a + 1) (v.extractLsb' 8 8) } := by
  unfold memWriteWord at h
  split at h
  · cases h
  · split at h
    · cases h; exact ⟨by omega, by assumption, rfl⟩
    · cases h

/-- A word write at an even address inside the buffer is answered. -/
theorem memWriteWord_ok {s : State} {a : Nat} (v : Sample) (ha : a % 2 = 0) (hb : a + 1 < s.params.bufBytes) :
    memWriteWord s a v = .ok { s with
      buf := Memory.write (Memory.write s.buf a (v.extractLsb' 0 8)) (a + 1) (v.extractLsb' 8 8) } := by
  have : ¬ a % 2 = 1 := by omega
  simp [memWriteWord, this, hb]

/-- A word read at an even address inside the buffer is answered, low byte first. -/
theorem memReadWord_ok {s : State} {a : Nat} (ha : a % 2 = 0) (hb : a + 1 < s.params.bufBytes) :
    memReadWord s a = .ok (Memory.read s.buf (a + 1) ++ Memory.read s.buf a) := by
  have : ¬ a % 2 = 1 := by omega
  simp [memReadWord, this, hb]

/-- The bytes of a buffer after a word write. -/
theorem Memory.read_writeWord {m : Memory} (hw : Memory.wf m = true) (a : Nat) (v : Sample) (x : Nat) :
    Memory.read (Memory.write (Memory.write m a (v.extractLsb' 0 8)) (a + 1) (v.extractLsb' 8 8)) x
      = if x = a + 1 then v.extractLsb' 8 8 else if x = a then v.extractLsb' 0 8 else Memory.read m x := by
  rw [Memory.read_write (lo := 0) (Memory.wf_write hw a _), Memory.read_write (lo := 0) hw]

/-! ### Every memory operation keeps the canonical form -/

theorem reset_buf_wf : Memory.wf State.reset.buf = true := rfl

theorem memWriteWord_wf {s t : State} {a : Nat} {v : Sample} (hw : Memory.wf s.buf = true)
    (h : memWriteWord s a v = .ok t) : Memory.wf t.buf = true := by
  obtain ⟨-, -, rfl⟩ := memWriteWord_cases h
  exact Memory.wf_write (Memory.wf_write hw _ _) _ _

theorem memWriteByte_wf {s t : State} {a : Nat} {v : Byte} (hw : Memory.wf s.buf = true)
    (h : memWriteByte s a v = .ok t) : Memory.wf t.buf = true := by
  unfold memWriteByte at h
  split at h <;> cases h
  exact Memory.wf_write hw _ _

end Sys2Proof.Machine
end

