-- ==== Sys2Proof/Laws/State.lean ====
section
/-! SUPPORT. What each named update does to each field of the state: one lemma per field per update, true by `rfl`. -/

namespace Sys2Proof.Machine

/-! ### fgAdvance -/

@[simp] theorem fgAdvance_params (s : State) : (fgAdvance s).params = s.params := rfl
@[simp] theorem fgAdvance_port (s : State) : (fgAdvance s).port = s.port := rfl
@[simp] theorem fgAdvance_fg (s : State) : (fgAdvance s).fg = { s.fg with pos := s.fg.pos + 1 } := rfl
@[simp] theorem fgAdvance_stream (s : State) : (fgAdvance s).stream = s.stream := rfl
@[simp] theorem fgAdvance_started (s : State) : (fgAdvance s).started = s.started := rfl
@[simp] theorem fgAdvance_target (s : State) : (fgAdvance s).target = s.target := rfl
@[simp] theorem fgAdvance_buf (s : State) : (fgAdvance s).buf = s.buf := rfl
@[simp] theorem fgAdvance_meter (s : State) : (fgAdvance s).meter = s.meter := rfl
@[simp] theorem fgAdvance_tone (s : State) : (fgAdvance s).tone = s.tone := rfl
@[simp] theorem fgAdvance_dma (s : State) : (fgAdvance s).dma = s.dma := rfl
@[simp] theorem fgAdvance_evt (s : State) : (fgAdvance s).evt = s.evt := rfl
@[simp] theorem fgAdvance_irq (s : State) : (fgAdvance s).irq = s.irq := rfl
@[simp] theorem fgAdvance_pins (s : State) : (fgAdvance s).pins = s.pins := rfl
@[simp] theorem fgAdvance_result (s : State) : (fgAdvance s).result = s.result := rfl
@[simp] theorem fgAdvance_traces (s : State) : (fgAdvance s).traces = s.traces := rfl
@[simp] theorem fgAdvance_inputs (s : State) : (fgAdvance s).inputs = s.inputs := rfl

/-! ### fgSetFail -/

@[simp] theorem fgSetFail_params (b : Bool) (s : State) : (fgSetFail b s).params = s.params := rfl
@[simp] theorem fgSetFail_port (b : Bool) (s : State) : (fgSetFail b s).port = s.port := rfl
@[simp] theorem fgSetFail_fg (b : Bool) (s : State) :
    (fgSetFail b s).fg = { s.fg with acc := some { s.acc with fail := b } } := rfl
@[simp] theorem fgSetFail_stream (b : Bool) (s : State) : (fgSetFail b s).stream = s.stream := rfl
@[simp] theorem fgSetFail_started (b : Bool) (s : State) : (fgSetFail b s).started = s.started := rfl
@[simp] theorem fgSetFail_target (b : Bool) (s : State) : (fgSetFail b s).target = s.target := rfl
@[simp] theorem fgSetFail_buf (b : Bool) (s : State) : (fgSetFail b s).buf = s.buf := rfl
@[simp] theorem fgSetFail_meter (b : Bool) (s : State) : (fgSetFail b s).meter = s.meter := rfl
@[simp] theorem fgSetFail_tone (b : Bool) (s : State) : (fgSetFail b s).tone = s.tone := rfl
@[simp] theorem fgSetFail_dma (b : Bool) (s : State) : (fgSetFail b s).dma = s.dma := rfl
@[simp] theorem fgSetFail_evt (b : Bool) (s : State) : (fgSetFail b s).evt = s.evt := rfl
@[simp] theorem fgSetFail_irq (b : Bool) (s : State) : (fgSetFail b s).irq = s.irq := rfl
@[simp] theorem fgSetFail_pins (b : Bool) (s : State) : (fgSetFail b s).pins = s.pins := rfl
@[simp] theorem fgSetFail_result (b : Bool) (s : State) : (fgSetFail b s).result = s.result := rfl
@[simp] theorem fgSetFail_traces (b : Bool) (s : State) : (fgSetFail b s).traces = s.traces := rfl
@[simp] theorem fgSetFail_inputs (b : Bool) (s : State) : (fgSetFail b s).inputs = s.inputs := rfl

/-! ### fgWait -/

@[simp] theorem fgWait_params (t : Nat) (s : State) : (fgWait t s).params = s.params := rfl
@[simp] theorem fgWait_port (t : Nat) (s : State) : (fgWait t s).port = s.port := rfl
@[simp] theorem fgWait_fg (t : Nat) (s : State) : (fgWait t s).fg = s.fg := rfl
@[simp] theorem fgWait_stream (t : Nat) (s : State) : (fgWait t s).stream = s.stream := rfl
@[simp] theorem fgWait_started (t : Nat) (s : State) : (fgWait t s).started = s.started := rfl
@[simp] theorem fgWait_target (t : Nat) (s : State) : (fgWait t s).target = s.target := rfl
@[simp] theorem fgWait_buf (t : Nat) (s : State) : (fgWait t s).buf = s.buf := rfl
@[simp] theorem fgWait_meter (t : Nat) (s : State) : (fgWait t s).meter = s.meter := rfl
@[simp] theorem fgWait_tone (t : Nat) (s : State) : (fgWait t s).tone = s.tone := rfl
@[simp] theorem fgWait_dma (t : Nat) (s : State) : (fgWait t s).dma = s.dma := rfl
@[simp] theorem fgWait_evt (t : Nat) (s : State) : (fgWait t s).evt = s.evt := rfl
@[simp] theorem fgWait_irq (t : Nat) (s : State) : (fgWait t s).irq = s.irq := rfl
@[simp] theorem fgWait_pins (t : Nat) (s : State) : (fgWait t s).pins = s.pins := rfl
@[simp] theorem fgWait_result (t : Nat) (s : State) : (fgWait t s).result = s.result := rfl
@[simp] theorem fgWait_traces (t : Nat) (s : State) : (fgWait t s).traces = s.traces := rfl
@[simp] theorem fgWait_inputs (t : Nat) (s : State) : (fgWait t s).inputs = s.inputs := rfl

/-! ### fgFinish -/

@[simp] theorem fgFinish_params (status : Status) (value : BitVec 32) (text : Text) (s : State) :
    (fgFinish status value text s).params = s.params := rfl
@[simp] theorem fgFinish_port (status : Status) (value : BitVec 32) (text : Text) (s : State) :
    (fgFinish status value text s).port = s.port := rfl
@[simp] theorem fgFinish_fg (status : Status) (value : BitVec 32) (text : Text) (s : State) :
    (fgFinish status value text s).fg = ⟨false, none, 0, none⟩ := rfl
@[simp] theorem fgFinish_stream (status : Status) (value : BitVec 32) (text : Text) (s : State) :
    (fgFinish status value text s).stream = s.stream := rfl
@[simp] theorem fgFinish_started (status : Status) (value : BitVec 32) (text : Text) (s : State) :
    (fgFinish status value text s).started = s.started := rfl
@[simp] theorem fgFinish_target (status : Status) (value : BitVec 32) (text : Text) (s : State) :
    (fgFinish status value text s).target = s.target := rfl
@[simp] theorem fgFinish_buf (status : Status) (value : BitVec 32) (text : Text) (s : State) :
    (fgFinish status value text s).buf = s.buf := rfl
@[simp] theorem fgFinish_meter (status : Status) (value : BitVec 32) (text : Text) (s : State) :
    (fgFinish status value text s).meter = s.meter := rfl
@[simp] theorem fgFinish_tone (status : Status) (value : BitVec 32) (text : Text) (s : State) :
    (fgFinish status value text s).tone = s.tone := rfl
@[simp] theorem fgFinish_dma (status : Status) (value : BitVec 32) (text : Text) (s : State) :
    (fgFinish status value text s).dma = s.dma := rfl
@[simp] theorem fgFinish_evt (status : Status) (value : BitVec 32) (text : Text) (s : State) :
    (fgFinish status value text s).evt = s.evt := rfl
@[simp] theorem fgFinish_irq (status : Status) (value : BitVec 32) (text : Text) (s : State) :
    (fgFinish status value text s).irq = s.irq := rfl
@[simp] theorem fgFinish_pins (status : Status) (value : BitVec 32) (text : Text) (s : State) :
    (fgFinish status value text s).pins = s.pins := rfl
@[simp] theorem fgFinish_result (status : Status) (value : BitVec 32) (text : Text) (s : State) :
    (fgFinish status value text s).result = ⟨status, value, text⟩ := rfl
@[simp] theorem fgFinish_traces (status : Status) (value : BitVec 32) (text : Text) (s : State) :
    (fgFinish status value text s).traces = { s.traces with result := s.traces.result ++ [⟨status, value, text⟩] } := rfl
@[simp] theorem fgFinish_inputs (status : Status) (value : BitVec 32) (text : Text) (s : State) :
    (fgFinish status value text s).inputs = s.inputs := rfl

/-! ### emit -/

@[simp] theorem emit_params (w : Sample) (s : State) : (emit w s).params = s.params := rfl
@[simp] theorem emit_port (w : Sample) (s : State) : (emit w s).port = s.port := rfl
@[simp] theorem emit_fg (w : Sample) (s : State) : (emit w s).fg = s.fg := rfl
@[simp] theorem emit_stream (w : Sample) (s : State) : (emit w s).stream = s.stream := rfl
@[simp] theorem emit_started (w : Sample) (s : State) : (emit w s).started = s.started := rfl
@[simp] theorem emit_target (w : Sample) (s : State) : (emit w s).target = s.target := rfl
@[simp] theorem emit_buf (w : Sample) (s : State) : (emit w s).buf = s.buf := rfl
@[simp] theorem emit_meter (w : Sample) (s : State) : (emit w s).meter = s.meter := rfl
@[simp] theorem emit_tone (w : Sample) (s : State) : (emit w s).tone = s.tone := rfl
@[simp] theorem emit_dma (w : Sample) (s : State) : (emit w s).dma = s.dma := rfl
@[simp] theorem emit_evt (w : Sample) (s : State) : (emit w s).evt = s.evt := rfl
@[simp] theorem emit_irq (w : Sample) (s : State) : (emit w s).irq = s.irq := rfl
@[simp] theorem emit_pins (w : Sample) (s : State) : (emit w s).pins = s.pins := rfl
@[simp] theorem emit_result (w : Sample) (s : State) : (emit w s).result = s.result := rfl
@[simp] theorem emit_traces (w : Sample) (s : State) :
    (emit w s).traces = { s.traces with audio := s.traces.audio ++ [w] } := rfl
@[simp] theorem emit_inputs (w : Sample) (s : State) : (emit w s).inputs = s.inputs := rfl

/-! ### setMeter -/

@[simp] theorem setMeter_params (m : Meter) (s : State) : (setMeter m s).params = s.params := rfl
@[simp] theorem setMeter_port (m : Meter) (s : State) : (setMeter m s).port = s.port := rfl
@[simp] theorem setMeter_fg (m : Meter) (s : State) : (setMeter m s).fg = s.fg := rfl
@[simp] theorem setMeter_stream (m : Meter) (s : State) : (setMeter m s).stream = s.stream := rfl
@[simp] theorem setMeter_started (m : Meter) (s : State) : (setMeter m s).started = s.started := rfl
@[simp] theorem setMeter_target (m : Meter) (s : State) : (setMeter m s).target = s.target := rfl
@[simp] theorem setMeter_buf (m : Meter) (s : State) : (setMeter m s).buf = s.buf := rfl
@[simp] theorem setMeter_meter (m : Meter) (s : State) : (setMeter m s).meter = m := rfl
@[simp] theorem setMeter_tone (m : Meter) (s : State) : (setMeter m s).tone = s.tone := rfl
@[simp] theorem setMeter_dma (m : Meter) (s : State) : (setMeter m s).dma = s.dma := rfl
@[simp] theorem setMeter_evt (m : Meter) (s : State) : (setMeter m s).evt = s.evt := rfl
@[simp] theorem setMeter_irq (m : Meter) (s : State) : (setMeter m s).irq = s.irq := rfl
@[simp] theorem setMeter_pins (m : Meter) (s : State) : (setMeter m s).pins = s.pins := rfl
@[simp] theorem setMeter_result (m : Meter) (s : State) : (setMeter m s).result = s.result := rfl
@[simp] theorem setMeter_traces (m : Meter) (s : State) :
    (setMeter m s).traces = { s.traces with meter := s.traces.meter ++ [m.on] } := rfl
@[simp] theorem setMeter_inputs (m : Meter) (s : State) : (setMeter m s).inputs = s.inputs := rfl

/-! ### setCodecRst -/

@[simp] theorem setCodecRst_params (l : ResetLine) (s : State) : (setCodecRst l s).params = s.params := rfl
@[simp] theorem setCodecRst_port (l : ResetLine) (s : State) : (setCodecRst l s).port = s.port := rfl
@[simp] theorem setCodecRst_fg (l : ResetLine) (s : State) : (setCodecRst l s).fg = s.fg := rfl
@[simp] theorem setCodecRst_stream (l : ResetLine) (s : State) : (setCodecRst l s).stream = s.stream := rfl
@[simp] theorem setCodecRst_started (l : ResetLine) (s : State) : (setCodecRst l s).started = s.started := rfl
@[simp] theorem setCodecRst_target (l : ResetLine) (s : State) : (setCodecRst l s).target = s.target := rfl
@[simp] theorem setCodecRst_buf (l : ResetLine) (s : State) : (setCodecRst l s).buf = s.buf := rfl
@[simp] theorem setCodecRst_meter (l : ResetLine) (s : State) : (setCodecRst l s).meter = s.meter := rfl
@[simp] theorem setCodecRst_tone (l : ResetLine) (s : State) : (setCodecRst l s).tone = s.tone := rfl
@[simp] theorem setCodecRst_dma (l : ResetLine) (s : State) : (setCodecRst l s).dma = s.dma := rfl
@[simp] theorem setCodecRst_evt (l : ResetLine) (s : State) : (setCodecRst l s).evt = s.evt := rfl
@[simp] theorem setCodecRst_irq (l : ResetLine) (s : State) : (setCodecRst l s).irq = s.irq := rfl
@[simp] theorem setCodecRst_pins (l : ResetLine) (s : State) :
    (setCodecRst l s).pins = { s.pins with codecRst := l } := rfl
@[simp] theorem setCodecRst_result (l : ResetLine) (s : State) : (setCodecRst l s).result = s.result := rfl
@[simp] theorem setCodecRst_traces (l : ResetLine) (s : State) :
    (setCodecRst l s).traces = { s.traces with pin := if s.pins.codecRst = l then s.traces.pin else s.traces.pin ++ [.codecRst l] } := rfl
@[simp] theorem setCodecRst_inputs (l : ResetLine) (s : State) : (setCodecRst l s).inputs = s.inputs := rfl

/-! ### setSclkEn -/

@[simp] theorem setSclkEn_params (b : Bool) (s : State) : (setSclkEn b s).params = s.params := rfl
@[simp] theorem setSclkEn_port (b : Bool) (s : State) : (setSclkEn b s).port = s.port := rfl
@[simp] theorem setSclkEn_fg (b : Bool) (s : State) : (setSclkEn b s).fg = s.fg := rfl
@[simp] theorem setSclkEn_stream (b : Bool) (s : State) : (setSclkEn b s).stream = s.stream := rfl
@[simp] theorem setSclkEn_started (b : Bool) (s : State) : (setSclkEn b s).started = s.started := rfl
@[simp] theorem setSclkEn_target (b : Bool) (s : State) : (setSclkEn b s).target = s.target := rfl
@[simp] theorem setSclkEn_buf (b : Bool) (s : State) : (setSclkEn b s).buf = s.buf := rfl
@[simp] theorem setSclkEn_meter (b : Bool) (s : State) : (setSclkEn b s).meter = s.meter := rfl
@[simp] theorem setSclkEn_tone (b : Bool) (s : State) : (setSclkEn b s).tone = s.tone := rfl
@[simp] theorem setSclkEn_dma (b : Bool) (s : State) : (setSclkEn b s).dma = s.dma := rfl
@[simp] theorem setSclkEn_evt (b : Bool) (s : State) : (setSclkEn b s).evt = s.evt := rfl
@[simp] theorem setSclkEn_irq (b : Bool) (s : State) : (setSclkEn b s).irq = s.irq := rfl
@[simp] theorem setSclkEn_pins (b : Bool) (s : State) : (setSclkEn b s).pins = { s.pins with sclkEn := b } := rfl
@[simp] theorem setSclkEn_result (b : Bool) (s : State) : (setSclkEn b s).result = s.result := rfl
@[simp] theorem setSclkEn_traces (b : Bool) (s : State) :
    (setSclkEn b s).traces = { s.traces with pin := if s.pins.sclkEn = b then s.traces.pin else s.traces.pin ++ [.sclkEn b] } := rfl
@[simp] theorem setSclkEn_inputs (b : Bool) (s : State) : (setSclkEn b s).inputs = s.inputs := rfl

/-! ### irqGoto -/

@[simp] theorem irqGoto_params (p : Nat) (s : State) : (irqGoto p s).params = s.params := rfl
@[simp] theorem irqGoto_port (p : Nat) (s : State) : (irqGoto p s).port = s.port := rfl
@[simp] theorem irqGoto_fg (p : Nat) (s : State) : (irqGoto p s).fg = s.fg := rfl
@[simp] theorem irqGoto_stream (p : Nat) (s : State) : (irqGoto p s).stream = s.stream := rfl
@[simp] theorem irqGoto_started (p : Nat) (s : State) : (irqGoto p s).started = s.started := rfl
@[simp] theorem irqGoto_target (p : Nat) (s : State) : (irqGoto p s).target = s.target := rfl
@[simp] theorem irqGoto_buf (p : Nat) (s : State) : (irqGoto p s).buf = s.buf := rfl
@[simp] theorem irqGoto_meter (p : Nat) (s : State) : (irqGoto p s).meter = s.meter := rfl
@[simp] theorem irqGoto_tone (p : Nat) (s : State) : (irqGoto p s).tone = s.tone := rfl
@[simp] theorem irqGoto_dma (p : Nat) (s : State) : (irqGoto p s).dma = s.dma := rfl
@[simp] theorem irqGoto_evt (p : Nat) (s : State) : (irqGoto p s).evt = s.evt := rfl
@[simp] theorem irqGoto_irq (p : Nat) (s : State) : (irqGoto p s).irq = { s.irq with pos := p } := rfl
@[simp] theorem irqGoto_pins (p : Nat) (s : State) : (irqGoto p s).pins = s.pins := rfl
@[simp] theorem irqGoto_result (p : Nat) (s : State) : (irqGoto p s).result = s.result := rfl
@[simp] theorem irqGoto_traces (p : Nat) (s : State) : (irqGoto p s).traces = s.traces := rfl
@[simp] theorem irqGoto_inputs (p : Nat) (s : State) : (irqGoto p s).inputs = s.inputs := rfl

/-! ### irqReturn -/

@[simp] theorem irqReturn_params (s : State) : (irqReturn s).params = s.params := rfl
@[simp] theorem irqReturn_port (s : State) : (irqReturn s).port = s.port := rfl
@[simp] theorem irqReturn_fg (s : State) : (irqReturn s).fg = s.fg := rfl
@[simp] theorem irqReturn_stream (s : State) : (irqReturn s).stream = s.stream := rfl
@[simp] theorem irqReturn_started (s : State) : (irqReturn s).started = s.started := rfl
@[simp] theorem irqReturn_target (s : State) : (irqReturn s).target = s.target := rfl
@[simp] theorem irqReturn_buf (s : State) : (irqReturn s).buf = s.buf := rfl
@[simp] theorem irqReturn_meter (s : State) : (irqReturn s).meter = s.meter := rfl
@[simp] theorem irqReturn_tone (s : State) : (irqReturn s).tone = s.tone := rfl
@[simp] theorem irqReturn_dma (s : State) : (irqReturn s).dma = s.dma := rfl
@[simp] theorem irqReturn_evt (s : State) : (irqReturn s).evt = s.evt := rfl
@[simp] theorem irqReturn_irq (s : State) : (irqReturn s).irq = ⟨false, s.irq.evt, 0, [], 0⟩ := rfl
@[simp] theorem irqReturn_pins (s : State) : (irqReturn s).pins = s.pins := rfl
@[simp] theorem irqReturn_result (s : State) : (irqReturn s).result = s.result := rfl
@[simp] theorem irqReturn_traces (s : State) : (irqReturn s).traces = s.traces := rfl
@[simp] theorem irqReturn_inputs (s : State) : (irqReturn s).inputs = s.inputs := rfl

/-! ### fgTransact -/

@[simp] theorem fgTransact_params (reg val : Byte) (s : State) : (fgTransact reg val s).params = s.params := rfl
@[simp] theorem fgTransact_port (reg val : Byte) (s : State) : (fgTransact reg val s).port = s.port := rfl
@[simp] theorem fgTransact_fg (reg val : Byte) (s : State) :
    (fgTransact reg val s).fg = { s.fg with acc := some ⟨s.acc.fail || decide (s.busAnswer ≠ .ok), s.acc.idx⟩ } := rfl
@[simp] theorem fgTransact_stream (reg val : Byte) (s : State) : (fgTransact reg val s).stream = s.stream := rfl
@[simp] theorem fgTransact_started (reg val : Byte) (s : State) : (fgTransact reg val s).started = s.started := rfl
@[simp] theorem fgTransact_target (reg val : Byte) (s : State) : (fgTransact reg val s).target = s.target := rfl
@[simp] theorem fgTransact_buf (reg val : Byte) (s : State) : (fgTransact reg val s).buf = s.buf := rfl
@[simp] theorem fgTransact_meter (reg val : Byte) (s : State) : (fgTransact reg val s).meter = s.meter := rfl
@[simp] theorem fgTransact_tone (reg val : Byte) (s : State) : (fgTransact reg val s).tone = s.tone := rfl
@[simp] theorem fgTransact_dma (reg val : Byte) (s : State) : (fgTransact reg val s).dma = s.dma := rfl
@[simp] theorem fgTransact_evt (reg val : Byte) (s : State) : (fgTransact reg val s).evt = s.evt := rfl
@[simp] theorem fgTransact_irq (reg val : Byte) (s : State) : (fgTransact reg val s).irq = s.irq := rfl
@[simp] theorem fgTransact_pins (reg val : Byte) (s : State) : (fgTransact reg val s).pins = s.pins := rfl
@[simp] theorem fgTransact_result (reg val : Byte) (s : State) : (fgTransact reg val s).result = s.result := rfl
@[simp] theorem fgTransact_traces (reg val : Byte) (s : State) :
    (fgTransact reg val s).traces = { s.traces with bus := s.traces.bus ++ [⟨s.params.codecAddr, reg, val, s.busAnswer⟩] } := rfl
@[simp] theorem fgTransact_inputs (reg val : Byte) (s : State) :
    (fgTransact reg val s).inputs = { s.inputs with bus := (s.inputs.bus.draw Config.busAnswer).2 } := rfl

/-! ### dmaMove -/

@[simp] theorem dmaMove_params (s : State) : (dmaMove s).params = s.params := rfl
@[simp] theorem dmaMove_port (s : State) : (dmaMove s).port = s.port := rfl
@[simp] theorem dmaMove_fg (s : State) : (dmaMove s).fg = s.fg := rfl
@[simp] theorem dmaMove_stream (s : State) : (dmaMove s).stream = s.stream := rfl
@[simp] theorem dmaMove_started (s : State) : (dmaMove s).started = s.started := rfl
@[simp] theorem dmaMove_target (s : State) : (dmaMove s).target = s.target := rfl
@[simp] theorem dmaMove_buf (s : State) : (dmaMove s).buf = s.buf := rfl
@[simp] theorem dmaMove_meter (s : State) : (dmaMove s).meter = s.meter := rfl
@[simp] theorem dmaMove_tone (s : State) : (dmaMove s).tone = s.tone := rfl
@[simp] theorem dmaMove_dma (s : State) :
    (dmaMove s).dma = { s.dma with pos := if s.dma.pos + 1 = s.params.bufWords then 0 else s.dma.pos + 1 } := rfl
@[simp] theorem dmaMove_evt (s : State) : (dmaMove s).evt = crossPending s.params (s.dma.pos + 1) s.evt := rfl
@[simp] theorem dmaMove_irq (s : State) : (dmaMove s).irq = s.irq := rfl
@[simp] theorem dmaMove_pins (s : State) : (dmaMove s).pins = s.pins := rfl
@[simp] theorem dmaMove_result (s : State) : (dmaMove s).result = s.result := rfl
@[simp] theorem dmaMove_traces (s : State) : (dmaMove s).traces = s.traces := rfl
@[simp] theorem dmaMove_inputs (s : State) : (dmaMove s).inputs = s.inputs := rfl

/-! ### fgLoop and sbmStart, which branch -/

@[simp] theorem fgLoop_params (another : Bool) (s : State) : (fgLoop another s).params = s.params := by
  cases another <;> rfl
@[simp] theorem fgLoop_port (another : Bool) (s : State) : (fgLoop another s).port = s.port := by
  cases another <;> rfl
@[simp] theorem fgLoop_stream (another : Bool) (s : State) : (fgLoop another s).stream = s.stream := by
  cases another <;> rfl
@[simp] theorem fgLoop_started (another : Bool) (s : State) : (fgLoop another s).started = s.started := by
  cases another <;> rfl
@[simp] theorem fgLoop_target (another : Bool) (s : State) : (fgLoop another s).target = s.target := by
  cases another <;> rfl
@[simp] theorem fgLoop_buf (another : Bool) (s : State) : (fgLoop another s).buf = s.buf := by
  cases another <;> rfl
@[simp] theorem fgLoop_meter (another : Bool) (s : State) : (fgLoop another s).meter = s.meter := by
  cases another <;> rfl
@[simp] theorem fgLoop_tone (another : Bool) (s : State) : (fgLoop another s).tone = s.tone := by
  cases another <;> rfl
@[simp] theorem fgLoop_dma (another : Bool) (s : State) : (fgLoop another s).dma = s.dma := by
  cases another <;> rfl
@[simp] theorem fgLoop_evt (another : Bool) (s : State) : (fgLoop another s).evt = s.evt := by
  cases another <;> rfl
@[simp] theorem fgLoop_irq (another : Bool) (s : State) : (fgLoop another s).irq = s.irq := by
  cases another <;> rfl
@[simp] theorem fgLoop_pins (another : Bool) (s : State) : (fgLoop another s).pins = s.pins := by
  cases another <;> rfl
@[simp] theorem fgLoop_result (another : Bool) (s : State) : (fgLoop another s).result = s.result := by
  cases another <;> rfl
@[simp] theorem fgLoop_traces (another : Bool) (s : State) : (fgLoop another s).traces = s.traces := by
  cases another <;> rfl
@[simp] theorem fgLoop_inputs (another : Bool) (s : State) : (fgLoop another s).inputs = s.inputs := by
  cases another <;> rfl

theorem fgLoop_true (s : State) :
    fgLoop true s = { s with fg := { s.fg with acc := some { s.acc with idx := s.acc.idx + 1 } } } := rfl

theorem fgLoop_false (s : State) :
    fgLoop false s = { s with fg := { s.fg with pos := s.fg.pos + 1, acc := some { s.acc with idx := 0 } } } := rfl

@[simp] theorem sbmStart_params (s : State) : (sbmStart s).params = s.params := by
  unfold sbmStart; split <;> rfl
@[simp] theorem sbmStart_port (s : State) : (sbmStart s).port = s.port := by
  unfold sbmStart; split <;> rfl
@[simp] theorem sbmStart_fg (s : State) : (sbmStart s).fg = s.fg := by
  unfold sbmStart; split <;> rfl
@[simp] theorem sbmStart_stream (s : State) : (sbmStart s).stream = s.stream := by
  unfold sbmStart; split <;> rfl
@[simp] theorem sbmStart_target (s : State) : (sbmStart s).target = s.target := by
  unfold sbmStart; split <;> rfl
@[simp] theorem sbmStart_buf (s : State) : (sbmStart s).buf = s.buf := by
  unfold sbmStart; split <;> rfl
@[simp] theorem sbmStart_meter (s : State) : (sbmStart s).meter = s.meter := by
  unfold sbmStart; split <;> rfl
@[simp] theorem sbmStart_tone (s : State) : (sbmStart s).tone = s.tone := by
  unfold sbmStart; split <;> rfl
@[simp] theorem sbmStart_irq (s : State) : (sbmStart s).irq = s.irq := by
  unfold sbmStart; split <;> rfl
@[simp] theorem sbmStart_pins (s : State) : (sbmStart s).pins = s.pins := by
  unfold sbmStart; split <;> rfl
@[simp] theorem sbmStart_result (s : State) : (sbmStart s).result = s.result := by
  unfold sbmStart; split <;> rfl
@[simp] theorem sbmStart_traces (s : State) : (sbmStart s).traces = s.traces := by
  unfold sbmStart; split <;> rfl
@[simp] theorem sbmStart_inputs (s : State) : (sbmStart s).inputs = s.inputs := by
  unfold sbmStart; split <;> rfl

theorem sbmStart_of_started (s : State) (h : s.started = true) : sbmStart s = s := by simp [sbmStart, h]

theorem sbmStart_of_not_started (s : State) (h : s.started = false) :
    sbmStart s = { s with started := true, dma := ⟨true, 0⟩, evt := ⟨false, false⟩ } := by simp [sbmStart, h]

end Sys2Proof.Machine
end

