-- ==== Sys2Proof/Laws/Blocks.lean ====
section
/-! SUPPORT. What the shared block operations do, once each, in the terms the statements use: a transaction is `wrote`,
a command's end is `ended`, an iteration of a loop is `looped`. Callers cite these instead of unfolding. -/

namespace Sys2Proof.Machine

theorem Feed.draw_snd (f : Feed BusResult) :
    (f.draw Config.busAnswer).2 = ⟨f.given.tail, f.drawn + 1⟩ := by
  unfold Feed.draw; split <;> simp_all

theorem fgTransact_eq (reg val : Byte) (s : State) : fgTransact reg val s = wrote reg val s := by
  simp [fgTransact, busWrite, State.useBusAnswer, wrote, Feed.draw_snd, fgSetFail, State.acc]

theorem fgFinish_eq (status : Status) (value : BitVec 32) (text : Text) (s : State) :
    fgFinish status value text s = ended status value text s := rfl

theorem fgFinishBus_eq (s : State) : fgFinishBus s = endedBus s := by
  simp [fgFinishBus, endedBus, fgFinish_eq, busStatus]

theorem fgAdvance_eq {k : Nat} {s : State} (h : s.fg.pos + 1 = k) : fgAdvance s = goOn k s := by
  simp [fgAdvance, goOn, h]

theorem fgLoop_eq {k : Nat} {s : State} (n : Nat) (h : s.fg.pos = k) :
    fgLoop (decide (s.acc.idx + 1 < n)) s = looped k n s := by
  unfold looped
  by_cases hn : s.acc.idx + 1 < n
  · rw [if_pos hn, decide_eq_true hn, fgLoop_true, ← h]
  · rw [if_neg hn, decide_eq_false hn, fgLoop_false, ← h]

@[simp] theorem wrote_pos (reg val : Byte) (s : State) : (wrote reg val s).fg.pos = s.fg.pos := rfl

@[simp] theorem wrote_idx (reg val : Byte) (s : State) : (wrote reg val s).acc.idx = s.acc.idx := rfl

@[simp] theorem wrote_params (reg val : Byte) (s : State) : (wrote reg val s).params = s.params := rfl

theorem busBlock_eq {k : Nat} {s : State} (reg val : Byte) (h : s.fg.pos + 1 = k) :
    busBlock reg val s = goOn k (wrote reg val s) := by
  rw [busBlock, fgTransact_eq, fgAdvance_eq]
  exact h

theorem busLastBlock_eq (reg val : Byte) (s : State) : busLastBlock reg val s = endedBus (wrote reg val s) := by
  rw [busLastBlock, fgTransact_eq, fgFinishBus_eq]

theorem pcmMuteBlock_eq {k : Nat} {s : State} {reg : Byte} (val : Byte) (h : s.fg.pos = k)
    (hr : s.params.regMap.pcmMute[s.acc.idx]? = some reg) :
    pcmMuteBlock val s = looped k s.params.regMap.pcmMute.length (wrote reg val s) := by
  simp only [pcmMuteBlock, hr, fgTransact_eq]
  exact fgLoop_eq (s := wrote reg val s) _ h

/-- The zero fill's block at a word of the buffer. -/
theorem zeroFillBlock_eq {s : State} (h : s.fg.pos = 4) (hi : s.acc.idx < s.params.bufWords) :
    zeroFillBlock s = .next (looped 4 s.params.bufWords { s with
      buf := Memory.write (Memory.write s.buf (2 * s.acc.idx) ((0 : Sample).extractLsb' 0 8)) (2 * s.acc.idx + 1)
        ((0 : Sample).extractLsb' 8 8) }) := by
  have hb : 2 * s.acc.idx + 1 < s.params.bufBytes := by
    simp only [Params.bufWords] at hi; omega
  unfold zeroFillBlock
  rw [memWriteWord_ok 0 (by omega) hb]
  generalize Memory.write (Memory.write s.buf (2 * s.acc.idx) ((0 : Sample).extractLsb' 0 8)) (2 * s.acc.idx + 1)
    ((0 : Sample).extractLsb' 8 8) = m
  exact congrArg Host.Outcome.next (fgLoop_eq (s := { s with buf := m }) s.params.bufWords h)

/-! ### Sizes of a valid configuration -/

theorem Params.sizes_of_valid {p : Params} (h : p.valid = true) :
    0 < p.halfWords ∧ p.halfBytes = 2 * p.halfWords ∧ p.bufBytes = 4 * p.halfWords ∧ p.bufWords = 2 * p.halfWords := by
  simp only [Params.valid, Params.validSizes, Bool.and_eq_true, decide_eq_true_eq] at h
  simp only [Params.bufWords, Params.bufBytes, Params.halfWords]
  omega

theorem Params.pcmMute_of_valid {p : Params} (h : p.valid = true) : 0 < p.regMap.pcmMute.length := by
  simp only [Params.valid, Params.validCodec, Bool.and_eq_true, decide_eq_true_eq] at h
  exact List.length_pos_of_ne_nil h.2.2.2.2.1

theorem Params.tone_of_valid {p : Params} (h : p.valid = true) :
    -7 ≤ p.toneMinSteps ∧ p.toneMinSteps ≤ 0 ∧ 0 ≤ p.toneMaxSteps ∧ p.toneMaxSteps ≤ 8 ∧
      1 ≤ p.freqCount ∧ p.freqCount ≤ 4 := by
  simp only [Params.valid, Params.validTone, Bool.and_eq_true, decide_eq_true_eq] at h
  omega

theorem Params.toneStep_of_valid {p : Params} (h : p.valid = true) : 0 < p.toneStepQ := by
  simp only [Params.valid, Params.validTone, Bool.and_eq_true, decide_eq_true_eq] at h
  omega

theorem Params.meter_of_valid {p : Params} (h : p.valid = true) : 1 ≤ p.meterPeriod ∧ p.meterPeriod ≤ 10 := by
  simp only [Params.valid, Params.validMeter, Bool.and_eq_true, decide_eq_true_eq] at h
  omega

/-- The meter's new counter, below `METER_PERIOD` (42_signal_meter.md R241). -/
theorem meterUpdate_cnt {p : Params} (h : p.valid = true) (m : Nat) (t : Meter) :
    (meterUpdate p m t).cnt.toNat = (t.cnt.toNat + 1) % p.meterPeriod := by
  have hp := Params.meter_of_valid h
  have hlt : (t.cnt.toNat + 1) % p.meterPeriod < p.meterPeriod := Nat.mod_lt _ (by omega)
  simp only [meterUpdate, BitVec.toNat_ofNat]
  exact Nat.mod_eq_of_lt (by omega)

/-! ### The transfer step -/

/-- The transfer step inside the buffer: the word, the move, nothing else. -/
theorem dmaStep_eq {s : State} (h : s.dma.pos < s.params.bufWords) :
    dmaStep s = .next (dmaMove (emit (Memory.read s.buf (2 * s.dma.pos + 1) ++ Memory.read s.buf (2 * s.dma.pos)) s)) := by
  have hb : 2 * s.dma.pos + 1 < s.params.bufBytes := by
    simp only [Params.bufWords] at h; omega
  unfold dmaStep
  rw [memReadWord_ok (by omega) hb]

/-- What a transfer step can do: it answers a state only by reading a word inside the buffer. -/
theorem dmaStep_cases {s t : State} (h : dmaStep s = .next t) :
    ∃ w, memReadWord s (2 * s.dma.pos) = .ok w ∧ t = dmaMove (emit w s) := by
  unfold dmaStep at h
  split at h
  · cases h; exact ⟨_, by assumption, rfl⟩
  · cases h

end Sys2Proof.Machine
end

