-- ==== Sys2Proof/Laws/Encoding.lean ====
section
/-! SUPPORT. The fields of each command format (30_encoding.md R113–R117): what the encoder puts in a field the
decoder reads out of it, and a word whose must-be-0 field is 0 is the format of its fields. -/

namespace Sys2Proof

/-! ### Fields of three and of two parts -/

theorem extract_low {k m : Nat} (a : BitVec k) (b : BitVec m) : (a ++ b).extractLsb' 0 m = b := by
  ext i hi
  simp only [BitVec.getElem_extractLsb', BitVec.getLsbD_append]
  simp [hi]

theorem extract_high {k m : Nat} (a : BitVec k) (b : BitVec m) : (a ++ b).extractLsb' m k = a := by
  ext i hi
  simp only [BitVec.getElem_extractLsb', BitVec.getLsbD_append]
  have h1 : ¬ (m + i < m) := by omega
  have h2 : m + i - m = i := by omega
  simp [h1, h2, hi]

/-- A field above the low part is a field of the high part. -/
theorem extract_above {k m : Nat} (a : BitVec k) (b : BitVec m) (lo len : Nat) :
    (a ++ b).extractLsb' (m + lo) len = a.extractLsb' lo len := by
  ext i hi
  simp only [BitVec.getElem_extractLsb', BitVec.getLsbD_append]
  have h1 : ¬ (m + lo + i < m) := by omega
  have h2 : m + lo + i - m = lo + i := by omega
  simp [h1, h2]

/-- Neighbouring fields join to the field of both. -/
theorem extract_append {w : Nat} (x : BitVec w) (lo m k : Nat) :
    x.extractLsb' (lo + m) k ++ x.extractLsb' lo m = x.extractLsb' lo (k + m) := by
  ext i hi
  rw [BitVec.getElem_append]
  split
  · simp
  · simp only [BitVec.getElem_extractLsb']
    congr 1; omega

theorem extract_all {w : Nat} (x : BitVec w) : x.extractLsb' 0 w = x := by
  ext i hi; simp

/-- A match under a mask of high ones is a claim about the high field. -/
theorem and_highMask {k lo : Nat} (w : BitVec (k + lo)) (a : BitVec k) :
    w &&& (BitVec.allOnes k ++ 0#lo) = a ++ 0#lo ↔ w.extractLsb' lo k = a := by
  constructor
  · intro h
    have h2 := congrArg (BitVec.extractLsb' lo k) h
    rw [extract_high] at h2
    rw [← h2]
    ext i hi
    have h3 : ¬ (lo + i < lo) := by omega
    have h4 : lo + i - lo = i := by omega
    simp [BitVec.getLsbD_append, h3, h4, hi]
  · intro h
    rw [← h]
    ext i hi
    rw [BitVec.getElem_and, BitVec.getElem_append, BitVec.getElem_append]
    split
    · simp
    · have h3 : lo + (i - lo) = i := by omega
      simp [h3, BitVec.getLsbD_eq_getElem hi]

/-- The two neighbouring high fields of a word, together. -/
theorem extract_append_eq {w : Nat} (x : BitVec w) (lo m k : Nat) (a : BitVec k) (b : BitVec m) :
    x.extractLsb' lo (k + m) = a ++ b ↔ x.extractLsb' (lo + m) k = a ∧ x.extractLsb' lo m = b := by
  rw [← extract_append x lo m k]
  constructor
  · intro h
    have h1 := congrArg (BitVec.extractLsb' m k) h
    have h2 := congrArg (BitVec.extractLsb' 0 m) h
    rw [extract_high, extract_high] at h1
    rw [extract_low, extract_low] at h2
    exact ⟨h1, h2⟩
  · rintro ⟨rfl, rfl⟩; rfl

/-! ### Format F0 -/

theorem formatF0_op (op : BitVec 4) : opcode (formatF0 op) = op := extract_high op 0#28

theorem formatF0_rsv (op : BitVec 4) : (formatF0 op).extractLsb' 0 28 = 0 := extract_low op 0#28

theorem formatF0_of_fields (w : Word) (h : w.extractLsb' 0 28 = 0) : formatF0 (opcode w) = w := by
  have := extract_append w 0 28 4
  rw [h] at this
  exact this.trans (extract_all w)

/-! ### Format FV -/

theorem formatFV_op (op : BitVec 4) (db : DbQ) : opcode (formatFV op db) = op :=
  (extract_above (op ++ 0#12) db 12 4).trans (extract_high op 0#12)

theorem formatFV_rsv (op : BitVec 4) (db : DbQ) : (formatFV op db).extractLsb' 16 12 = 0 :=
  (extract_above (op ++ 0#12) db 0 12).trans (extract_low op 0#12)

theorem formatFV_db (op : BitVec 4) (db : DbQ) : (formatFV op db).extractLsb' 0 16 = db := extract_low _ db

theorem formatFV_of_fields (w : Word) (h : w.extractLsb' 16 12 = 0) :
    formatFV (opcode w) (w.extractLsb' 0 16) = w := by
  have h1 := extract_append w 16 12 4
  rw [h] at h1
  have h2 := extract_append w 0 16 16
  rw [← h1] at h2
  exact h2.trans (extract_all w)

/-! ### Format FB -/

theorem formatFB_op (op : BitVec 4) (on : Bool) : opcode (formatFB op on) = op :=
  (extract_above (op ++ 0#27) (BitVec.ofBool on) 27 4).trans (extract_high op 0#27)

theorem formatFB_rsv (op : BitVec 4) (on : Bool) : (formatFB op on).extractLsb' 1 27 = 0 :=
  (extract_above (op ++ 0#27) (BitVec.ofBool on) 0 27).trans (extract_low op 0#27)

theorem getLsbD_zero_eq {w : Nat} (x : BitVec w) : BitVec.ofBool (x.getLsbD 0) = x.extractLsb' 0 1 := by
  ext i hi
  obtain rfl : i = 0 := by omega
  simp

theorem formatFB_on (op : BitVec 4) (on : Bool) : (formatFB op on).getLsbD 0 = on := by
  have h := (getLsbD_zero_eq (formatFB op on)).trans (extract_low (op ++ 0#27) (BitVec.ofBool on))
  revert h
  cases (formatFB op on).getLsbD 0 <;> cases on <;> decide

theorem formatFB_of_fields (w : Word) (h : w.extractLsb' 1 27 = 0) :
    formatFB (opcode w) (w.getLsbD 0) = w := by
  have h1 := extract_append w 1 27 4
  rw [h] at h1
  have h2 := extract_append w 0 1 31
  rw [← getLsbD_zero_eq, ← h1] at h2
  exact h2.trans (extract_all w)

/-! ### Format FC -/

theorem Ctl.ofBits_bits (c : Ctl) : Ctl.ofBits c.bits = c := by cases c <;> decide

theorem Ctl.bits_ofBits (b : BitVec 2) : (Ctl.ofBits b).bits = b := by revert b; decide

theorem formatFC_op (op : BitVec 4) (c : Ctl) : opcode (formatFC op c) = op :=
  (extract_above (op ++ 0#26) c.bits 26 4).trans (extract_high op 0#26)

theorem formatFC_rsv (op : BitVec 4) (c : Ctl) : (formatFC op c).extractLsb' 2 26 = 0 :=
  (extract_above (op ++ 0#26) c.bits 0 26).trans (extract_low op 0#26)

theorem formatFC_ctl (op : BitVec 4) (c : Ctl) : Ctl.ofBits ((formatFC op c).extractLsb' 0 2) = c :=
  (congrArg Ctl.ofBits (extract_low (op ++ 0#26) c.bits)).trans c.ofBits_bits

theorem formatFC_of_fields (w : Word) (h : w.extractLsb' 2 26 = 0) :
    formatFC (opcode w) (Ctl.ofBits (w.extractLsb' 0 2)) = w := by
  have h1 := extract_append w 2 26 4
  rw [h] at h1
  have h2 := extract_append w 0 2 30
  rw [← h1] at h2
  unfold formatFC
  rw [Ctl.bits_ofBits]
  exact h2.trans (extract_all w)

/-! ### Format FT -/

theorem formatFT0_op (bass : DbQ) (bf tf : BitVec 2) : opcode (formatFT0 bass bf tf) = 0x7 :=
  (extract_above (0x7#4 ++ 0#8 ++ tf ++ bf) bass 12 4).trans
    ((extract_above (0x7#4 ++ 0#8 ++ tf) bf 10 4).trans
      ((extract_above (0x7#4 ++ 0#8) tf 8 4).trans (extract_high 0x7#4 0#8)))

theorem formatFT0_rsv (bass : DbQ) (bf tf : BitVec 2) : (formatFT0 bass bf tf).extractLsb' 20 8 = 0 :=
  (extract_above (0x7#4 ++ 0#8 ++ tf ++ bf) bass 4 8).trans
    ((extract_above (0x7#4 ++ 0#8 ++ tf) bf 2 8).trans
      ((extract_above (0x7#4 ++ 0#8) tf 0 8).trans (extract_low 0x7#4 0#8)))

theorem formatFT0_tf (bass : DbQ) (bf tf : BitVec 2) : (formatFT0 bass bf tf).extractLsb' 18 2 = tf :=
  (extract_above (0x7#4 ++ 0#8 ++ tf ++ bf) bass 2 2).trans
    ((extract_above (0x7#4 ++ 0#8 ++ tf) bf 0 2).trans (extract_low _ tf))

theorem formatFT0_bf (bass : DbQ) (bf tf : BitVec 2) : (formatFT0 bass bf tf).extractLsb' 16 2 = bf :=
  (extract_above (0x7#4 ++ 0#8 ++ tf ++ bf) bass 0 2).trans (extract_low _ bf)

theorem formatFT0_bass (bass : DbQ) (bf tf : BitVec 2) : (formatFT0 bass bf tf).extractLsb' 0 16 = bass :=
  extract_low _ bass

theorem formatFT1_rsv (treble : DbQ) : (formatFT1 treble).extractLsb' 16 16 = 0 := extract_high 0#16 treble

theorem formatFT1_treble (treble : DbQ) : (formatFT1 treble).extractLsb' 0 16 = treble := extract_low 0#16 treble

theorem formatFT0_of_fields (w : Word) (hop : opcode w = 0x7) (h : w.extractLsb' 20 8 = 0) :
    formatFT0 (w.extractLsb' 0 16) (w.extractLsb' 16 2) (w.extractLsb' 18 2) = w := by
  have h1 := extract_append w 20 8 4
  rw [h, show w.extractLsb' (20 + 8) 4 = 0x7 from hop] at h1
  have h2 := extract_append w 18 2 12
  rw [← h1] at h2
  have h3 := extract_append w 16 2 14
  rw [← h2] at h3
  have h4 := extract_append w 0 16 16
  rw [← h3] at h4
  exact h4.trans (extract_all w)

theorem formatFT1_of_fields (w : Word) (h : w.extractLsb' 16 16 = 0) : formatFT1 (w.extractLsb' 0 16) = w := by
  have h1 := extract_append w 0 16 16
  rw [h] at h1
  exact h1.trans (extract_all w)

/-! ### The match and mask of each format (R119) -/

theorem matches_F0 (w : Word) (op : BitVec 4) :
    w &&& (BitVec.allOnes 32 ++ 0#0) = (op ++ 0#28) ++ 0#0 ↔ opcode w = op ∧ w.extractLsb' 0 28 = 0 :=
  (and_highMask (k := 32) (lo := 0) w (op ++ 0#28)).trans (extract_append_eq w 0 28 4 op 0#28)

theorem matches_FV (w : Word) (op : BitVec 4) :
    w &&& (BitVec.allOnes 16 ++ 0#16) = (op ++ 0#12) ++ 0#16 ↔ opcode w = op ∧ w.extractLsb' 16 12 = 0 :=
  (and_highMask (k := 16) (lo := 16) w (op ++ 0#12)).trans (extract_append_eq w 16 12 4 op 0#12)

theorem matches_FB (w : Word) (op : BitVec 4) :
    w &&& (BitVec.allOnes 31 ++ 0#1) = (op ++ 0#27) ++ 0#1 ↔ opcode w = op ∧ w.extractLsb' 1 27 = 0 :=
  (and_highMask (k := 31) (lo := 1) w (op ++ 0#27)).trans (extract_append_eq w 1 27 4 op 0#27)

theorem matches_FC (w : Word) (op : BitVec 4) :
    w &&& (BitVec.allOnes 30 ++ 0#2) = (op ++ 0#26) ++ 0#2 ↔ opcode w = op ∧ w.extractLsb' 2 26 = 0 :=
  (and_highMask (k := 30) (lo := 2) w (op ++ 0#26)).trans (extract_append_eq w 2 26 4 op 0#26)

theorem matches_FT0 (w : Word) (op : BitVec 4) :
    w &&& (BitVec.allOnes 12 ++ 0#20) = (op ++ 0#8) ++ 0#20 ↔ opcode w = op ∧ w.extractLsb' 20 8 = 0 :=
  (and_highMask (k := 12) (lo := 20) w (op ++ 0#8)).trans (extract_append_eq w 20 8 4 op 0#8)

theorem matches_FT1 (w : Word) :
    w &&& (BitVec.allOnes 16 ++ 0#16) = 0#16 ++ 0#16 ↔ w.extractLsb' 16 16 = 0 :=
  and_highMask (k := 16) (lo := 16) w 0#16

/-! ### The decoder on a known opcode -/

/-- `requireZero` answers its instruction where the field is 0, else ILLEGAL. -/
theorem requireZero_cases {w : Word} {lo len : Nat} {i j : Instr} (h : requireZero w lo len i = .command j) :
    w.extractLsb' lo len = 0 ∧ i = j := by
  unfold requireZero at h
  split at h
  · cases h; exact ⟨by assumption, rfl⟩
  · cases h

theorem requireZero_of_zero {w : Word} {lo len : Nat} (i : Instr) (h : w.extractLsb' lo len = 0) :
    requireZero w lo len i = .command i := by simp [requireZero, h]

theorem takeCommandWords_one (legacy : Bool) (w : Word) (rest : List Word) (h : opcode w ≠ 0x7#4) :
    takeCommandWords legacy (w :: rest) = some (decodeCommand legacy w 0, rest) := by
  simp [takeCommandWords, commandLength, h]

theorem takeCommandWords_two (legacy : Bool) (w0 w1 : Word) (rest : List Word) (h : opcode w0 = 0x7#4) :
    takeCommandWords legacy (w0 :: w1 :: rest) = some (decodeCommand legacy w0 w1, rest) := by
  simp [takeCommandWords, commandLength, h]

end Sys2Proof
end

