-- ==== Sys2Proof/Laws/Steps.lean ====
section
/-! SUPPORT. What one step can do, said once: the block a command performs (`FgBlock`), the block a handler performs
(`IrqBlock`), the step of the enabled context, and the step of the machine. Every property of a step is a case analysis
over these. -/

namespace Sys2Proof.Machine

/-! ### A command's block -/

/-- The blocks of the commands: from `s`, command `i` leads to the state given. -/
inductive FgBlock : Instr → State → State → Prop
  /-- A wait, or a loop over an empty list that is left at once. -/
  | pass {i s} : FgBlock i s (fgAdvance s)
  | clearFail {i s} : FgBlock i s (fgAdvance (fgSetFail false s))
  | assertRst {s} : FgBlock .init s (fgAdvance (setCodecRst .asserted (fgSetFail false s)))
  | releaseRst {s} : FgBlock .init s (fgAdvance (setCodecRst .released s))
  | clockOn {s} : FgBlock .init s (fgAdvance (setSclkEn true s))
  | bus {i s reg val} (h : (reg, val) ∈ commandWrites s.params s.tone i) : FgBlock i s (busBlock reg val s)
  | busLast {i s reg val} (h : (reg, val) ∈ commandWrites s.params s.tone i)
      (hl : ∀ on, i = .setHpMute on → s.params.hasLegacyHpMute = true) : FgBlock i s (busLastBlock reg val s)
  | mute {i s reg val} (another : Bool) (hr : s.params.regMap.pcmMute[s.acc.idx]? = some reg)
      (h : (reg, val) ∈ commandWrites s.params s.tone i) : FgBlock i s (fgLoop another (fgTransact reg val s))
  | muteNone {i s} (hr : s.params.regMap.pcmMute[s.acc.idx]? = none) : FgBlock i s (fgLoop false s)
  | finishBus {i s} (h : i = .pdn ∨ (∃ on, i = .setMute on) ∨ i = .play ∨ i = .stop) : FgBlock i s (fgFinishBus s)
  | tone {i s} (h : (∃ b t f g, i = .setTone b t f g) ∨ (∃ c, i = .inc c) ∨ (∃ c, i = .dec c)) :
      FgBlock i s (fgAdvance { s with tone := toneAfter s.params i s.tone })
  | stream {s} : FgBlock .play s (fgAdvance { s with stream := .streaming })
  | start {s} : FgBlock .play s (fgAdvance (sbmStart s))
  | stopStream {s} : FgBlock .stop s (fgAdvance { s with stream := .stopped })
  | clearMeter {s} : FgBlock .stop s (fgAdvance (meterReset s))
  | fill {s t} (another : Bool) (hw : memWriteWord s (2 * s.acc.idx) 0 = .ok t) : FgBlock .stop s (fgLoop another t)
  | state {s} : FgBlock .getState s (fgFinish .ok s.stream.code Text.spaces s)
  | text {s c} : FgBlock (.format c) s (fgFinish .ok 0 (formatText s.params c s.tone) s)
  | noLegacy {s on} (hl : s.params.hasLegacyHpMute = false) : FgBlock (.setHpMute on) s (raiseIllegal s)

theorem pcmMuteBlock_isBlock (i : Instr) (val : Byte) (s : State)
    (h : ∀ reg ∈ s.params.regMap.pcmMute, (reg, val) ∈ commandWrites s.params s.tone i) :
    FgBlock i s (pcmMuteBlock val s) := by
  unfold pcmMuteBlock
  split
  · rename_i reg hr
    exact .mute _ hr (h reg (List.mem_of_getElem? hr))
  · rename_i hr
    exact .muteNone hr

theorem toneWrite_isBlock {i : Instr} {k : Nat} {s t : State} (h : toneWrite k s = .next t)
    (hi : commandWrites s.params s.tone i
      = [(s.params.regMap.toneGain, toneGainByte s.params s.tone), (s.params.regMap.toneCfg, toneCfgByte s.params s.tone)])
    (hl : ∀ on, i ≠ .setHpMute on) : FgBlock i s t := by
  unfold toneWrite at h
  split at h
  · cases h; exact .bus (by simp [hi])
  · split at h
    · cases h; exact .busLast (by simp [hi]) fun on h => absurd h (hl on)
    · cases h

theorem volumeWrite_isBlock {i : Instr} {a b c : Byte} {s t : State} (h : volumeWrite a b c s = .next t)
    (hi : commandWrites s.params s.tone i = [(a, c), (b, c)]) (hl : ∀ on, i ≠ .setHpMute on) : FgBlock i s t := by
  unfold volumeWrite at h
  split at h
  · cases h; exact .bus (by simp [hi])
  · cases h; exact .busLast (by simp [hi]) fun on h => absurd h (hl on)
  · cases h

/-- What `exec` can do with a command. -/
theorem exec_isBlock {i : Instr} {s t : State} (hc : i.isCommand = true) (h : exec i s = .next t) : FgBlock i s t := by
  cases i with
  | init =>
    simp only [exec, execInit] at h
    split at h <;> cases h
    · exact .assertRst
    · exact .pass
    · exact .releaseRst
    · exact .clockOn
    · exact .pass
    all_goals first | exact .bus (by simp [commandWrites]) | exact .busLast (by simp [commandWrites]) (by simp)
  | pdn =>
    simp only [exec, execPdn] at h
    split at h <;> cases h
    · exact .clearFail
    · exact pcmMuteBlock_isBlock _ _ _ fun reg hr => by simp [commandWrites, hr]
    · exact .bus (by simp [commandWrites])
    · exact .bus (by simp [commandWrites])
    · exact .finishBus (.inl rfl)
  | setMvol db => exact volumeWrite_isBlock h rfl (by simp)
  | setHpvol db => exact volumeWrite_isBlock h rfl (by simp)
  | setMute on =>
    simp only [exec, execSetMute] at h
    split at h <;> cases h
    · exact .clearFail
    · exact pcmMuteBlock_isBlock _ _ _ fun reg hr => by simp [commandWrites, hr]
    · exact .finishBus (.inr (.inl ⟨on, rfl⟩))
  | setHpMute on =>
    simp only [exec, execSetHpMute] at h
    split at h
    · split at h <;> rename_i hl <;> cases h
      · exact .busLast (by simp [commandWrites]) fun _ _ => hl
      · exact .noLegacy (by simpa using hl)
    · cases h
  | setTone b tr f g =>
    simp only [exec, execSetTone] at h
    split at h
    · cases h; exact .tone (i := .setTone b tr f g) (.inl ⟨b, tr, f, g, rfl⟩)
    · exact toneWrite_isBlock h rfl (by simp)
  | play =>
    simp only [exec, execPlay] at h
    split at h <;> cases h
    · exact .stream
    · exact .start
    · exact .clearFail
    · exact pcmMuteBlock_isBlock _ _ _ fun reg hr => by simp [commandWrites, hr]
    · exact .finishBus (.inr (.inr (.inl rfl)))
  | stop =>
    simp only [exec, execStop] at h
    split at h
    · cases h; exact .clearFail
    · cases h; exact pcmMuteBlock_isBlock _ _ _ fun reg hr => by simp [commandWrites, hr]
    · cases h; exact .stopStream
    · cases h; exact .clearMeter
    · unfold zeroFillBlock at h
      split at h
      · cases h; exact .fill _ (by assumption)
      · cases h
    · cases h; exact .finishBus (.inr (.inr (.inr rfl)))
    · cases h
  | getState =>
    simp only [exec, execGetState] at h
    split at h <;> cases h
    exact .state
  | inc c =>
    simp only [exec, execInc] at h
    split at h
    · cases h; exact .tone (i := .inc c) (.inr (.inl ⟨c, rfl⟩))
    · exact toneWrite_isBlock h rfl (by simp)
  | dec c =>
    simp only [exec, execDec] at h
    split at h
    · cases h; exact .tone (i := .dec c) (.inr (.inr ⟨c, rfl⟩))
    · exact toneWrite_isBlock h rfl (by simp)
  | format c =>
    simp only [exec, execFormat] at h
    split at h <;> cases h
    exact .text
  | evtHt => cases hc
  | evtTc => cases hc

/-! ### A handler's block -/

/-- The blocks of the handler of event `e`, with the position each stands at. -/
inductive IrqBlock (e : Event) : State → State → Prop
  | target {s} (hp : s.irq.pos = 0) : IrqBlock e s (irqGoto 1 { s with target := Event.half e })
  | stopped {s} (hp : s.irq.pos = 1) (hs : s.stream = .stopped) : IrqBlock e s (irqGoto 5 s)
  | streaming {s} (hp : s.irq.pos = 1) (hs : s.stream = .streaming) : IrqBlock e s (irqGoto 2 s)
  | read {s} (hp : s.irq.pos = 2) : IrqBlock e s (refillRead s)
  | write {s t} (hp : s.irq.pos = 3)
      (hw : memWriteWord s (halfBase s.params s.target + 2 * s.irq.idx) (sampleOf s.irq.data s.irq.idx) = .ok t)
      (hi : s.irq.idx + 1 < s.params.halfWords) : IrqBlock e s { t with irq := { t.irq with idx := t.irq.idx + 1 } }
  | writeLast {s t} (hp : s.irq.pos = 3)
      (hw : memWriteWord s (halfBase s.params s.target + 2 * s.irq.idx) (sampleOf s.irq.data s.irq.idx) = .ok t)
      (hi : ¬ s.irq.idx + 1 < s.params.halfWords) : IrqBlock e s (irqGoto 4 t)
  | meter {s} (hp : s.irq.pos = 4) : IrqBlock e s (refillMeter s)
  | ret {s} (hp : s.irq.pos = 5) : IrqBlock e s (irqReturn s)

/-- What `exec` can do with an event. -/
theorem exec_isIrqBlock {e : Event} {s t : State} (h : exec e.handler s = .next t) : IrqBlock e s t := by
  have hrefill : ∀ {u : State}, refill s = .next u → IrqBlock e s u := by
    intro u hu
    unfold refill at hu
    split at hu
    · rename_i hp
      cases hu
      unfold refillGuard
      split
      · exact .stopped hp (by assumption)
      · exact .streaming hp (by assumption)
    · cases hu; exact .read (by assumption)
    · rename_i hp
      unfold refillWrite at hu
      split at hu
      · rename_i hw
        split at hu <;> cases hu
        · exact .write hp hw (by assumption)
        · exact .writeLast hp hw (by assumption)
      · cases hu
    · cases hu; exact .meter (by assumption)
    · cases hu; exact .ret (by assumption)
    · cases hu
  cases e
  · simp only [Event.handler, exec, execEvtHt] at h
    split at h
    · cases h; exact .target (by assumption)
    · exact hrefill h
  · simp only [Event.handler, exec, execEvtTc] at h
    split at h
    · cases h; exact .target (by assumption)
    · exact hrefill h

/-! ### The step of the context, and of the machine -/

/-- What the step of the enabled context can do. -/
theorem contextStep_cases {s t : State} (h : contextStep s = .next t) :
    (s.irq.active = true ∧ IrqBlock s.irq.evt s t) ∨
    (s.irq.active = false ∧ s.pending = true ∧ t = irqEnter s) ∨
    (s.irqEnabled = false ∧ s.fg.busy = true ∧
      ∃ i, s.fg.cmd = some (.command i) ∧ i.isCommand = true ∧ FgBlock i s t) ∨
    (s.irqEnabled = false ∧ s.fg.busy = true ∧ (∃ why, s.fg.cmd = some (.illegal why)) ∧ t = raiseIllegal s) ∨
    (s.irqEnabled = false ∧ s.fg.busy = false ∧ t = takeCommand s) := by
  unfold contextStep at h
  split at h
  · rename_i he
    unfold irqStep at h
    split at h
    · exact .inl ⟨by assumption, exec_isIrqBlock h⟩
    · rename_i ha
      cases h
      have ha : s.irq.active = false := by simpa using ha
      exact .inr (.inl ⟨ha, by simpa [State.irqEnabled, ha] using he, rfl⟩)
  · rename_i he
    have he : s.irqEnabled = false := by simpa using he
    unfold fgStep at h
    split at h
    · rename_i hb
      unfold commandStep at h
      split at h
      · split at h
        · rename_i i hc hi
          exact .inr (.inr (.inl ⟨he, hb, i, hc, hi, exec_isBlock hi h⟩))
        · cases h
      · cases h; exact .inr (.inr (.inr (.inl ⟨he, hb, ⟨_, by assumption⟩, rfl⟩)))
      · cases h
    · cases h; exact .inr (.inr (.inr (.inr ⟨he, by simpa using ‹¬ s.fg.busy = true›, rfl⟩)))

/-- The state with another turn feed. -/
def State.withTurn (f : Feed Turn) (s : State) : State := { s with inputs := { s.inputs with turn := f } }

theorem drawTurn_snd (s : State) : (drawTurn s).2 = s.withTurn (s.inputs.turn.draw Config.nextTurn).2 := rfl

/-- What one step of the machine can do: wait, a transfer step, or a step of the context; the turn may have been drawn. -/
theorem step_cases {s t : State} (h : step s = .next t) :
    s.params.valid = true ∧
    ((s.dmaEnabled = false ∧ s.irqEnabled = false ∧ s.fgEnabled = false ∧ t = s) ∨
     (s.dmaEnabled = true ∧ ∃ f, dmaStep (s.withTurn f) = .next t) ∨
     ((s.irqEnabled || s.fgEnabled) = true ∧ ∃ f, contextStep (s.withTurn f) = .next t)) := by
  unfold step nextStep at h
  split at h
  · rename_i hv
    refine ⟨hv, ?_⟩
    split at h
    · rename_i h1 h2
      cases h
      simp only [Bool.or_eq_false_iff] at h2
      exact .inl ⟨h1, h2.1, h2.2, rfl⟩
    · rename_i h1 _
      exact .inr (.inl ⟨h1, s.inputs.turn, h⟩)
    · rename_i _ h2
      exact .inr (.inr ⟨h2, s.inputs.turn, h⟩)
    · rename_i h1 h2
      split at h
      · rename_i ht
        refine .inr (.inl ⟨h1, (s.inputs.turn.draw Config.nextTurn).2, ?_⟩)
        rw [← drawTurn_snd, ht]; exact h
      · rename_i ht
        refine .inr (.inr ⟨h2, (s.inputs.turn.draw Config.nextTurn).2, ?_⟩)
        rw [← drawTurn_snd, ht]; exact h
  · cases h

end Sys2Proof.Machine
end

