-- ==== Sys2Proof/Laws/Frames.lean ====
section
/-! SUPPORT. What a block leaves as it was, said once per kind of block, over the case analyses of Steps.lean: the
fields no command writes, what a command can do to the stream, the bus, `RESULT` and the transfer, the fields no handler
block writes, and what an entry and a taking of a command change. -/

namespace Sys2Proof.Machine

/-- The fields that no block of a command writes. -/
structure FgKeeps (s t : State) : Prop where
  params : t.params = s.params
  port : t.port = s.port
  target : t.target = s.target
  irq : t.irq = s.irq
  src : t.inputs.src = s.inputs.src
  turn : t.inputs.turn = s.inputs.turn
  first : t.inputs.first = s.inputs.first
  srcTrace : t.traces.src = s.traces.src
  audioTrace : t.traces.audio = s.traces.audio

theorem FgBlock.keeps {i : Instr} {s t : State} (h : FgBlock i s t) : FgKeeps s t := by
  cases h
  case fill hw =>
    obtain ⟨-, -, rfl⟩ := memWriteWord_cases hw
    constructor <;> simp
  all_goals constructor <;> simp [busBlock, busLastBlock, fgTransact_eq, fgFinishBus_eq, fgFinish_eq, ended, endedBus,
    setCodecRst, setSclkEn, meterReset, setMeter, raiseIllegal, wrote]

/-- What a block of a command can do to the transfer, the clock and the pending bits. -/
structure TransferKept (s t : State) : Prop where
  started : s.started = true → t.started = true
  running : s.dma.running = true → t.dma.running = true
  clock : s.pins.sclkEn = true → t.pins.sclkEn = true
  dma : s.started = true → t.dma = s.dma
  evt : s.started = true → t.evt = s.evt
  evtOr : t.evt = s.evt ∨ t.evt = ⟨false, false⟩

theorem FgBlock.transferKept {i : Instr} {s t : State} (h : FgBlock i s t) : TransferKept s t := by
  cases h
  case fill hw =>
    obtain ⟨-, -, rfl⟩ := memWriteWord_cases hw
    constructor <;> simp
  case start =>
    unfold sbmStart
    split <;> constructor <;> simp_all
  all_goals constructor <;> simp [busBlock, busLastBlock, fgTransact_eq, fgFinishBus_eq, fgFinish_eq, ended, endedBus,
    setCodecRst, setSclkEn, meterReset, setMeter, raiseIllegal, wrote]

/-- What a block of a command can do to the stream state. -/
theorem FgBlock.stream_cases {i : Instr} {s t : State} (h : FgBlock i s t) :
    t.stream = s.stream ∨ (i = .play ∧ t.stream = .streaming) ∨ (i = .stop ∧ t.stream = .stopped) := by
  cases h
  case stream => exact .inr (.inl ⟨rfl, rfl⟩)
  case stopStream => exact .inr (.inr ⟨rfl, rfl⟩)
  case fill hw =>
    obtain ⟨-, -, rfl⟩ := memWriteWord_cases hw
    simp
  all_goals simp [busBlock, busLastBlock, fgTransact_eq, fgFinishBus_eq, fgFinish_eq, ended, endedBus, setCodecRst,
    setSclkEn, meterReset, setMeter, raiseIllegal, wrote]

/-- What a block of a command can do on the bus: nothing, or one of the command's own writes. -/
theorem FgBlock.bus_cases {i : Instr} {s t : State} (h : FgBlock i s t) :
    (t.traces.bus = s.traces.bus ∧ t.inputs.bus = s.inputs.bus) ∨
    ∃ reg val, (reg, val) ∈ commandWrites s.params s.tone i ∧
      t.traces.bus = s.traces.bus ++ [⟨s.params.codecAddr, reg, val, s.busAnswer⟩] ∧
      t.inputs.bus = ⟨s.inputs.bus.given.tail, s.inputs.bus.drawn + 1⟩ := by
  cases h
  case bus h => exact .inr ⟨_, _, h, by simp [busBlock, fgTransact_eq, wrote]⟩
  case busLast h _ => exact .inr ⟨_, _, h, by simp [busLastBlock_eq, wrote, endedBus, ended]⟩
  case mute hr h => exact .inr ⟨_, _, h, by simp [fgTransact_eq, wrote]⟩
  case fill hw =>
    obtain ⟨-, -, rfl⟩ := memWriteWord_cases hw
    simp
  all_goals simp [fgFinishBus_eq, fgFinish_eq, ended, endedBus, setCodecRst, setSclkEn, meterReset, setMeter,
    raiseIllegal]

/-- The report a command can end with (10_state.md R45, 60_exceptions.md R302, 30_encoding.md R123). -/
structure Reported (i : Instr) (s : State) (r : Result) : Prop where
  value : i ≠ .getState → r.value = 0
  text : (∀ ctl, i ≠ .format ctl) → r.text = Text.spaces
  ok : i = .getState ∨ (∃ ctl, i = .format ctl) → r.status = .ok
  illegal : r.status = .illegal ↔ s.params.hasLegacyHpMute = false ∧ ∃ on, i = .setHpMute on

theorem busStatus_ne_illegal (fail : Bool) : busStatus fail ≠ .illegal := by cases fail <;> decide

/-- What a block of a command can do to `RESULT`: nothing, or report it as the command's last block. -/
theorem FgBlock.result_cases {i : Instr} {s t : State} (h : FgBlock i s t) :
    (t.traces.result = s.traces.result ∧ t.result = s.result) ∨
    (t.fg = ⟨false, none, 0, none⟩ ∧ t.traces.result = s.traces.result ++ [t.result] ∧ Reported i s t.result) := by
  cases h
  case busLast hw hl =>
    refine .inr ⟨rfl, rfl, fun _ => rfl, fun _ => rfl, ?_, ?_⟩
    · rintro (rfl | ⟨ctl, rfl⟩) <;> simp [commandWrites] at hw
    · refine ⟨fun h => absurd h (busStatus_ne_illegal _), ?_⟩
      rintro ⟨h, on, rfl⟩
      rw [hl on rfl] at h
      cases h
  case finishBus hi =>
    refine .inr ⟨rfl, rfl, fun _ => rfl, fun _ => rfl, ?_, fun h => absurd h (busStatus_ne_illegal _), ?_⟩
    · rintro (rfl | ⟨ctl, rfl⟩) <;> simp at hi
    · rintro ⟨-, on, rfl⟩
      simp at hi
  case fill hw =>
    obtain ⟨-, -, rfl⟩ := memWriteWord_cases hw
    simp
  case state => exact .inr ⟨rfl, rfl, by simp, fun _ => rfl, fun _ => rfl, by simp [fgFinish]⟩
  case text => exact .inr ⟨rfl, rfl, fun _ => rfl, by simp, fun _ => rfl, by simp [fgFinish]⟩
  case noLegacy hl =>
    exact .inr ⟨rfl, rfl, fun _ => rfl, fun _ => rfl, by simp, by simpa [raiseIllegal, fgFinish] using hl⟩
  all_goals simp [busBlock, fgTransact_eq, wrote, setCodecRst, setSclkEn, meterReset, setMeter]

/-- The fields that no block of a handler writes. -/
structure IrqKeeps (s t : State) : Prop where
  params : t.params = s.params
  port : t.port = s.port
  fg : t.fg = s.fg
  stream : t.stream = s.stream
  started : t.started = s.started
  tone : t.tone = s.tone
  dma : t.dma = s.dma
  evt : t.evt = s.evt
  pins : t.pins = s.pins
  result : t.result = s.result
  busTrace : t.traces.bus = s.traces.bus
  audioTrace : t.traces.audio = s.traces.audio
  pinTrace : t.traces.pin = s.traces.pin
  resultTrace : t.traces.result = s.traces.result
  bus : t.inputs.bus = s.inputs.bus
  turn : t.inputs.turn = s.inputs.turn
  first : t.inputs.first = s.inputs.first

theorem IrqBlock.keeps {e : Event} {s t : State} (h : IrqBlock e s t) : IrqKeeps s t := by
  cases h
  case write hw _ =>
    obtain ⟨-, -, rfl⟩ := memWriteWord_cases hw
    constructor <;> simp
  case writeLast hw _ =>
    obtain ⟨-, -, rfl⟩ := memWriteWord_cases hw
    constructor <;> simp
  all_goals constructor <;> simp [irqGoto, refillRead, srcRead, refillMeter, setMeter, irqReturn]

/-- What an entry does: one pending event is taken and its bit cleared; the choice may have been drawn. -/
theorem irqEnter_cases (s : State) :
    ∃ e f, irqEnter s = { s with
        inputs := { s.inputs with first := f }
        evt := clearPending e s.evt
        irq := ⟨true, e, 0, [], 0⟩ } ∧
      (s.pending = true → (e = .ht → s.evt.ht = true) ∧ (e = .tc → s.evt.tc = true)) := by
  unfold irqEnter chooseEvent
  split
  · rename_i h
    simp only [Bool.and_eq_true] at h
    exact ⟨_, _, rfl, fun _ => ⟨fun _ => h.1, fun _ => h.2⟩⟩
  · split
    · exact ⟨_, s.inputs.first, rfl, by simp_all⟩
    · exact ⟨_, s.inputs.first, rfl, by simp_all [State.pending]⟩

/-- What taking a command does: nothing where none is whole, else the words leave the port and the command is in
progress. -/
theorem takeCommand_cases (s : State) :
    (s.waiting = none ∧ takeCommand s = s) ∨
    ∃ d rest, s.waiting = some (d, rest) ∧
      takeCommand s = { s with port := rest, fg := ⟨true, some d, 0, some ⟨false, 0⟩⟩ } := by
  unfold takeCommand
  split
  · rename_i h
    exact .inr ⟨_, _, h, rfl⟩
  · exact .inl ⟨by assumption, rfl⟩

/-- The words after the first whole command are an end of the port's words, whole commands where those were. -/
theorem takeCommandWords_rest {legacy : Bool} {ws rest : List Word} {d : Decoded}
    (h : takeCommandWords legacy ws = some (d, rest)) :
    rest <:+ ws ∧ (wholeCommands ws = true → wholeCommands rest = true) := by
  unfold takeCommandWords at h
  split at h
  · cases h
  · split at h
    · rename_i h2
      split at h <;> cases h
      exact ⟨⟨[_, _], rfl⟩, fun hw => by rw [wholeCommands.eq_def] at hw; simpa [h2] using hw⟩
    · rename_i h2
      cases h
      exact ⟨⟨[_], rfl⟩, fun hw => by rw [wholeCommands.eq_def] at hw; simpa [h2] using hw⟩

end Sys2Proof.Machine
end

