-- ==== Sys2Proof/Laws/PerInstr.lean ====
section
/-! SUPPORT. The family `Encoding`: for each instruction, that its words begin with the opcode of its row of the opcode
map (30_encoding.md R119) and are as many as that opcode consumes (R111), and that an event has none (R126). One lemma
per constructor. -/

namespace Sys2Proof.Laws.Encoding

/-- The opcode of each command's row (R119); an event has none. -/
def opcodeOf : Instr → Option (BitVec 4)
  | .init => some 0x1
  | .pdn => some 0x2
  | .setMvol _ => some 0x3
  | .setHpvol _ => some 0x4
  | .setMute _ => some 0x5
  | .setHpMute _ => some 0x6
  | .setTone _ _ _ _ => some 0x7
  | .play => some 0x8
  | .stop => some 0x9
  | .getState => some 0xA
  | .inc _ => some 0xB
  | .dec _ => some 0xC
  | .format _ => some 0xD
  | .evtHt => none
  | .evtTc => none

/-- The words of `i` are those its opcode announces. -/
def Statement (i : Instr) : Prop :=
  match encode i with
  | [] => i.isCommand = false ∧ opcodeOf i = none
  | w0 :: ws => i.isCommand = true ∧ opcodeOf i = some (opcode w0) ∧ ws.length + 1 = commandLength w0

/-- A word of a known opcode other than 0x7 is a whole command. -/
theorem one_word {op : BitVec 4} {w : Word} (h : opcode w = op) (h7 : op ≠ 0x7#4) :
    some op = some (opcode w) ∧ 0 + 1 = commandLength w := by
  subst h
  exact ⟨rfl, by simp [commandLength, h7]⟩

theorem init : Statement .init := ⟨rfl, one_word (formatF0_op 0x1) (by decide)⟩

theorem pdn : Statement .pdn := ⟨rfl, one_word (formatF0_op 0x2) (by decide)⟩

theorem setMvol (db : DbQ) : Statement (.setMvol db) := ⟨rfl, one_word (formatFV_op 0x3 db) (by decide)⟩

theorem setHpvol (db : DbQ) : Statement (.setHpvol db) := ⟨rfl, one_word (formatFV_op 0x4 db) (by decide)⟩

theorem setMute (on : Bool) : Statement (.setMute on) := ⟨rfl, one_word (formatFB_op 0x5 on) (by decide)⟩

theorem setHpMute (on : Bool) : Statement (.setHpMute on) := ⟨rfl, one_word (formatFB_op 0x6 on) (by decide)⟩

theorem setTone (bass treble : DbQ) (bf tf : BitVec 2) : Statement (.setTone bass treble bf tf) :=
  ⟨rfl, congrArg some (formatFT0_op bass bf tf).symm, by
    rw [commandLength, formatFT0_op]
    rfl⟩

theorem play : Statement .play := ⟨rfl, one_word (formatF0_op 0x8) (by decide)⟩

theorem stop : Statement .stop := ⟨rfl, one_word (formatF0_op 0x9) (by decide)⟩

theorem getState : Statement .getState := ⟨rfl, one_word (formatF0_op 0xA) (by decide)⟩

theorem inc (ctl : Ctl) : Statement (.inc ctl) := ⟨rfl, one_word (formatFC_op 0xB ctl) (by decide)⟩

theorem dec (ctl : Ctl) : Statement (.dec ctl) := ⟨rfl, one_word (formatFC_op 0xC ctl) (by decide)⟩

theorem format (ctl : Ctl) : Statement (.format ctl) := ⟨rfl, one_word (formatFC_op 0xD ctl) (by decide)⟩

theorem evtHt : Statement .evtHt := ⟨rfl, rfl⟩

theorem evtTc : Statement .evtTc := ⟨rfl, rfl⟩

end Sys2Proof.Laws.Encoding
end

