-- ==== Sys2Proof/Tests/Slice0.lean ====
section
/-! SUPPORT. The model's own tests, each a named theorem on one step of a small state, its expected result taken from
95_test_vectors.md (V1 to V12) or from the rule named; and the witnesses: for every statement of
Certificates/Slice0/Obligations.lean that has hypotheses, a concrete state and operands that meet them, clause by
clause. -/

namespace Sys2Proof.Machine.Tests

open Sys2Proof Sys2Proof.Machine

/-! ### Small states -/

/-- The reference parameters with `HALF_BYTES = 8`, as the stream vectors have them. -/
def small : Params := { Params.reference with halfBytes := 8 }

/-- Reset, with `HALF_BYTES = 8`. -/
def base : State := { State.reset with params := small }

/-- Reset, with bus results given. -/
def answered (rs : List BusResult) : State := { base with inputs := { base.inputs with bus := ⟨rs, 0⟩ } }

/-- Streaming: started, clocked, the transfer at word 4, the buffer's first bytes set. -/
def playing : State :=
  { base with
    stream := .streaming
    started := true
    buf := [(0, 0x11), (1, 0x22), (7, 0x33)]
    dma := ⟨true, 4⟩
    pins := ⟨.released, true⟩ }

/-- Streaming, with the handler of an event in hand at a position. -/
def handling (e : Event) (pos : Nat) (data : List Byte) (idx : Nat) : State :=
  { playing with target := Event.half e, irq := ⟨true, e, pos, data, idx⟩ }

/-- A command in progress at a block, with a loop index. -/
def inProgress (i : Instr) (pos idx : Nat) (s : State) : State :=
  { s with fg := ⟨true, some (.command i), pos, some ⟨false, idx⟩⟩ }

/-- The next state of an outcome, for tests and witnesses of states that step. -/
def after (o : Host.Outcome State Fault Refusal) : Option State :=
  match o with
  | .next t => some t
  | .fault _ => none
  | .refused _ => none

/-- The last bus record's register, value and result. -/
def lastWrite (s : State) : Option (Byte × Byte × BusResult) :=
  s.traces.bus.getLast?.map fun r => (r.reg, r.val, r.result)

theorem after_eq {o : Host.Outcome State Fault Refusal} (h : (after o).isSome = true) : ∃ t, o = .next t := by
  cases o with
  | next t => exact ⟨t, rfl⟩
  | fault f => cases h
  | refused r => cases h

/-! ### WellFormed: the one check refuses its ill-formed term (R123) -/

theorem test_wellFormed_refuses_hpMute_without_parameter : (Instr.setHpMute true).wellFormed false = false := by decide

theorem test_wellFormed_accepts_hpMute_with_parameter : (Instr.setHpMute true).wellFormed true = true := by decide

theorem test_wellFormedCommand_refuses_event : Instr.evtHt.wellFormedCommand true = false := by decide

/-! ### Decoding, on words written out (V1; the formats of R113 to R117) -/

-- 0001 0000…0
theorem test_decode_init : takeCommandWords true [0x10000000] = some (.command .init, []) := by decide

theorem test_decode_init_reserved : takeCommandWords true [0x10000001] = some (.illegal .reservedBits, []) := by decide

-- 0010 0000…0
theorem test_decode_pdn : takeCommandWords true [0x20000000] = some (.command .pdn, []) := by decide

-- 0011 0000 0000 0000 1111 0101 1000 0000
theorem test_decode_setMvol :
    takeCommandWords true [0x3000F580] = some (.command (.setMvol (BitVec.ofInt 16 (-2688))), []) := by decide

-- 0100 0000 0000 0000 1111 1010 0000 0000
theorem test_decode_setHpvol :
    takeCommandWords true [0x4000FA00] = some (.command (.setHpvol (BitVec.ofInt 16 (-1536))), []) := by decide

-- 0101 0…0 1
theorem test_decode_setMute : takeCommandWords true [0x50000001] = some (.command (.setMute true), []) := by decide

-- 0110 0…0 1
theorem test_decode_setHpMute : takeCommandWords true [0x60000001] = some (.command (.setHpMute true), []) := by decide

theorem test_decode_setHpMute_absent :
    takeCommandWords false [0x60000001] = some (.illegal .noLegacyHpMute, []) := by decide

-- 0111 0000 0000 10 01 0000 1001 0000 0000, then 0…0 1111 0101 1000 0000; the word behind stays
theorem test_decode_setTone :
    takeCommandWords true [0x70090900, 0x0000F580, 0x80000000]
      = some (.command (.setTone (BitVec.ofInt 16 2304) (BitVec.ofInt 16 (-2688)) 1 2), [0x80000000]) := by decide

theorem test_decode_setTone_reserved_takes_both :
    takeCommandWords true [0x70100000, 0x00000000, 0x80000000] = some (.illegal .reservedBits, [0x80000000]) := by decide

-- 1000, 1001, 1010, each with 28 zeros
theorem test_decode_play : takeCommandWords true [0x80000000] = some (.command .play, []) := by decide

theorem test_decode_stop : takeCommandWords true [0x90000000] = some (.command .stop, []) := by decide

theorem test_decode_getState : takeCommandWords true [0xA0000000] = some (.command .getState, []) := by decide

-- 1011 0…0 10, 1100 0…0 10, 1101 0…0 01
theorem test_decode_inc : takeCommandWords true [0xB0000002] = some (.command (.inc .bassFreq), []) := by decide

theorem test_decode_dec : takeCommandWords true [0xC0000002] = some (.command (.dec .bassFreq), []) := by decide

theorem test_decode_format : takeCommandWords true [0xD0000001] = some (.command (.format .treble), []) := by decide

theorem test_decode_reserved : takeCommandWords true [0xF0000000] = some (.illegal .reservedOpcode, []) := by decide

-- EVT_STATUS bit 0, bit 1, both, none (R126)
theorem test_decode_events :
    selectedEvents 0b01 = [.ht] ∧ selectedEvents 0b10 = [.tc] ∧ selectedEvents 0b11 = [.ht, .tc] ∧
      selectedEvents 0b00 = [] := by decide

theorem test_decodeTable_events : decodeTableWord 8 1 = some .evtHt ∧ decodeTableWord 8 2 = some .evtTc := by decide

/-! ### The assembler (V1) -/

theorem test_assemble_decimals :
    assemble "SET_MVOL -0.5" = some [0x3000FF80] ∧ assemble "SET_MVOL 0.1" = none ∧
      assemble "SET_MVOL 200" = none := by decide

-- R128's own examples: −10.5, 12, −0.25 and +1.5 dB are −2688, 3072, −64 and 384; and the bounds −128 and 128.
theorem test_decibel_literals :
    dbOperand ['-', '1', '0', '.', '5'] = some (BitVec.ofInt 16 (-2688)) ∧
      dbOperand ['1', '2'] = some 3072 ∧ dbOperand ['-', '0', '.', '2', '5'] = some (BitVec.ofInt 16 (-64)) ∧
      dbOperand ['+', '1', '.', '5'] = some 384 := by decide

theorem test_decibel_bounds :
    dbOperand ['-', '1', '2', '8'] = some 0x8000 ∧ dbOperand ['1', '2', '8'] = none ∧
      dbOperand ['-', '1', '2', '8', '.', '5'] = none := by decide

theorem test_assemble_raw_and_tone :
    assemble "SET_MVOL #0x9A00" = some [0x30009A00] ∧
      assemble "SET_TONE 9, -10.5, 1, 2" = some [0x70090900, 0x0000F580] := by decide

/-! ### One step of each instruction -/

-- V5: the first assertion of the reset line is no change; the release is.
theorem test_init_asserts_without_record :
    (after (exec .init (inProgress .init 0 0 base))).map (fun t => t.traces.pin) = some [] := by decide

-- V5: the last record is 02←9E; a NACK makes the status FAIL.
theorem test_init_last_write :
    (after (exec .init (inProgress .init 9 0 (answered [.nack])))).map (fun t => (lastWrite t, t.result.status))
      = some (some (0x02, 0x9E, .nack), .fail) := by decide

-- V5: PDN's first mute record is 1A←80, and the loop has another register to come.
theorem test_pdn_mutes_in_list_order :
    (after (exec .pdn (inProgress .pdn 1 0 (answered [.ok])))).map (fun t => (lastWrite t, t.fg.pos, t.acc.idx))
      = some (some (0x1A, 0x80, .ok), 1, 1) := by decide

-- V5: after the mute comes 0E←04.
theorem test_pdn_ramp_off :
    (after (exec .pdn (inProgress .pdn 2 0 (answered [.ok])))).map lastWrite
      = some (some (0x0E, 0x04, .ok)) := by decide

-- V2: −10.5 dB is the byte EB; −1/256 dB rounds down to FF.
theorem test_setMvol_left :
    (after (exec (.setMvol 0xF580) (inProgress (.setMvol 0xF580) 0 0 (answered [.nack])))).map
      (fun t => (lastWrite t, t.acc.fail)) = some (some (0x20, 0xEB, .nack), true) := by decide

theorem test_setMvol_rounds_down :
    (after (exec (.setMvol 0xFFFF) (inProgress (.setMvol 0xFFFF) 1 0 (answered [.ok])))).map lastWrite
      = some (some (0x21, 0xFF, .ok)) := by decide

-- V2: above the headphone maximum the byte is 00; below the minimum it is 34.
theorem test_setHpvol_clamps_high :
    (after (exec (.setHpvol 0x0C00) (inProgress (.setHpvol 0x0C00) 0 0 (answered [.ok])))).map lastWrite
      = some (some (0x22, 0x00, .ok)) := by decide

theorem test_setHpvol_clamps_low :
    (after (exec (.setHpvol 0x8000) (inProgress (.setHpvol 0x8000) 1 0 (answered [.ok])))).map lastWrite
      = some (some (0x23, 0x34, .ok)) := by decide

-- V3: the second register is 1B, and the loop ends there.
theorem test_setMute_second_register :
    (after (exec (.setMute true) (inProgress (.setMute true) 1 1 (answered [.ok])))).map
      (fun t => (lastWrite t, t.fg.pos)) = some (some (0x1B, 0x80, .ok), 2) := by decide

-- V3: 0F←C0 and 0F←00.
theorem test_setHpMute_on_and_off :
    (after (exec (.setHpMute true) (inProgress (.setHpMute true) 0 0 (answered [.ok])))).map lastWrite
        = some (some (0x0F, 0xC0, .ok)) ∧
      (after (exec (.setHpMute false) (inProgress (.setHpMute false) 0 0 (answered [.ok])))).map lastWrite
        = some (some (0x0F, 0x00, .ok)) := by decide

-- V4: 9 dB and −10.5 dB are 6 and −7 steps; then 1F←F2.
theorem test_setTone_quantises :
    (after (exec (.setTone 0x0900 0xF580 1 2) (inProgress (.setTone 0x0900 0xF580 1 2) 0 0 base))).map
      (fun t => t.tone) = some ⟨6, -7, 1, 2⟩ := by decide

-- V4: in the state (6, −7, 1, 2) the bytes are F2 and 33.
theorem test_setTone_bytes :
    toneGainByte small ⟨6, -7, 1, 2⟩ = 0xF2 ∧ toneCfgByte small ⟨6, -7, 1, 2⟩ = 0x33 := by decide

-- V6: the start guard leaves a started transfer where it is.
theorem test_play_start_guard :
    (after (exec .play (inProgress .play 1 0 { playing with evt := ⟨true, false⟩ }))).map (fun t => (t.dma, t.evt))
      = some (⟨true, 4⟩, ⟨true, false⟩) := by decide

theorem test_play_starts :
    (after (exec .play (inProgress .play 1 0 base))).map (fun t => (t.started, t.dma, t.evt))
      = some (true, ⟨true, 0⟩, ⟨false, false⟩) := by decide

-- V8: word 0 of the buffer is zeroed, byte 7 is not yet.
theorem test_stop_fills_one_word :
    (after (exec .stop (inProgress .stop 4 0 playing))).map (fun t => (t.buf, t.acc.idx))
      = some ([(7, 0x33)], 1) := by decide

-- V10: the meter is 0, 0, false.
theorem test_stop_resets_meter :
    (after (exec .stop (inProgress .stop 3 0 { playing with meter := ⟨5000, 3, true⟩ }))).map
      (fun t => (t.meter, t.traces.meter)) = some (⟨0, 0, false⟩, [false]) := by decide

-- V10: 1 while STREAMING.
theorem test_getState_streaming :
    (after (exec .getState (inProgress .getState 0 0 playing))).map (fun t => (t.result.value, t.fg.busy))
      = some (1, false) := by decide

-- V11: INC BASS saturates at 6; then the gain byte is 82.
theorem test_inc_saturates :
    (after (exec (.inc .bass) (inProgress (.inc .bass) 0 0 { base with tone := ⟨6, 0, 0, 0⟩ }))).map
      (fun t => t.tone) = some ⟨6, 0, 0, 0⟩ := by decide

theorem test_inc_writes_gain :
    (after (exec (.inc .bass) (inProgress (.inc .bass) 1 0 { answered [.ok] with tone := ⟨6, 0, 0, 0⟩ }))).map
      lastWrite = some (some (0x1F, 0x82, .ok)) := by decide

-- V11: DEC BASS saturates at −7; E8: an index at 0 stays.
theorem test_dec_saturates :
    (after (exec (.dec .bass) (inProgress (.dec .bass) 0 0 { base with tone := ⟨-7, 0, 0, 0⟩ }))).map
      (fun t => t.tone) = some ⟨-7, 0, 0, 0⟩ := by decide

theorem test_dec_index_floor :
    (after (exec (.dec .bassFreq) (inProgress (.dec .bassFreq) 0 0 base))).map (fun t => t.tone)
      = some ⟨0, 0, 0, 0⟩ := by decide

-- R280: −7 steps is "-10.5dB"; R281: bass index 1 is "  100Hz".
theorem test_format_gain :
    (after (exec (.format .bass) (inProgress (.format .bass) 0 0 { base with tone := ⟨-7, 0, 0, 0⟩ }))).map
      (fun t => t.result.text.toList) = some (asciiBytes ['-', '1', '0', '.', '5', 'd', 'B']) := by decide

theorem test_format_frequency :
    (after (exec (.format .bassFreq) (inProgress (.format .bassFreq) 0 0 { base with tone := ⟨0, 0, 1, 0⟩ }))).map
      (fun t => t.result.text.toList) = some (asciiBytes [' ', ' ', '1', '0', '0', 'H', 'z']) := by decide

-- V8: EVT_HT sets FIRST_HALF; its first word is 0x1000, low byte first, at address 0.
theorem test_evtHt_target :
    (after (exec .evtHt { handling .ht 0 [] 0 with target := .second })).map (fun t => (t.target, t.irq.pos))
      = some (.first, 1) := by decide

theorem test_evtHt_writes_little_endian :
    (after (exec .evtHt (handling .ht 3 [0x00, 0x10, 0x00, 0xF0, 0xFF, 0x7F, 0x00, 0x80] 0))).map
      (fun t => (t.buf, t.irq.idx)) = some ([(1, 0x10), (7, 0x33)], 1) := by decide

-- V8: EVT_TC writes word 4 at address 8; while STOPPED it goes to its return.
theorem test_evtTc_second_half :
    (after (exec .evtTc (handling .tc 3 [1, 0, 2, 0, 3, 0, 4, 0] 0))).map (fun t => Memory.read t.buf 8)
      = some 1 := by decide

theorem test_evtTc_stopped :
    (after (exec .evtTc { handling .tc 1 [] 0 with stream := .stopped })).map (fun t => (t.irq.pos, t.traces.src))
      = some (5, []) := by decide

/-! ### The transfer, the events, the meter -/

-- V7: from 3 the word w3 goes out, the position is 4, half-complete is pending; from 7 it wraps and full-complete is.
theorem test_dma_half :
    (after (dmaStep { playing with dma := ⟨true, 3⟩ })).map (fun t => (t.traces.audio, t.dma.pos, t.evt))
      = some ([0x3300], 4, ⟨true, false⟩) := by decide

theorem test_dma_wraps :
    (after (dmaStep { playing with dma := ⟨true, 7⟩, evt := ⟨true, false⟩ })).map (fun t => (t.dma.pos, t.evt))
      = some (0, ⟨true, true⟩) := by decide

-- V7: pend 0b11 takes either event.
theorem test_both_pending_tc_first :
    (after (contextStep { playing with
        evt := ⟨true, true⟩, inputs := { playing.inputs with first := ⟨[.tc], 0⟩ } })).map
      (fun t => (t.irq.evt, t.evt)) = some (.tc, ⟨true, false⟩) := by decide

-- V9.
theorem test_meter_average :
    meterAverage 0 32768 = 3276 ∧ meterAverage 3276 0 = 2948 ∧ meterAverage 0 9 = 0 ∧
      meterAverage 32767 32768 = 32767 := by decide

-- V9: update 19 of a full-scale input: counter 8, average 28337, off.
theorem test_meter_on_is_strict : meterUpdate small 32768 ⟨27845, 8, true⟩ = ⟨28337, 9, false⟩ := by decide

theorem test_peak :
    peak 4 [0x00, 0x10, 0x00, 0xF0, 0xFF, 0x7F, 0x00, 0x80] = 32768 ∧
      peak 4 [0x04, 0x00, 0xFD, 0xFF, 0, 0, 0, 0] = 4 := by decide

-- R301: an ILLEGAL command reports and ends.
theorem test_illegal_reports :
    (after (step { base with fg := ⟨true, some (.illegal .reservedBits), 0, some ⟨false, 0⟩⟩ })).map
      (fun t => (t.result.status, t.fg.busy)) = some (.illegal, false) := by decide

/-! ### The placement -/

theorem test_withFetchWord_runs_play :
    (after (step (State.reset.withFetchWord 32 0x80000000))).map (fun t => (t.stream, t.fg.pos))
      = some (.streaming, 1) := by decide

theorem test_withFetchWord_runs_event :
    (after (step (State.reset.withFetchWord 8 2))).map (fun t => t.target) = some .second := by decide

/-! ### Witnesses: encoding -/

theorem witness_EncodedCommandDecodesToItself :
    (Instr.setHpMute true).wellFormedCommand true = true ∧
      (Instr.setTone 0x8000 0x7FFF 3 3).wellFormedCommand false = true := by decide

theorem witness_DecodedWordsAreTheEncoding :
    takeCommandWords true [0x700FFFFF, 0x0000FFFF, 0x00000005]
      = some (.command (.setTone 0xFFFF 0xFFFF 3 3), [0x00000005]) := by decide

theorem witness_DecodingFollowsTheOpcodeMap :
    ((0xD0000000, 0xFFFFFFFC) : Word × Word) ∈ commandRows ∧ (0xD0000003 : Word) &&& 0xFFFFFFFC = 0xD0000000 := by decide

/-- −128.00: a signed literal with two digits after the point, at the lower bound. -/
theorem witness_AssemblerIsExact :
    let whole : List (Fin 10) := [1, 2, 8]
    let fraction : List (Fin 10) := [0, 0]
    ['-'] ∈ [[], ['+'], ['-']] ∧ whole ≠ [] ∧ decimalValue (whole ++ fraction) = 12800 ∧
      (-256 * 12800 : Int) % 10 ^ fraction.length = 0 ∧ (-256 * 12800 : Int) / 10 ^ fraction.length = -32768 := by
  decide

theorem witness_ReservedOpcodesAreIllegal :
    opcode 0x0FFFFFFF = 0x0 ∧ opcode 0xE0000000 = 0xE ∧ opcode 0xFFFFFFFF = 0xF := by decide

theorem witness_OpcodeFixesTheLength :
    opcode 0x6FFFFFFF ≠ 0x7 ∧ opcode 0x80000000 ≠ 0x7 ∧ opcode 0x70000000 = 0x7 := by decide

theorem witness_LegacyMuteNeedsItsParameter : opcode 0x60000000 = 0x6 ∧ opcode 0x6FFFFFFF = 0x6 := by decide

/-! ### Witnesses: taking a command, running it -/

/-- A whole `SET_TONE` at the port of an idle machine without a running transfer. -/
theorem witness_IdleForegroundTakesACommand :
    let s := State.issue [0x70090900, 0x0000F580] base
    s.irqEnabled = false ∧ s.fg.busy = false ∧ s.params.valid = true ∧ s.dmaEnabled = false ∧
      takeCommandWords s.params.hasLegacyHpMute s.port
        = some (.command (.setTone 0x0900 0xF580 1 2), []) := by decide

theorem witness_StepRunsTheDecodedInstruction_foreground :
    let s := inProgress .play 0 0 base
    s.params.valid = true ∧ s.irqEnabled = false ∧ s.fg.busy = true ∧ s.fg.cmd = some (.command .play) ∧
      Instr.play.isCommand = true ∧ s.dmaEnabled = false := by decide

theorem witness_StepRunsTheDecodedInstruction_foreground_turn :
    let s := inProgress .play 0 0 { playing with inputs := { playing.inputs with turn := ⟨[.context], 0⟩ } }
    s.params.valid = true ∧ s.irqEnabled = false ∧ s.fg.busy = true ∧ s.fg.cmd = some (.command .play) ∧
      s.dmaEnabled = true ∧ (drawTurn s).1 = .context := by decide

theorem witness_StepRunsTheDecodedInstruction_handler :
    let s := { handling .ht 0 [] 0 with pins := ⟨.released, false⟩ }
    s.params.valid = true ∧ s.irq.active = true ∧ s.dmaEnabled = false := by decide

theorem witness_StepRunsTheDecodedInstruction_handler_turn :
    let s := { handling .tc 0 [] 0 with inputs := { playing.inputs with turn := ⟨[.context], 0⟩ } }
    s.params.valid = true ∧ s.irq.active = true ∧ s.dmaEnabled = true ∧ (drawTurn s).1 = .context := by decide

theorem witness_AnyEnabledAgentMayStep_transferAlone :
    playing.params.valid = true ∧ playing.dmaEnabled = true ∧ (playing.irqEnabled || playing.fgEnabled) = false := by
  decide

theorem witness_AnyEnabledAgentMayStep_both :
    let s := inProgress .stop 0 0 playing
    s.dmaEnabled = true ∧ (s.irqEnabled || s.fgEnabled) = true := by decide

/-- With both enabled, either turn may be given. -/
theorem witness_AnyEnabledAgentMayStep_given (t : Turn) :
    let s := { inProgress .stop 0 0 playing with inputs := { playing.inputs with turn := ⟨[t], 0⟩ } }
    s.dmaEnabled = true ∧ (s.irqEnabled || s.fgEnabled) = true ∧ s.inputs.turn.given = t :: [] := by
  cases t <;> decide

theorem witness_AnyEnabledAgentMayStep_contextAlone :
    let s := inProgress .stop 0 0 base
    s.dmaEnabled = false ∧ (s.irqEnabled || s.fgEnabled) = true := by decide

theorem witness_AnyEnabledAgentMayStep_none :
    base.params.valid = true ∧ base.dmaEnabled = false ∧ (base.irqEnabled || base.fgEnabled) = false := by decide

theorem witness_IllegalCommandOnlyReports :
    let s : State := { base with fg := ⟨true, some (.illegal .reservedOpcode), 0, some ⟨false, 0⟩⟩ }
    s.irqEnabled = false ∧ s.fg.busy = true ∧ s.fg.cmd = some (.illegal .reservedOpcode) := by decide

/-- One configuration for each constraint of R10, at the edge of it. -/
theorem witness_BadConfigurationIsRefused :
    { small with halfBytes := 0 }.halfBytes = 0 ∧
      { small with halfBytes := 6 }.halfBytes % 4 ≠ 0 ∧
      { small with mvolMin := 3073 }.mvolMax < { small with mvolMin := 3073 }.mvolMin ∧
      { small with hpvolMin := 1 }.hpvolMax < { small with hpvolMin := 1 }.hpvolMin ∧
      { small with meterK := 0 }.meterK = 0 ∧
      { small with mvolMin := -32769 }.mvolMin < -32768 ∧ 32767 < { small with hpvolMax := 32768 }.hpvolMax := by decide

/-! ### Witnesses: the commands' blocks. Every position is met, and the loops at their first and last register -/

theorem witness_positions : ∀ k < 10, (inProgress .init k 0 base).fg.pos = k := by decide

theorem witness_muteLoop_first :
    let s := inProgress .pdn 1 0 base
    s.fg.pos = 1 ∧ s.params.regMap.pcmMute[s.acc.idx]? = some 0x1A := by decide

theorem witness_muteLoop_last :
    let s := inProgress (.setMute true) 1 1 base
    s.fg.pos = 1 ∧ s.params.regMap.pcmMute[s.acc.idx]? = some 0x1B := by decide

theorem witness_PlayStreamsStartsAndUnmutes :
    (inProgress .play 1 0 base).fg.pos = 1 ∧ (inProgress .play 1 0 base).started = false ∧
      (inProgress .play 1 0 playing).fg.pos = 1 ∧ (inProgress .play 1 0 playing).started = true ∧
      (inProgress .play 3 0 base).params.regMap.pcmMute[(inProgress .play 3 0 base).acc.idx]? = some 0x1A := by decide

theorem witness_StopMutesStopsAndZeroFills_firstWord :
    let s := inProgress .stop 4 0 playing
    s.fg.pos = 4 ∧ s.acc.idx < s.params.bufWords ∧ Memory.wf s.buf = true := by decide

theorem witness_StopMutesStopsAndZeroFills_lastWord :
    let s := inProgress .stop 4 7 playing
    s.fg.pos = 4 ∧ s.acc.idx < s.params.bufWords ∧ ¬ s.acc.idx + 1 < s.params.bufWords := by decide

theorem witness_SetHpMuteWritesTheLegacyRegister :
    (inProgress (.setHpMute true) 0 0 base).fg.pos = 0 ∧ (inProgress (.setHpMute true) 0 0 base).params.hasLegacyHpMute = true ∧
      (inProgress (.setHpMute true) 0 0 { base with
        params := { small with hasLegacyHpMute := false } }).params.hasLegacyHpMute = false := by decide

/-! ### Witnesses: events and transfer -/

theorem witness_EventHandlersRefillTheirHalf_positions (e : Event) : ∀ k < 6, (handling e k [] 0).irq.pos = k := by
  cases e <;> decide

theorem witness_EventHandlersRefillTheirHalf_guard :
    (handling .ht 1 [] 0).stream = .streaming ∧
      { handling .ht 1 [] 0 with stream := StreamState.stopped }.stream = .stopped := by decide

theorem witness_EventHandlersRefillTheirHalf_read :
    let s := { handling .ht 2 [] 0 with inputs := { playing.inputs with src := ⟨[[1, 2, 3, 4, 5, 6, 7, 8]], 0⟩ } }
    s.irq.pos = 2 ∧ s.inputs.src.given = [1, 2, 3, 4, 5, 6, 7, 8] :: [] ∧
      [1, 2, 3, 4, 5, 6, 7, 8].length = s.params.halfBytes := by decide

theorem witness_EventHandlersRefillTheirHalf_write :
    let s := handling .tc 3 [1, 2, 3, 4, 5, 6, 7, 8] 0
    s.irq.pos = 3 ∧ s.params.valid = true ∧ s.irq.idx < s.params.halfWords ∧ Memory.wf s.buf = true := by decide

theorem witness_EventHandlersRefillTheirHalf_writeLast :
    let s := handling .tc 3 [1, 2, 3, 4, 5, 6, 7, 8] 3
    s.irq.pos = 3 ∧ s.irq.idx < s.params.halfWords ∧ ¬ s.irq.idx + 1 < s.params.halfWords := by decide

theorem witness_IrqEntryTakesThePendingEvent :
    { playing with evt := ⟨true, false⟩ }.irq.active = false ∧ { playing with evt := ⟨true, false⟩ }.evt = ⟨true, false⟩ ∧
      { playing with evt := ⟨false, true⟩ }.irq.active = false ∧
      { playing with evt := ⟨false, true⟩ }.evt = ⟨false, true⟩ := by decide

theorem witness_BothPendingEitherMayBeFirst (e : Event) :
    let s : State := { playing with evt := ⟨true, true⟩, inputs := { playing.inputs with first := ⟨[e], 0⟩ } }
    s.evt = ⟨true, true⟩ ∧ s.irq.active = false ∧ s.inputs.first.given = e :: [] ∧
      (after (contextStep s)).isSome = true := by
  cases e <;> decide

theorem witness_DmaStepEmitsAndNotifies :
    ∀ k ∈ [0, 3, 4, 7], { playing with dma := ⟨true, k⟩ }.params.valid = true ∧
      { playing with dma := ⟨true, k⟩ }.dma.pos < { playing with dma := ⟨true, k⟩ }.params.bufWords := by decide

/-! ### Witnesses: functions of the rules -/

theorem witness_VolumeCodeRoundsDown :
    (-26112 : Int) ≤ 3072 ∧ (0 : Int) < (0x0001 : DbQ).toInt ∧ (0 : Int) < (0x7FFF : DbQ).toInt := by decide

theorem witness_valid : Params.reference.valid = true ∧ small.valid = true := by decide

theorem witness_PeakIsTheLargestMagnitude : 0 < small.halfWords := by decide

theorem witness_MeterUpdateFollowsTheFormula : small.valid = true ∧ peak 4 [0, 0, 0, 0, 0, 0, 0x00, 0x80] ≤ 32768 := by decide

/-- Each law of the average has numbers that meet its premise. -/
theorem witness_MeterAverageLaws :
    (32768 : Nat) ≤ 32768 ∧ (32758 : Nat) ≤ 32767 ∧ 32767 ≤ 32758 + 9 ∧ (1 : Nat) ≤ 1 ∧ (9 : Nat) ≤ 9 := by decide

/-- Ten full-scale updates from a full average leave it at 32768 each. -/
theorem witness_MeterDutyFollowsTheAverage :
    let ms := List.replicate 10 32768
    let t : Meter := ⟨32768, 0, false⟩
    small.valid = true ∧ ms.length = small.meterPeriod ∧ small.meterPeriod = 10 ∧ (∀ m ∈ ms, m ≤ 32768) ∧
      t.cnt = 0 ∧ (∀ u ∈ meterRun small ms t, u.avg.toNat = 32768) := by decide

/-- The reset tone fields, and a step up that does not saturate. -/
theorem witness_ToneSteppingLaws :
    let t : Tone := ⟨0, 0, 0, 0⟩
    small.valid = true ∧ small.toneMinSteps ≤ t.bass ∧ t.bass ≤ small.toneMaxSteps ∧
      small.toneMinSteps ≤ t.treble ∧ t.treble ≤ small.toneMaxSteps ∧ t.bf.toNat < small.freqCount ∧
      t.tf.toNat < small.freqCount ∧ toneInc small .trebleFreq t ≠ t := by decide

/-- The ends of the range of the step counts, at the reference codes 1111 and 0000 (R155). -/
theorem witness_ToneBytesHoldTheirFields :
    (-7 : Int) ≤ -7 ∧ (8 : Int) ≤ 8 ∧ toneNib Params.reference (-7) = 15 ∧ toneNib Params.reference 8 = 0 := by decide

/-- R280: a text of seven characters. -/
theorem witness_FormatReturnsTheText : (asciiBytes ['-', '1', '0', '.', '5', 'd', 'B']).length = 7 := by decide

theorem witness_GainTextIsSevenCharacters : (-7 : Int) ≤ -7 ∧ (8 : Int) ≤ 8 := by decide

theorem witness_FrequencyTextIsItsLabel : small.valid = true ∧ (3 : BitVec 2).toNat < small.freqCount := by decide

/-- The first and the last word's address, an odd one, and the first even one outside. -/
theorem witness_BufferWordsReadBack :
    Memory.wf playing.buf = true ∧ 0 % 2 = 0 ∧ 0 + 1 < playing.params.bufBytes ∧ 14 % 2 = 0 ∧
      14 + 1 < playing.params.bufBytes ∧ 15 % 2 = 1 ∧ 16 % 2 = 0 ∧ playing.params.bufBytes ≤ 16 + 1 := by decide

/-! ### Witnesses: the whole machine -/

/-- In the middle of a refill, with a `STOP` interrupted before it stops the stream; the next turn is the context's. -/
def refilling : State :=
  { inProgress .stop 1 1 (handling .ht 3 [1, 2, 3, 4, 5, 6, 7, 8] 2) with
    inputs := { base.inputs with turn := ⟨[.context], 0⟩ } }

/-- In the middle of the zero fill. -/
def filling : State :=
  inProgress .stop 4 3 { playing with stream := .stopped, buf := [(7, 0x33)] }

/-- Stopped and silent, the transfer alone going on. -/
def silent : State := { playing with stream := .stopped, buf := [] }

theorem witness_EveryStepIsSafe : refilling.Inv := by
  constructor <;> first | decide | (simp [refilling, inProgress, handling, fgInv, irqInv]; decide)

theorem witness_filling_inv : filling.Inv := by
  constructor <;> first | decide | (simp [filling, inProgress, fgInv]; decide) |
    simp [filling, inProgress, playing, base, State.reset, irqInv]

theorem witness_silent_inv : silent.Inv := by
  constructor <;> first | decide | simp [silent, playing, base, State.reset, fgInv, irqInv]

theorem witness_CommandRunAloneHasItsWholeEffect :
    Instr.stop.wellFormedCommand playing.params.hasLegacyHpMute = true ∧ playing.params.valid = true ∧
      Memory.wf playing.buf = true ∧ Memory.below playing.params.bufBytes playing.buf = true := by decide

theorem witness_ForegroundCannotSeeTheHandlers_handler :
    ∃ t, irqStep refilling = .next t ∧ refilling.irqEnabled = true :=
  let ⟨t, h⟩ := after_eq (o := irqStep refilling) (by decide)
  ⟨t, h, by decide⟩

theorem witness_ForegroundCannotSeeTheHandlers_transfer : ∃ t, dmaStep playing = .next t :=
  after_eq (by decide)

/-- Two states that differ in everything `FG` cannot see. -/
theorem witness_ForegroundCannotSeeTheHandlers_block :
    ∃ s', Instr.isCommand .stop = true ∧
      SameForeground (inProgress .stop 4 0 silent)
        { inProgress .stop 4 0 silent with buf := [(3, 7)], dma := ⟨true, 6⟩, evt := ⟨true, true⟩, target := .second } ∧
      exec .stop (inProgress .stop 4 0 silent) = .next s' :=
  let ⟨t, h⟩ := after_eq (o := exec .stop (inProgress .stop 4 0 silent)) (by decide)
  ⟨t, rfl, by constructor <;> rfl, h⟩

theorem witness_StoppedStreamStaysSilent :
    ∃ t, silent.Inv ∧ silent.Silence ∧ step silent = .next t ∧ silent.stream = .stopped ∧ silent.stopFilling = false :=
  let ⟨t, h⟩ := after_eq (o := step silent) (by decide)
  ⟨t, witness_silent_inv, by constructor <;> simp [silent, playing, base, State.reset, State.stopFilling], h, rfl,
    by decide⟩

/-- The zero fill under way is a silent state in the statement's sense too. -/
theorem witness_StoppedStreamStaysSilent_filling : filling.Inv ∧ filling.Silence ∧ filling.stopFilling = true := by
  refine ⟨witness_filling_inv, ⟨?_, ?_, ?_⟩, by decide⟩
  · intro _ h
    exact absurd h (by decide)
  · intro _ _
    decide
  · intro _ _ _
    rfl

/-- The transfer is in the second half while half-complete is in hand. -/
theorem witness_RefillNeverTouchesTheHalfInTransfer :
    ∃ t, refilling.Inv ∧ refilling.Timely ∧ step refilling = .next t ∧ refilling.outstanding .ht = true ∧
      refilling.irqEnabled = true ∧ t.dmaHalf = refilling.dmaHalf := by
  have h : (after (step refilling)).map (fun t => t.dmaHalf) = some refilling.dmaHalf := by decide
  obtain ⟨t, ht⟩ := after_eq (o := step refilling) (by decide)
  rw [ht] at h
  refine ⟨t, witness_EveryStepIsSafe, ?_, ht, by decide, by decide, Option.some.inj h⟩
  intro e
  cases e <;> decide

theorem witness_HandlerRunsToCompletion :
    ∃ t, refilling.irqEnabled = true ∧ refilling.irq.active = true ∧ step refilling = .next t :=
  let ⟨t, h⟩ := after_eq (o := step refilling) (by decide)
  ⟨t, by decide, by decide, h⟩

/-- A handler about to run alone, in a streaming and in a stopped state, with the source's bytes given. -/
theorem witness_HandlerRunsToCompletion_alone (e : Event) :
    let s := { handling e 0 [] 0 with inputs := { playing.inputs with src := ⟨[[1, 2, 3, 4, 5, 6, 7, 8]], 0⟩ } }
    s.params.valid = true ∧ Memory.wf s.buf = true ∧ s.irq.pos = 0 ∧ s.stream = .streaming ∧ handlerBlocks s = 9 ∧
      s.inputs.src.given = [1, 2, 3, 4, 5, 6, 7, 8] :: [] ∧ [1, 2, 3, 4, 5, 6, 7, 8].length = s.params.halfBytes ∧
      (8 < s.params.bufBytes ∧ inHalf s.params .first 0 ∧ ¬ inHalf s.params .first 8) := by
  cases e <;> simp only [inHalf] <;> decide

theorem witness_HandlerRunsToCompletion_stopped (e : Event) :
    let s := { handling e 0 [] 0 with stream := .stopped }
    s.params.valid = true ∧ Memory.wf s.buf = true ∧ s.irq.pos = 0 ∧ s.stream = .stopped ∧ handlerBlocks s = 3 := by
  cases e <;> decide

theorem witness_TracesOnlyGrow : ∃ t, step silent = .next t := after_eq (by decide)

theorem witness_TransferIsNeverHalted :
    ∃ t, step silent = .next t ∧ silent.started = true ∧ silent.dma.running = true ∧ silent.pins.sclkEn = true :=
  let ⟨t, h⟩ := after_eq (o := step silent) (by decide)
  ⟨t, h, by decide, by decide, by decide⟩

/-- `PLAY` came before `INIT`: started, not clocked. -/
theorem witness_NoClockNoTransfer :
    let s := { silent with pins := ⟨.asserted, false⟩ }
    ∃ t, s.pins.sclkEn = false ∧ s.started = true ∧ step s = .next t ∧ s.evt.ht = false ∧ s.evt.tc = false :=
  let ⟨t, h⟩ := after_eq (o := step { silent with pins := ⟨.asserted, false⟩ }) (by decide)
  ⟨t, rfl, rfl, h, rfl, rfl⟩

theorem witness_OnlyPlayAndStopChangeTheState :
    ∃ t, step (inProgress .play 0 0 base) = .next t ∧ t.stream ≠ base.stream := by
  have h : (after (step (inProgress .play 0 0 base))).map (fun t => t.stream) = some .streaming := by decide
  obtain ⟨t, ht⟩ := after_eq (o := step (inProgress .play 0 0 base)) (by decide)
  rw [ht] at h
  simp only [after, Option.map_some, Option.some.injEq] at h
  exact ⟨t, ht, by rw [h]; decide⟩

theorem witness_OnlyForegroundUsesTheBus :
    ∃ t, step (inProgress .pdn 2 0 (answered [.ok])) = .next t ∧ t.traces.bus ≠ base.traces.bus := by
  have h : (after (step (inProgress .pdn 2 0 (answered [.ok])))).map (fun t => t.traces.bus.length) = some 1 := by decide
  obtain ⟨t, ht⟩ := after_eq (o := step (inProgress .pdn 2 0 (answered [.ok]))) (by decide)
  rw [ht] at h
  simp only [after, Option.map_some, Option.some.injEq] at h
  refine ⟨t, ht, fun he => ?_⟩
  rw [he] at h
  exact absurd h (by decide)

/-- The reference map keeps its volume registers for the volume. -/
theorem witness_VolumeIsNeverUsedAsMute :
    ∃ t, exec .pdn (inProgress .pdn 2 0 (answered [.ok])) = .next t ∧ (∀ db, Instr.pdn ≠ .setMvol db) ∧
      (∀ db, Instr.pdn ≠ .setHpvol db) ∧
      ∀ v ∈ [referenceRegMap.mvolA, referenceRegMap.mvolB, referenceRegMap.hpvolA, referenceRegMap.hpvolB],
        v ∉ [referenceRegMap.pwrCtl, referenceRegMap.routing, referenceRegMap.clocking, referenceRegMap.iface,
          referenceRegMap.miscCtl, referenceRegMap.playbackCtl, referenceRegMap.toneCfg, referenceRegMap.toneGain]
          ++ referenceRegMap.pcmMute :=
  let ⟨t, h⟩ := after_eq (o := exec .pdn (inProgress .pdn 2 0 (answered [.ok]))) (by decide)
  ⟨t, h, by simp, by simp, by decide⟩

theorem witness_ParametersAndPortAreKept :
    ∃ t, step (State.issue [0x70000000, 0x00000000, 0x80000000] base) = .next t ∧
      wholeCommands (State.issue [0x70000000, 0x00000000, 0x80000000] base).port = true :=
  let ⟨t, h⟩ := after_eq (o := step (State.issue [0x70000000, 0x00000000, 0x80000000] base)) (by decide)
  ⟨t, h, by decide⟩

/-- The position of a full-complete notification. -/
theorem witness_TransferReachesTheTargetHalfOnTime_full :
    let s := { playing with dma := ⟨true, 0⟩ }
    s.params.valid = true ∧ s.dma.pos < s.params.bufWords ∧ s.dma.pos = 0 ∧ 4 = s.params.halfWords + 0 ∧
      0 < s.params.halfWords := by decide

/-- The position of a half-complete notification, and the last word of the target half. -/
theorem witness_TransferReachesTheTargetHalfOnTime :
    playing.params.valid = true ∧ playing.dma.pos < playing.params.bufWords ∧
      playing.dma.pos = playing.params.halfWords ∧ 7 = playing.params.halfWords + 3 ∧ 3 < playing.params.halfWords := by
  decide

/-- A step without a record, a report of FAIL, and one of ILLEGAL. -/
theorem witness_ResultsAreReportedByCommandsOnly_kinds :
    (after (step silent)).map (fun t => t.traces.result) = some silent.traces.result ∧
      (after (step (inProgress .init 9 0 (answered [.nack])))).map (fun t => t.result.status) = some .fail ∧
      (after (step (inProgress (.setHpMute true) 0 0 { base with
        params := { small with hasLegacyHpMute := false } }))).map (fun t => t.result.status) = some .illegal := by decide

theorem witness_ResultsAreReportedByCommandsOnly :
    ∃ t, step (inProgress .getState 0 0 base) = .next t ∧ t.traces.result ≠ base.traces.result := by
  have h : (after (step (inProgress .getState 0 0 base))).map (fun t => t.traces.result.length) = some 1 := by decide
  obtain ⟨t, ht⟩ := after_eq (o := step (inProgress .getState 0 0 base)) (by decide)
  rw [ht] at h
  simp only [after, Option.map_some, Option.some.injEq] at h
  refine ⟨t, ht, fun he => ?_⟩
  rw [he] at h
  exact absurd h (by decide)

end Sys2Proof.Machine.Tests
end

section
/-! The scope's statements (00_scope.md): R10's refusal, the words of the buffer, and what no step changes or shortens:
the parameters, the port but for the commands taken from its front, and the traces. -/

namespace Sys2Proof.Machine

/-! ### R10: the configurations the machine refuses -/

/-- The constraints of R10 that an accepted configuration meets. -/
theorem Params.limits_of_valid {p : Params} (h : p.valid = true) :
    0 < p.halfBytes ∧ p.halfBytes % 4 = 0 ∧ p.mvolMin ≤ p.mvolMax ∧ p.hpvolMin ≤ p.hpvolMax ∧ 1 ≤ p.meterK ∧
      ∀ v ∈ [p.mvolMin, p.mvolMax, p.hpvolMin, p.hpvolMax], -32768 ≤ v ∧ v ≤ 32767 := by
  simp only [Params.valid, Params.validSizes, fitsDbQ, Bool.and_eq_true, decide_eq_true_eq] at h
  obtain ⟨⟨hpos, hfour, hm, hhp, hmMin, hmMax, hhpMin, hhpMax, hk⟩, -⟩ := h
  refine ⟨hpos, hfour, hm, hhp, hk, ?_⟩
  simpa using ⟨hmMin, hmMax, hhpMin, hhpMax⟩

theorem step_of_not_valid {s : State} (h : s.params.valid ≠ true) : step s = .refused .badConfiguration := by
  simp only [step, nextStep, if_neg h]

/-- Settles O17: the accepted configurations meet every constraint, so one that breaks any of them is not accepted. -/
theorem badConfigurationIsRefused : Obligations.BadConfigurationIsRefused := by
  intro s hbad
  refine step_of_not_valid fun hv => ?_
  obtain ⟨hpos, hfour, hm, hhp, hk, hfits⟩ := Params.limits_of_valid hv
  obtain h | h | h | h | h | ⟨v, hmem, hout⟩ := hbad
  · exact hpos.ne' h
  · exact h hfour
  · exact hm.not_gt h
  · exact hhp.not_gt h
  · exact Nat.ne_of_gt hk h
  · have := hfits v hmem
    omega

/-! ### R83: a word of the buffer and its two bytes -/

theorem Sample.high_append_low (v : Sample) : v.extractLsb' 8 8 ++ v.extractLsb' 0 8 = v := by
  rw [BitVec.extractLsb'_append_extractLsb'_eq_extractLsb' (by omega)]
  exact BitVec.extractLsb'_eq_self

theorem memReadByte_ok {s : State} {a : Nat} (h : a < s.params.bufBytes) :
    memReadByte s a = .ok (Memory.read s.buf a) := if_pos h

theorem memWriteWord_misaligned {s : State} {a : Nat} (v : Sample) (h : a % 2 = 1) :
    memWriteWord s a v = .error .misaligned := if_pos h

theorem memReadWord_misaligned {s : State} {a : Nat} (h : a % 2 = 1) : memReadWord s a = .error .misaligned := if_pos h

theorem memWriteWord_outside {s : State} {a : Nat} (v : Sample) (ha : a % 2 = 0) (h : s.params.bufBytes ≤ a + 1) :
    memWriteWord s a v = .error .outsideBuffer := by
  simp [memWriteWord, ha, Nat.not_lt.mpr h]

theorem memReadWord_outside {s : State} {a : Nat} (ha : a % 2 = 0) (h : s.params.bufBytes ≤ a + 1) :
    memReadWord s a = .error .outsideBuffer := by
  simp [memReadWord, ha, Nat.not_lt.mpr h]

/-- What the state after a word write holds: the word at its address, as a word and as its two bytes, a canonical
buffer, and every other byte and field as before. -/
theorem memWriteWord_readBack {s t : State} {a : Nat} {v : Sample} (hw : Memory.wf s.buf = true)
    (h : memWriteWord s a v = .ok t) :
    t = { s with buf := t.buf } ∧ memReadWord t a = .ok v ∧ memReadByte t a = .ok (v.extractLsb' 0 8) ∧
      memReadByte t (a + 1) = .ok (v.extractLsb' 8 8) ∧ Memory.wf t.buf = true ∧
      ∀ x, x ≠ a → x ≠ a + 1 → Memory.read t.buf x = Memory.read s.buf x := by
  have hwf := memWriteWord_wf hw h
  obtain ⟨ha, hb, ht⟩ := memWriteWord_cases h
  have hb : a + 1 < t.params.bufBytes := by rw [ht]; exact hb
  have hread : ∀ x, Memory.read t.buf x
      = if x = a + 1 then v.extractLsb' 8 8 else if x = a then v.extractLsb' 0 8 else Memory.read s.buf x := by
    rw [ht]
    exact Memory.read_writeWord hw a v
  refine ⟨by rw [ht], ?_, ?_, ?_, hwf, fun x hx hx' => ?_⟩
  · rw [memReadWord_ok ha hb, hread, hread]
    simp [Sample.high_append_low]
  · rw [memReadByte_ok (Nat.lt_of_succ_lt hb), hread]
    simp
  · rw [memReadByte_ok hb, hread]
    simp
  · simp [hread, hx, hx']

/-- Settles O45: inside the buffer the write is answered and reads back; elsewhere both accesses are the named fault. -/
theorem bufferWordsReadBack : Obligations.BufferWordsReadBack := by
  intro s a v hw
  refine ⟨fun ha hb => ?_, fun ha => ?_, fun ha hb => ?_⟩
  · have hok := memWriteWord_ok v ha hb
    exact ⟨_, hok, memWriteWord_readBack hw hok⟩
  · exact ⟨memWriteWord_misaligned v ha, memReadWord_misaligned ha⟩
  · exact ⟨memWriteWord_outside v ha hb, memReadWord_outside ha hb⟩

/-! ### R9, R31, R322: the parameters and the port -/

theorem dmaStep_params_port {s t : State} (h : dmaStep s = .next t) : t.params = s.params ∧ t.port = s.port := by
  obtain ⟨w, -, rfl⟩ := dmaStep_cases h
  exact ⟨rfl, rfl⟩

/-- What a step of the context can do to the parameters and the port: only taking a command shortens the port, by the
command's words. -/
theorem contextStep_params_port {s t : State} (h : contextStep s = .next t) :
    t.params = s.params ∧ (t.port = s.port ∨ ∃ d, s.waiting = some (d, t.port)) := by
  obtain ⟨-, hb⟩ | ⟨-, -, rfl⟩ | ⟨-, -, i, -, -, hb⟩ | ⟨-, -, -, rfl⟩ | ⟨-, -, rfl⟩ := contextStep_cases h
  · exact ⟨hb.keeps.params, .inl hb.keeps.port⟩
  · obtain ⟨e, f, he, -⟩ := irqEnter_cases s
    rw [he]
    exact ⟨rfl, .inl rfl⟩
  · exact ⟨hb.keeps.params, .inl hb.keeps.port⟩
  · exact ⟨rfl, .inl rfl⟩
  · obtain ⟨-, he⟩ | ⟨d, rest, hd, he⟩ := takeCommand_cases s
    · rw [he]
      exact ⟨rfl, .inl rfl⟩
    · rw [he]
      exact ⟨rfl, .inr ⟨d, hd⟩⟩

/-- What a step can do to the parameters and the port. -/
theorem step_params_port {s t : State} (h : step s = .next t) :
    t.params = s.params ∧ (t.port = s.port ∨ ∃ d, s.waiting = some (d, t.port)) := by
  obtain ⟨-, ⟨-, -, -, rfl⟩ | ⟨-, f, hd⟩ | ⟨-, f, hc⟩⟩ := step_cases h
  · exact ⟨rfl, .inl rfl⟩
  · obtain ⟨hparams, hport⟩ := dmaStep_params_port hd
    exact ⟨hparams, .inl hport⟩
  · exact contextStep_params_port (s := s.withTurn f) hc

/-- Settles O58: the port is as it was or the rest behind a whole command, which `takeCommandWords_rest` describes. -/
theorem parametersAndPortAreKept : Obligations.ParametersAndPortAreKept := by
  refine ⟨fun s t h => ?_, by decide⟩
  obtain ⟨hparams, hport | ⟨d, hd⟩⟩ := step_params_port h
  · rw [hport]
    exact ⟨hparams, List.suffix_refl _, id⟩
  · exact ⟨hparams, takeCommandWords_rest hd⟩

/-! ### R18, R46: the traces only grow -/

theorem TracesGrow.of_traces_eq {s t : State} (h : t.traces = s.traces) : TracesGrow s t := by
  constructor <;> rw [h]

/-- The turn feed is no trace. -/
theorem TracesGrow.of_withTurn {s t : State} {f : Feed Turn} (h : TracesGrow (s.withTurn f) t) : TracesGrow s t :=
  ⟨h.bus, h.src, h.audio, h.pin, h.result, h.meter⟩

theorem fgFinish_tracesGrow (status : Status) (value : BitVec 32) (text : Text) (s : State) :
    TracesGrow s (fgFinish status value text s) := by
  constructor <;> simp

theorem dmaStep_tracesGrow {s t : State} (h : dmaStep s = .next t) : TracesGrow s t := by
  obtain ⟨w, -, rfl⟩ := dmaStep_cases h
  constructor <;> simp [emit]

/-- A pin's write records a change or nothing. -/
theorem FgBlock.pin_grows {i : Instr} {s t : State} (h : FgBlock i s t) : s.traces.pin <+: t.traces.pin := by
  cases h
  case fill hw =>
    obtain ⟨-, -, rfl⟩ := memWriteWord_cases hw
    simp
  case assertRst | releaseRst | clockOn =>
    simp only [fgAdvance_traces, setCodecRst_traces, setSclkEn_traces]
    split <;> simp
  all_goals simp [busBlock, busLastBlock, fgFinishBus, meterReset, setMeter, raiseIllegal]

/-- Only `STOP`'s reset of the meter records the meter. -/
theorem FgBlock.meter_grows {i : Instr} {s t : State} (h : FgBlock i s t) : s.traces.meter <+: t.traces.meter := by
  cases h
  case fill hw =>
    obtain ⟨-, -, rfl⟩ := memWriteWord_cases hw
    simp
  all_goals simp [busBlock, busLastBlock, fgFinishBus, meterReset, setMeter, raiseIllegal]

theorem FgBlock.bus_grows {i : Instr} {s t : State} (h : FgBlock i s t) : s.traces.bus <+: t.traces.bus := by
  obtain ⟨hb, -⟩ | ⟨reg, val, -, hb, -⟩ := h.bus_cases <;> simp [hb]

theorem FgBlock.result_grows {i : Instr} {s t : State} (h : FgBlock i s t) :
    s.traces.result <+: t.traces.result := by
  obtain ⟨hr, -⟩ | ⟨-, hr, -⟩ := h.result_cases <;> simp [hr]

theorem FgBlock.tracesGrow {i : Instr} {s t : State} (h : FgBlock i s t) : TracesGrow s t where
  bus := h.bus_grows
  src := by rw [h.keeps.srcTrace]
  audio := by rw [h.keeps.audioTrace]
  pin := h.pin_grows
  result := h.result_grows
  meter := h.meter_grows

/-- The traces a handler writes: the source's by its read, the meter's by its update. -/
theorem IrqBlock.src_meter_grow {e : Event} {s t : State} (h : IrqBlock e s t) :
    s.traces.src <+: t.traces.src ∧ s.traces.meter <+: t.traces.meter := by
  cases h
  case write hw _ | writeLast hw _ =>
    obtain ⟨-, -, rfl⟩ := memWriteWord_cases hw
    simp
  all_goals simp [refillRead, srcRead, refillMeter, setMeter]

theorem IrqBlock.tracesGrow {e : Event} {s t : State} (h : IrqBlock e s t) : TracesGrow s t where
  bus := by rw [h.keeps.busTrace]
  src := h.src_meter_grow.1
  audio := by rw [h.keeps.audioTrace]
  pin := by rw [h.keeps.pinTrace]
  result := by rw [h.keeps.resultTrace]
  meter := h.src_meter_grow.2

theorem irqEnter_traces (s : State) : (irqEnter s).traces = s.traces := by
  obtain ⟨e, f, he, -⟩ := irqEnter_cases s
  rw [he]

theorem takeCommand_traces (s : State) : (takeCommand s).traces = s.traces := by
  obtain ⟨-, he⟩ | ⟨d, rest, -, he⟩ := takeCommand_cases s <;> rw [he]

theorem contextStep_tracesGrow {s t : State} (h : contextStep s = .next t) : TracesGrow s t := by
  obtain ⟨-, hb⟩ | ⟨-, -, rfl⟩ | ⟨-, -, i, -, -, hb⟩ | ⟨-, -, -, rfl⟩ | ⟨-, -, rfl⟩ := contextStep_cases h
  · exact hb.tracesGrow
  · exact .of_traces_eq (irqEnter_traces s)
  · exact hb.tracesGrow
  · exact fgFinish_tracesGrow .illegal 0 Text.spaces s
  · exact .of_traces_eq (takeCommand_traces s)

/-- Settles O52: a waiting step, a transfer step and a step of the context each continue every trace. -/
theorem tracesOnlyGrow : Obligations.TracesOnlyGrow := by
  intro s t h
  obtain ⟨-, ⟨-, -, -, rfl⟩ | ⟨-, f, hd⟩ | ⟨-, f, hc⟩⟩ := step_cases h
  · exact .of_traces_eq rfl
  · exact (dmaStep_tracesGrow hd).of_withTurn
  · exact (contextStep_tracesGrow hc).of_withTurn

end Sys2Proof.Machine
end

section
/-! What `FG` can see (10_state.md R47): each named operation does the same from two states that `FG` cannot tell apart,
so every block of a command does; the handler and the transfer change nothing visible. -/

namespace Sys2Proof.Machine

/-! ### R47: what `FG` can see -/

section
variable {s t : State} (h : SameForeground s t)
include h

/-- `FG` takes its accumulators from its own state. -/
theorem SameForeground.acc_eq : s.acc = t.acc := by rw [State.acc, State.acc, h.fg]

theorem SameForeground.pos_eq : s.fg.pos = t.fg.pos := by rw [h.fg]

theorem SameForeground.vals_eq : s.params.vals = t.params.vals := by rw [h.params]

theorem SameForeground.busAnswer_eq : s.busAnswer = t.busAnswer := by rw [State.busAnswer, State.busAnswer, h.bus]

theorem SameForeground.fgAdvance : SameForeground (fgAdvance s) (fgAdvance t) :=
  { h with fg := by simp [h.fg] }

theorem SameForeground.fgSetFail (b : Bool) : SameForeground (fgSetFail b s) (fgSetFail b t) :=
  { h with fg := by simp [h.fg, h.acc_eq] }

theorem SameForeground.fgLoop {a b : Bool} (hab : a = b) : SameForeground (fgLoop a s) (fgLoop b t) := by
  subst hab
  cases a <;> exact { h with fg := by simp [fgLoop_true, fgLoop_false, h.fg, h.acc_eq] }

theorem SameForeground.fgTransact (reg val : Byte) :
    SameForeground (fgTransact reg val s) (fgTransact reg val t) :=
  { h with
    fg := by simp [h.fg, h.acc_eq, h.busAnswer_eq]
    busTrace := by simp [h.busTrace, h.params, h.busAnswer_eq]
    bus := by simp [h.bus] }

theorem SameForeground.fgFinish (status : Status) (value : BitVec 32) (text : Text) :
    SameForeground (fgFinish status value text s) (fgFinish status value text t) :=
  { h with
    fg := rfl
    result := rfl
    resultTrace := by simp [h.resultTrace] }

theorem SameForeground.fgFinishBus : SameForeground (fgFinishBus s) (fgFinishBus t) := by
  rw [Machine.fgFinishBus, Machine.fgFinishBus, h.acc_eq]
  exact h.fgFinish _ _ _

theorem SameForeground.setCodecRst (l : ResetLine) : SameForeground (setCodecRst l s) (setCodecRst l t) :=
  { h with
    pins := by simp [h.pins]
    pinTrace := by simp [h.pins, h.pinTrace] }

theorem SameForeground.setSclkEn (b : Bool) : SameForeground (setSclkEn b s) (setSclkEn b t) :=
  { h with
    pins := by simp [h.pins]
    pinTrace := by simp [h.pins, h.pinTrace] }

theorem SameForeground.setStream (x : StreamState) : SameForeground { s with stream := x } { t with stream := x } :=
  { h with stream := rfl }

theorem SameForeground.setTone {x y : Tone} (hxy : x = y) :
    SameForeground { s with tone := x } { t with tone := y } :=
  { h with tone := hxy }

theorem SameForeground.setBuf (m m' : Memory) : SameForeground { s with buf := m } { t with buf := m' } := { h with }

/-- The start guard is visible, what it starts is not. -/
theorem SameForeground.sbmStart : SameForeground (sbmStart s) (sbmStart t) := by
  cases hs : s.started
  · rw [sbmStart_of_not_started s hs, sbmStart_of_not_started t (h.started ▸ hs)]
    exact { h with started := rfl }
  · rw [sbmStart_of_started s hs, sbmStart_of_started t (h.started ▸ hs)]
    exact h

theorem SameForeground.meterReset : SameForeground (meterReset s) (meterReset t) := { h with }

theorem SameForeground.busBlock (reg val : Byte) : SameForeground (busBlock reg val s) (busBlock reg val t) :=
  (h.fgTransact reg val).fgAdvance

theorem SameForeground.busLastBlock (reg val : Byte) :
    SameForeground (busLastBlock reg val s) (busLastBlock reg val t) :=
  (h.fgTransact reg val).fgFinishBus

theorem SameForeground.pcmMuteBlock (val : Byte) : SameForeground (pcmMuteBlock val s) (pcmMuteBlock val t) := by
  simp only [Machine.pcmMuteBlock, ← h.params, ← h.acc_eq]
  split
  · exact (h.fgTransact _ val).fgLoop rfl
  · exact h.fgLoop rfl

end

/-- `o'` answers a state wherever `o` does, and `FG` cannot tell the two apart. -/
def SameAnswer (o o' : Host.Outcome State Fault Refusal) : Prop :=
  ∀ s', o = .next s' → ∃ t', o' = .next t' ∧ SameForeground s' t'

theorem SameForeground.next {s t : State} (h : SameForeground s t) : SameAnswer (.next s) (.next t) := by
  rintro _ ⟨⟩
  exact ⟨t, rfl, h⟩

theorem SameAnswer.fault (f : Fault) (o : Host.Outcome State Fault Refusal) : SameAnswer (.fault f) o := by
  rintro _ ⟨⟩

section
variable {s t : State} (h : SameForeground s t)
include h

theorem SameForeground.toneWrite (first : Nat) : SameAnswer (toneWrite first s) (toneWrite first t) := by
  simp only [Machine.toneWrite, ← h.params, ← h.fg, ← h.tone]
  split
  · exact (h.busBlock _ _).next
  · split
    · exact (h.busLastBlock _ _).next
    · exact .fault _ _

theorem SameForeground.volumeWrite (a b c : Byte) : SameAnswer (volumeWrite a b c s) (volumeWrite a b c t) := by
  simp only [Machine.volumeWrite, ← h.fg]
  split
  · exact (h.busBlock _ _).next
  · exact (h.busLastBlock _ _).next
  · exact .fault _ _

/-- The zero fill's address comes from `FG`'s own loop index. -/
theorem SameForeground.zeroFillBlock : SameAnswer (zeroFillBlock s) (zeroFillBlock t) := by
  intro s' hs
  unfold Machine.zeroFillBlock at hs
  split at hs
  · rename_i u hw
    cases hs
    obtain ⟨ha, hb, rfl⟩ := memWriteWord_cases hw
    have hin : 2 * t.acc.idx + 1 < t.params.bufBytes := by
      rw [← h.params, ← h.acc_eq]
      exact hb
    have hw' := memWriteWord_ok 0 (by omega) hin
    exact ⟨_, by rw [Machine.zeroFillBlock, hw'], (h.setBuf _ _).fgLoop (by rw [h.params, h.acc_eq])⟩
  · cases hs

/-- A block of a command does the same from two states that `FG` cannot tell apart. -/
theorem SameForeground.exec {i : Instr} (hi : i.isCommand = true) : SameAnswer (exec i s) (exec i t) := by
  cases i with
  | init =>
    simp only [Machine.exec, execInit, ← h.fg, ← h.params]
    split
    · exact ((h.fgSetFail _).setCodecRst _).fgAdvance.next
    · exact h.fgAdvance.next
    · exact (h.setCodecRst _).fgAdvance.next
    · exact (h.setSclkEn _).fgAdvance.next
    · exact h.fgAdvance.next
    · exact (h.busBlock _ _).next
    · exact (h.busBlock _ _).next
    · exact (h.busBlock _ _).next
    · exact (h.busBlock _ _).next
    · exact (h.busLastBlock _ _).next
    · exact .fault _ _
  | pdn =>
    simp only [Machine.exec, execPdn, ← h.fg, ← h.params]
    split
    · exact (h.fgSetFail _).fgAdvance.next
    · exact (h.pcmMuteBlock _).next
    · exact (h.busBlock _ _).next
    · exact (h.busBlock _ _).next
    · exact h.fgFinishBus.next
    · exact .fault _ _
  | setMvol db =>
    simp only [Machine.exec, execSetMvol, ← h.params]
    exact h.volumeWrite _ _ _
  | setHpvol db =>
    simp only [Machine.exec, execSetHpvol, ← h.params]
    exact h.volumeWrite _ _ _
  | setMute on =>
    simp only [Machine.exec, execSetMute, ← h.fg, ← h.params]
    split
    · exact (h.fgSetFail _).fgAdvance.next
    · exact (h.pcmMuteBlock _).next
    · exact h.fgFinishBus.next
    · exact .fault _ _
  | setHpMute on =>
    simp only [Machine.exec, execSetHpMute, ← h.fg, ← h.params]
    split
    · split
      · exact (h.busLastBlock _ _).next
      · exact (h.fgFinish _ _ _).next
    · exact .fault _ _
  | setTone bass treble bf tf =>
    simp only [Machine.exec, execSetTone, ← h.pos_eq]
    split
    · exact (h.setTone (by rw [h.params])).fgAdvance.next
    · exact h.toneWrite 1
  | play =>
    simp only [Machine.exec, execPlay, ← h.pos_eq, ← h.vals_eq]
    split
    · exact (h.setStream _).fgAdvance.next
    · exact h.sbmStart.fgAdvance.next
    · exact (h.fgSetFail _).fgAdvance.next
    · exact (h.pcmMuteBlock _).next
    · exact h.fgFinishBus.next
    · exact .fault _ _
  | stop =>
    simp only [Machine.exec, execStop, ← h.pos_eq, ← h.vals_eq]
    split
    · exact (h.fgSetFail _).fgAdvance.next
    · exact (h.pcmMuteBlock _).next
    · exact (h.setStream _).fgAdvance.next
    · exact h.meterReset.fgAdvance.next
    · exact h.zeroFillBlock
    · exact h.fgFinishBus.next
    · exact .fault _ _
  | getState =>
    simp only [Machine.exec, execGetState, ← h.fg, ← h.stream]
    split
    · exact (h.fgFinish _ _ _).next
    · exact .fault _ _
  | inc ctl =>
    simp only [Machine.exec, execInc, ← h.pos_eq]
    split
    · exact (h.setTone (by rw [h.params, h.tone])).fgAdvance.next
    · exact h.toneWrite 1
  | dec ctl =>
    simp only [Machine.exec, execDec, ← h.pos_eq]
    split
    · exact (h.setTone (by rw [h.params, h.tone])).fgAdvance.next
    · exact h.toneWrite 1
  | format ctl =>
    simp only [Machine.exec, execFormat, ← h.fg, ← h.params, ← h.tone]
    split
    · exact (h.fgFinish _ _ _).next
    · exact .fault _ _
  | evtHt => cases hi
  | evtTc => cases hi

end

theorem IrqKeeps.sameForeground {s t : State} (h : IrqKeeps s t) : SameForeground s t :=
  ⟨h.params.symm, h.port.symm, h.fg.symm, h.stream.symm, h.started.symm, h.tone.symm, h.pins.symm, h.result.symm,
    h.busTrace.symm, h.pinTrace.symm, h.resultTrace.symm, h.bus.symm⟩

theorem irqEnter_sameForeground (s : State) : SameForeground s (irqEnter s) := by
  obtain ⟨e, f, he, -⟩ := irqEnter_cases s
  rw [he]
  constructor <;> rfl

theorem irqStep_sameForeground {s t : State} (h : irqStep s = .next t) : SameForeground s t := by
  unfold irqStep at h
  split at h
  · exact (exec_isIrqBlock h).keeps.sameForeground
  · cases h
    exact irqEnter_sameForeground s

theorem dmaStep_sameForeground {s t : State} (h : dmaStep s = .next t) : SameForeground s t := by
  obtain ⟨w, -, rfl⟩ := dmaStep_cases h
  constructor <;> rfl

/-- Settles O48: the handler and the transfer write nothing visible, and `SameForeground.exec` covers the commands. -/
theorem foregroundCannotSeeTheHandlers : Obligations.ForegroundCannotSeeTheHandlers :=
  ⟨fun _ _ h _ => irqStep_sameForeground h, fun _ _ h => dmaStep_sameForeground h,
    fun _ _ _ s' hi hsame h => hsame.exec hi s' h⟩

end Sys2Proof.Machine
end

section
/-! What a step does to the transfer, the stream state and `RESULT`, and which step the machine takes: case analyses over
`step_cases` and `contextStep_cases`. -/

namespace Sys2Proof.Machine

/-! ### R221: the transfer is never halted -/

/-- Nothing the transfer depends on is cleared; the position of a started one is not touched. -/
structure KeepsTransferGoing (s t : State) : Prop where
  started : s.started = true → t.started = true
  running : s.dma.running = true → t.dma.running = true
  clock : s.pins.sclkEn = true → t.pins.sclkEn = true
  pos : s.started = true → t.dma.pos = s.dma.pos

theorem KeepsTransferGoing.of_eq {s t : State} (hs : t.started = s.started) (hd : t.dma = s.dma)
    (hp : t.pins = s.pins) : KeepsTransferGoing s t := by
  constructor <;> simp [hs, hd, hp]

theorem contextStep_keepsTransferGoing {s t : State} (h : contextStep s = .next t) : KeepsTransferGoing s t := by
  obtain ⟨-, hb⟩ | ⟨-, -, rfl⟩ | ⟨-, -, i, -, -, hb⟩ | ⟨-, -, -, rfl⟩ | ⟨-, -, rfl⟩ := contextStep_cases h
  · exact .of_eq hb.keeps.started hb.keeps.dma hb.keeps.pins
  · obtain ⟨e, f, he, -⟩ := irqEnter_cases s
    rw [he]
    exact .of_eq rfl rfl rfl
  · have hk := hb.transferKept
    exact ⟨hk.started, hk.running, hk.clock, fun hs => congrArg Dma.pos (hk.dma hs)⟩
  · exact .of_eq rfl rfl rfl
  · obtain ⟨-, he⟩ | ⟨d, rest, -, he⟩ := takeCommand_cases s <;> rw [he] <;> exact .of_eq rfl rfl rfl

/-- Settles O53: a transfer step is the one step that moves the position of a started transfer. -/
theorem transferIsNeverHalted : Obligations.TransferIsNeverHalted := by
  intro s t h
  obtain ⟨-, ⟨-, -, -, rfl⟩ | ⟨-, f, hd⟩ | ⟨-, f, hc⟩⟩ := step_cases h
  · exact ⟨id, id, id, fun _ => .inl rfl⟩
  · obtain ⟨w, -, rfl⟩ := dmaStep_cases hd
    exact ⟨id, id, id, fun _ => .inr ⟨_, hd⟩⟩
  · obtain ⟨hstarted, hrunning, hclock, hpos⟩ := contextStep_keepsTransferGoing hc
    exact ⟨hstarted, hrunning, hclock, fun hs => .inl (hpos hs)⟩

/-! ### R261: who changes the stream state -/

theorem contextStep_stream_cases {s t : State} (h : contextStep s = .next t) :
    t.stream = s.stream ∨
    (s.fg.busy = true ∧ s.irqEnabled = false ∧
      ((s.fg.cmd = some (.command .play) ∧ t.stream = .streaming) ∨
       (s.fg.cmd = some (.command .stop) ∧ t.stream = .stopped))) := by
  obtain ⟨-, hb⟩ | ⟨-, -, rfl⟩ | ⟨hirq, hbusy, i, hcmd, -, hb⟩ | ⟨-, -, -, rfl⟩ | ⟨-, -, rfl⟩ := contextStep_cases h
  · exact .inl hb.keeps.stream
  · obtain ⟨e, f, he, -⟩ := irqEnter_cases s
    rw [he]
    exact .inl rfl
  · obtain hs | ⟨rfl, hs⟩ | ⟨rfl, hs⟩ := hb.stream_cases
    · exact .inl hs
    · exact .inr ⟨hbusy, hirq, .inl ⟨hcmd, hs⟩⟩
    · exact .inr ⟨hbusy, hirq, .inr ⟨hcmd, hs⟩⟩
  · exact .inl rfl
  · obtain ⟨-, he⟩ | ⟨d, rest, -, he⟩ := takeCommand_cases s <;> rw [he] <;> exact .inl rfl

/-- Settles O55: neither waiting nor the transfer touches the stream state, and `contextStep_stream_cases` says which
command does. -/
theorem onlyPlayAndStopChangeTheState : Obligations.OnlyPlayAndStopChangeTheState := by
  intro s t h hne
  obtain ⟨-, ⟨-, -, -, rfl⟩ | ⟨-, f, hd⟩ | ⟨-, f, hc⟩⟩ := step_cases h
  · exact absurd rfl hne
  · obtain ⟨w, -, rfl⟩ := dmaStep_cases hd
    exact absurd rfl hne
  · exact (contextStep_stream_cases hc).resolve_left hne

/-! ### R45, R301, R302: what a step reports -/

/-- From `s`, where a command of `FG` is in progress, `t` is where it has ended and recorded its report. -/
structure Reports (s t : State) : Prop where
  irq : s.irqEnabled = false
  busy : s.fg.busy = true
  idle : t.fg.busy = false
  trace : t.traces.result = s.traces.result ++ [t.result]
  report : (∃ i, s.fg.cmd = some (.command i) ∧ i.isCommand = true ∧ Reported i s t.result) ∨
    ((∃ why, s.fg.cmd = some (.illegal why)) ∧ t.result = ⟨.illegal, 0, Text.spaces⟩)

theorem contextStep_result_cases {s t : State} (h : contextStep s = .next t) :
    (t.traces.result = s.traces.result ∧ t.result = s.result) ∨ Reports s t := by
  obtain ⟨-, hb⟩ | ⟨-, -, rfl⟩ | ⟨hirq, hbusy, i, hcmd, hi, hb⟩ | ⟨hirq, hbusy, hill, rfl⟩ | ⟨-, -, rfl⟩ :=
    contextStep_cases h
  · exact .inl ⟨hb.keeps.resultTrace, hb.keeps.result⟩
  · obtain ⟨e, f, he, -⟩ := irqEnter_cases s
    rw [he]
    exact .inl ⟨rfl, rfl⟩
  · obtain hkept | ⟨hfg, htrace, hr⟩ := hb.result_cases
    · exact .inl hkept
    · exact .inr ⟨hirq, hbusy, by rw [hfg], htrace, .inl ⟨i, hcmd, hi, hr⟩⟩
  · exact .inr ⟨hirq, hbusy, rfl, rfl, .inr ⟨hill, rfl⟩⟩
  · obtain ⟨-, he⟩ | ⟨d, rest, -, he⟩ := takeCommand_cases s <;> rw [he] <;> exact .inl ⟨rfl, rfl⟩

/-- What a step can do to `RESULT`: nothing, or record the report of the command it ends. -/
theorem step_result_cases {s t : State} (h : step s = .next t) :
    (t.traces.result = s.traces.result ∧ t.result = s.result) ∨ Reports s t := by
  obtain ⟨-, ⟨-, -, -, rfl⟩ | ⟨-, f, hd⟩ | ⟨-, f, hc⟩⟩ := step_cases h
  · exact .inl ⟨rfl, rfl⟩
  · obtain ⟨w, -, rfl⟩ := dmaStep_cases hd
    exact .inl ⟨rfl, rfl⟩
  · obtain hk | ⟨hirq, hbusy, hidle, htrace, hr⟩ := contextStep_result_cases hc
    · exact .inl hk
    · exact .inr ⟨hirq, hbusy, hidle, htrace, hr.imp_left fun ⟨i, hcmd, hi, hv, ht, hok, hill⟩ =>
        ⟨i, hcmd, hi, hv, ht, hok, hill⟩⟩

/-- A report of FAIL is none of the two commands that do not use the bus. -/
theorem Reported.usesBus_of_fail {i : Instr} {s : State} {r : Result} (h : Reported i s r) (hf : r.status = .fail) :
    i ≠ .getState ∧ ∀ ctl, i ≠ .format ctl := by
  refine ⟨fun hi => ?_, fun ctl hi => ?_⟩
  · have := hf.symm.trans (h.ok (.inl hi))
    cases this
  · have := hf.symm.trans (h.ok (.inr ⟨ctl, hi⟩))
    cases this

/-- Settles O60: what `Reported` says of a command's report, and the one report of an ILLEGAL command. -/
theorem resultsAreReportedByCommandsOnly : Obligations.ResultsAreReportedByCommandsOnly := by
  intro s t h
  obtain ⟨htrace, hresult⟩ | ⟨hirq, hbusy, hidle, htrace, hreport⟩ := step_result_cases h
  · exact ⟨fun _ => hresult, fun hne => absurd htrace hne⟩
  refine ⟨fun he => absurd (htrace.symm.trans he) (by simp), fun _ => ⟨hirq, hbusy, hidle, htrace, ?_⟩⟩
  obtain ⟨i, hcmd, hi, hr⟩ | ⟨⟨why, hcmd⟩, hr⟩ := hreport
  · simp only [hcmd, Option.some.injEq, Decoded.command.injEq, ne_eq, reduceCtorEq, exists_false, false_or]
    exact ⟨hr.value, hr.text, hr.ok, fun hf => ⟨i, rfl, hi, hr.usesBus_of_fail hf⟩, hr.illegal⟩
  · simp [hcmd, hr]

/-! ### R31, R305, R306: which step the machine takes -/

theorem step_of_context {s : State} (hv : s.params.valid = true) (hd : s.dmaEnabled = false)
    (hc : (s.irqEnabled || s.fgEnabled) = true) : step s = contextStep s := by
  simp [step, nextStep, hv, hd, hc]

/-- Where the transfer also has a step, the turn is drawn; the context steps when it is its. -/
theorem step_of_turn {s : State} (hv : s.params.valid = true) (hd : s.dmaEnabled = true)
    (hc : (s.irqEnabled || s.fgEnabled) = true) (ht : (drawTurn s).1 = .context) :
    step s = contextStep (drawTurn s).2 := by
  have hdraw : drawTurn s = (.context, (drawTurn s).2) := Prod.ext ht rfl
  simp only [step, nextStep, hv, hd, hc, if_true]
  rw [hdraw]

theorem contextStep_of_irq_active {s : State} (h : s.irq.active = true) :
    contextStep s = exec s.irq.evt.handler s := by
  simp [contextStep, State.irqEnabled, irqStep, h]

theorem contextStep_of_command {s : State} {i : Instr} (hirq : s.irqEnabled = false) (hbusy : s.fg.busy = true)
    (hcmd : s.fg.cmd = some (.command i)) (hi : i.isCommand = true) : contextStep s = exec i s := by
  simp [contextStep, hirq, fgStep, hbusy, commandStep, hcmd, hi]

theorem contextStep_of_waiting {s : State} {d : Decoded} {rest : List Word} (hirq : s.irqEnabled = false)
    (hidle : s.fg.busy = false) (hw : s.waiting = some (d, rest)) :
    contextStep s = .next { s with port := rest, fg := ⟨true, some d, 0, some ⟨false, 0⟩⟩ } := by
  simp [contextStep, hirq, fgStep, hidle, takeCommand, hw]

/-- Settles O13: a whole command at the port of an idle `FG` gives the context its step. -/
theorem idleForegroundTakesACommand : Obligations.IdleForegroundTakesACommand := by
  intro s d rest hirq hidle hw
  replace hw : s.waiting = some (d, rest) := hw
  have hstep := contextStep_of_waiting hirq hidle hw
  refine ⟨hstep, fun hv hd => (step_of_context hv hd ?_).trans hstep⟩
  simp [State.fgEnabled, hirq, hw]

/-- Settles O14: the context has a step in both cases, and drawing the turn changes nothing that it depends on. -/
theorem stepRunsTheDecodedInstruction : Obligations.StepRunsTheDecodedInstruction := by
  refine ⟨fun s i hv hirq hbusy hcmd hi => ?_, fun s hv hact => ?_⟩
  · have hc : (s.irqEnabled || s.fgEnabled) = true := by simp [State.fgEnabled, hirq, hbusy]
    exact ⟨fun hd => (step_of_context hv hd hc).trans (contextStep_of_command hirq hbusy hcmd hi),
      fun hd ht => (step_of_turn hv hd hc ht).trans (contextStep_of_command (s := (drawTurn s).2) hirq hbusy hcmd hi)⟩
  · have hc : (s.irqEnabled || s.fgEnabled) = true := by simp [State.irqEnabled, hact]
    exact ⟨fun hd => (step_of_context hv hd hc).trans (contextStep_of_irq_active hact),
      fun hd ht => (step_of_turn hv hd hc ht).trans (contextStep_of_irq_active (s := (drawTurn s).2) hact)⟩

end Sys2Proof.Machine
end

section
/-! A command run alone. Between its blocks the machine is `midway`: the command's own effect so far on a state `u`, the
control-bus writes `ws` done so far with whatever results, and the sequencer at a block and a loop index. Each kind of
block leads from one `midway` state to the next, and the last one to the whole effect. -/

namespace Sys2Proof.Machine

/-! ### The answers of the bus, one transaction after another -/

theorem State.busAnswer_eq_headD (s : State) :
    s.busAnswer = s.inputs.bus.given.headD (Config.busAnswer s.inputs.bus.drawn) := by
  unfold State.busAnswer Feed.draw
  split <;> simp [*]

theorem length_nextAnswers (f : Feed BusResult) (n : Nat) : (nextAnswers f n).length = n := by simp [nextAnswers]

theorem nextAnswers_succ (f : Feed BusResult) (n : Nat) :
    nextAnswers f (n + 1) = nextAnswers f n ++ [(f.given.drop n).headD (Config.busAnswer (f.drawn + n))] := by
  simp [nextAnswers, List.range_succ, List.getD_eq_getElem?_getD, List.headD_eq_head?_getD, List.head?_drop]

/-! ### Between the blocks of a command -/

/-- The bus transactions `ws` took place: their records, their results taken from the oracle. -/
def afterWrites (ws : List (Byte × Byte)) (u : State) : State :=
  { u with
    traces := { u.traces with bus := u.traces.bus ++ busRecords u ws }
    inputs := { u.inputs with bus := ⟨u.inputs.bus.given.drop ws.length, u.inputs.bus.drawn + ws.length⟩ } }

/-- Some result of the bus transactions `ws` is not OK. -/
def anyFailed (ws : List (Byte × Byte)) (u : State) : Bool :=
  !(nextAnswers u.inputs.bus ws.length).all fun r => decide (r = .ok)

/-- `FG` is at block `k` of command `i`, at loop index `j`, after the writes `ws`; the rest is as in `u`. -/
def midway (i : Instr) (k j : Nat) (ws : List (Byte × Byte)) (u : State) : State :=
  { afterWrites ws u with fg := ⟨true, some (.command i), k, some ⟨anyFailed ws u, j⟩⟩ }

theorem began_eq_midway (i : Instr) (s : State) : began i s = midway i 0 0 [] s := by
  simp [began, midway, afterWrites, anyFailed, busRecords, nextAnswers]

section
variable (i : Instr) (k j : Nat) (ws : List (Byte × Byte)) (u : State) (reg val : Byte)

theorem midway_busAnswer :
    (midway i k j ws u).busAnswer
      = (u.inputs.bus.given.drop ws.length).headD (Config.busAnswer (u.inputs.bus.drawn + ws.length)) :=
  State.busAnswer_eq_headD _

theorem busRecords_snoc :
    busRecords u (ws ++ [(reg, val)])
      = busRecords u ws ++ [⟨u.params.codecAddr, reg, val, (midway i k j ws u).busAnswer⟩] := by
  simp [busRecords, nextAnswers_succ, midway_busAnswer, List.zipWith_append, length_nextAnswers]

theorem anyFailed_snoc :
    anyFailed (ws ++ [(reg, val)]) u
      = (anyFailed ws u || decide ((midway i k j ws u).busAnswer ≠ .ok)) := by
  simp [anyFailed, nextAnswers_succ, midway_busAnswer, Bool.not_and]

theorem wrote_midway : wrote reg val (midway i k j ws u) = midway i k j (ws ++ [(reg, val)]) u := by
  simp [wrote, busRecords_snoc i k j, anyFailed_snoc i k j, midway, afterWrites, State.acc, Nat.add_assoc]

theorem looped_midway (n : Nat) :
    looped k n (midway i k j ws u)
      = if j + 1 < n then midway i k (j + 1) ws u else midway i (k + 1) 0 ws u := rfl

theorem endedBus_midway :
    endedBus (midway i k j ws u) = ended (writesStatus u ws) 0 Text.spaces (afterWrites ws u) := by
  have hs : (if anyFailed ws u then .fail else .ok) = writesStatus u ws := by
    unfold anyFailed writesStatus
    cases (nextAnswers u.inputs.bus ws.length).all fun r => decide (r = .ok) <;> rfl
  rw [← hs]
  rfl

end

/-! ### Runs of blocks -/

section
variable {i : Instr} {m n k j : Nat} {ws : List (Byte × Byte)} {s t u : State} {reg val : Byte}

theorem runBlocks_succ (h : exec i s = .next t) : runBlocks i (n + 1) s = runBlocks i n t := by
  simp [runBlocks, h]

theorem runBlocks_add (h : runBlocks i m s = .next t) : runBlocks i (m + n) s = runBlocks i n t := by
  induction m generalizing s with
  | zero => cases h; rw [Nat.zero_add]
  | succ m ih =>
    rw [Nat.add_right_comm]
    cases he : exec i s with
    | next r => rw [runBlocks_succ he] at h ⊢; exact ih h
    | fault f => simp [runBlocks, he] at h
    | refused r => simp [runBlocks, he] at h

theorem runBlocks_bus (h : exec i (midway i k j ws u) = .next (busBlock reg val (midway i k j ws u))) :
    runBlocks i (n + 1) (midway i k j ws u) = runBlocks i n (midway i (k + 1) j (ws ++ [(reg, val)]) u) := by
  rw [runBlocks_succ h, busBlock_eq (k := k + 1) _ _ rfl, wrote_midway]
  rfl

theorem runBlocks_busLast (h : exec i (midway i k j ws u) = .next (busLastBlock reg val (midway i k j ws u))) :
    runBlocks i 1 (midway i k j ws u) = .next (endedBus (midway i k j (ws ++ [(reg, val)]) u)) := by
  rw [runBlocks_succ h, busLastBlock_eq, wrote_midway]
  rfl

theorem runBlocks_finishBus (h : exec i (midway i k j ws u) = .next (fgFinishBus (midway i k j ws u))) :
    runBlocks i 1 (midway i k j ws u) = .next (endedBus (midway i k j ws u)) := by
  rw [runBlocks_succ h, fgFinishBus_eq]
  rfl

/-- One iteration of the mute loop, at a register of the list. -/
theorem pcmMuteBlock_midway (hr : u.params.regMap.pcmMute[j]? = some reg) :
    pcmMuteBlock val (midway i k j ws u)
      = if j + 1 < u.params.regMap.pcmMute.length then midway i k (j + 1) (ws ++ [(reg, val)]) u
        else midway i (k + 1) 0 (ws ++ [(reg, val)]) u := by
  rw [pcmMuteBlock_eq (k := k) val rfl hr, wrote_midway, looped_midway]
  rfl

/-- The mute loop from the register behind `pre` to its end. -/
theorem runBlocks_mute_from
    (hexec : ∀ j ws, exec i (midway i k j ws u) = .next (pcmMuteBlock val (midway i k j ws u)))
    {pre : List Byte} {r : Byte} {rest : List Byte} (hl : u.params.regMap.pcmMute = pre ++ r :: rest) :
    runBlocks i (rest.length + 1) (midway i k pre.length ws u)
      = .next (midway i (k + 1) 0 (ws ++ (r :: rest).map (·, val)) u) := by
  induction rest generalizing pre r ws with
  | nil =>
    rw [runBlocks_succ (hexec _ _), pcmMuteBlock_midway (reg := r) (by simp [hl]), if_neg (by simp [hl])]
    rfl
  | cons r' rest ih =>
    have := ih (ws := ws ++ [(r, val)]) (pre := pre ++ [r]) (r := r') (by simp [hl])
    rw [runBlocks_succ (hexec _ _), pcmMuteBlock_midway (reg := r) (by simp [hl]), if_pos (by simp [hl])]
    simpa using this

/-- The whole mute loop: every register of the list, in order. -/
theorem runBlocks_mute
    (hexec : ∀ j ws, exec i (midway i k j ws u) = .next (pcmMuteBlock val (midway i k j ws u)))
    (hv : u.params.valid = true) :
    runBlocks i u.params.regMap.pcmMute.length (midway i k 0 ws u)
      = .next (midway i (k + 1) 0 (ws ++ u.params.regMap.pcmMute.map (·, val)) u) := by
  obtain ⟨r, rest, hl⟩ := List.exists_cons_of_length_pos (Params.pcmMute_of_valid hv)
  have := runBlocks_mute_from (ws := ws) (pre := []) hexec hl
  rw [hl]
  exact this

end

/-! ### The zero fill -/

/-- `STOP` is at its zero fill, before word `j` of a buffer `m` that is canonical, inside its address space and zero
below that word. -/
structure Filling (p : Params) (j : Nat) (m : Memory) : Prop where
  wf : Memory.wf m = true
  below : Memory.below p.bufBytes m = true
  zero : ∀ a, a < 2 * j → Memory.read m a = 0

/-- The buffer after one word of the zero fill. -/
def zeroWord (j : Nat) (m : Memory) : Memory :=
  Memory.write (Memory.write m (2 * j) ((0 : Sample).extractLsb' 0 8)) (2 * j + 1) ((0 : Sample).extractLsb' 8 8)

theorem Filling.next {p : Params} {j : Nat} {m : Memory} (h : Filling p j m) (hj : j < p.bufWords) :
    Filling p (j + 1) (zeroWord j m) := by
  have hb : 2 * j + 1 < p.bufBytes := by
    simp only [Params.bufWords] at hj
    omega
  refine ⟨Memory.wf_write (Memory.wf_write h.wf _ _) _ _,
    Memory.below_write (Memory.below_write h.below _ _ (by omega)) _ _ hb, fun a ha => ?_⟩
  rw [zeroWord, Memory.read_writeWord h.wf]
  split
  · rfl
  · split
    · rfl
    · exact h.zero a (by omega)

theorem Filling.eq_nil {p : Params} {m : Memory} (hv : p.valid = true) (h : Filling p p.bufWords m) : m = [] := by
  obtain ⟨-, -, hbytes, hwords⟩ := Params.sizes_of_valid hv
  exact Memory.eq_nil_of_read_zero h.wf h.below fun a ha => h.zero a (by omega)

theorem exec_stop_fill {u : State} {j : Nat} (ws : List (Byte × Byte)) (hj : j < u.params.bufWords) :
    exec .stop (midway .stop 4 j ws u)
      = .next (if j + 1 < u.params.bufWords then midway .stop 4 (j + 1) ws { u with buf := zeroWord j u.buf }
          else midway .stop 5 0 ws { u with buf := zeroWord j u.buf }) :=
  zeroFillBlock_eq (s := midway .stop 4 j ws u) rfl hj

/-- The zero fill from word `j` to its end leaves an empty buffer. -/
theorem runBlocks_fill_from {u : State} {ws : List (Byte × Byte)} {n j : Nat} (hv : u.params.valid = true)
    (hn : j + (n + 1) = u.params.bufWords) (hm : Filling u.params j u.buf) :
    runBlocks .stop (n + 1) (midway .stop 4 j ws u) = .next (midway .stop 5 0 ws { u with buf := [] }) := by
  have hj : j < u.params.bufWords := by omega
  have hnext := hm.next hj
  rw [runBlocks_succ (exec_stop_fill ws hj)]
  induction n generalizing j u with
  | zero =>
    have hnil : zeroWord j u.buf = [] := Filling.eq_nil hv (hn ▸ hnext)
    rw [if_neg (by omega), hnil]
    rfl
  | succ n ih =>
    have hj' : j + 1 < u.params.bufWords := by omega
    rw [if_pos hj', runBlocks_succ (exec_stop_fill (u := { u with buf := zeroWord j u.buf }) ws hj')]
    exact ih (u := { u with buf := zeroWord j u.buf }) hv (by simp only; omega) hnext hj' (hnext.next hj')

theorem runBlocks_fill {u : State} {ws : List (Byte × Byte)} (hv : u.params.valid = true)
    (hw : Memory.wf u.buf = true) (hb : Memory.below u.params.bufBytes u.buf = true) :
    runBlocks .stop u.params.bufWords (midway .stop 4 0 ws u) = .next (midway .stop 5 0 ws { u with buf := [] }) := by
  obtain ⟨hpos, -, -, hwords⟩ := Params.sizes_of_valid hv
  obtain ⟨n, hn⟩ := Nat.exists_eq_succ_of_ne_zero (n := u.params.bufWords) (by omega)
  rw [hn]
  exact runBlocks_fill_from hv (by rw [Nat.zero_add, hn]) ⟨hw, hb, by simp⟩

/-! ### How many blocks a command performs -/

theorem blocksPerformed_pdn (p : Params) : blocksPerformed p .pdn = p.regMap.pcmMute.length + 3 + 1 := by
  change 1 + (p.regMap.pcmMute.length + (1 + (1 + 1))) = _
  omega

theorem blocksPerformed_setMute (p : Params) (on : Bool) :
    blocksPerformed p (.setMute on) = p.regMap.pcmMute.length + 1 + 1 := by
  change 1 + (p.regMap.pcmMute.length + 1) = _
  omega

theorem blocksPerformed_play (p : Params) : blocksPerformed p .play = p.regMap.pcmMute.length + 1 + 1 + 1 + 1 := by
  change 1 + (1 + (1 + (p.regMap.pcmMute.length + 1))) = _
  omega

theorem blocksPerformed_stop (p : Params) :
    blocksPerformed p .stop = p.regMap.pcmMute.length + (p.bufWords + 1 + 1 + 1) + 1 := by
  change 1 + (p.regMap.pcmMute.length + (1 + (1 + (p.bufWords + 1)))) = _
  omega

/-! ### The whole effect -/

/-- What a command does to the state besides the bus, `RESULT` and the sequencer. -/
def ownState (i : Instr) (s : State) : State := { ownEffect i s with tone := toneAfter s.params i s.tone }

/-- The control-bus writes of a command that begins in `s`. -/
def writesOf (i : Instr) (s : State) : List (Byte × Byte) := commandWrites s.params (toneAfter s.params i s.tone) i

theorem wholeEffect_eq (i : Instr) (s : State) :
    wholeEffect i s = ended (writesStatus s (writesOf i s)) (resultValue i s) (resultText i s)
      (afterWrites (writesOf i s) (ownState i s)) := by
  cases i with
  | play => cases hs : s.started <;> simp [wholeEffect, ownState, ownEffect, ended, afterWrites, writesOf, hs] <;> rfl
  | _ => rfl

theorem ownState_inputs (i : Instr) (s : State) : (ownState i s).inputs = s.inputs := by
  cases i with
  | play => cases hs : s.started <;> simp [ownState, ownEffect, hs]
  | _ => rfl

theorem ownState_params (i : Instr) (s : State) : (ownState i s).params = s.params := by
  cases i with
  | play => cases hs : s.started <;> simp [ownState, ownEffect, hs]
  | _ => rfl

theorem writesStatus_ownState (i : Instr) (s : State) (ws : List (Byte × Byte)) :
    writesStatus (ownState i s) ws = writesStatus s ws := by
  rw [writesStatus, writesStatus, ownState_inputs]

/-- A command whose report has no value and no text has its whole effect once its last block has ended it. -/
theorem endedBus_midway_ownState {i : Instr} {s : State} (k j : Nat) (hv : resultValue i s = 0)
    (ht : resultText i s = Text.spaces) :
    endedBus (midway i k j (writesOf i s) (ownState i s)) = wholeEffect i s := by
  rw [endedBus_midway, writesStatus_ownState, wholeEffect_eq, hv, ht]

/-! ### Each command's run -/

/-- The whole run of a command: its blocks, from the first, lead to its whole effect. -/
def RunsWhole (i : Instr) (s : State) : Prop :=
  runBlocks i (blocksPerformed s.params i) (midway i 0 0 [] s) = .next (wholeEffect i s)

theorem setPins_eq_ownState_init (s : State) :
    setSclkEn true (setCodecRst .released (setCodecRst .asserted s)) = ownState .init s := by
  cases hr : s.pins.codecRst <;> cases hc : s.pins.sclkEn <;>
    simp [setSclkEn, setCodecRst, ownState, ownEffect, toneAfter, hr, hc]

theorem init_runsWhole (s : State) : RunsWhole .init s := by
  rw [RunsWhole, ← endedBus_midway_ownState 9 0 rfl rfl, ← setPins_eq_ownState_init]
  calc runBlocks .init 10 (midway .init 0 0 [] s)
      = runBlocks .init 9 (midway .init 1 0 [] (setCodecRst .asserted s)) := runBlocks_succ rfl
    _ = runBlocks .init 8 (midway .init 2 0 [] (setCodecRst .asserted s)) := runBlocks_succ rfl
    _ = runBlocks .init 7 (midway .init 3 0 [] (setCodecRst .released (setCodecRst .asserted s))) := runBlocks_succ rfl
    _ = runBlocks .init 6
          (midway .init 4 0 [] (setSclkEn true (setCodecRst .released (setCodecRst .asserted s)))) := runBlocks_succ rfl
    _ = runBlocks .init 5
          (midway .init 5 0 [] (setSclkEn true (setCodecRst .released (setCodecRst .asserted s)))) := runBlocks_succ rfl
    _ = _ := by
      rw [runBlocks_bus rfl, runBlocks_bus rfl, runBlocks_bus rfl, runBlocks_bus rfl, runBlocks_busLast rfl]
      rfl

theorem pdn_runsWhole {s : State} (hv : s.params.valid = true) : RunsWhole .pdn s := by
  have hmute := runBlocks_mute (i := .pdn) (k := 1) (ws := []) (u := s) (val := s.params.vals.pcmMuteOn)
    (fun _ _ => rfl) hv
  rw [RunsWhole, blocksPerformed_pdn, ← endedBus_midway_ownState 4 0 rfl rfl,
    runBlocks_succ (t := midway .pdn 1 0 [] s) rfl, runBlocks_add hmute, runBlocks_bus rfl, runBlocks_bus rfl,
    runBlocks_finishBus rfl]
  rw [List.append_assoc]
  rfl

theorem volume_runsWhole {i : Instr} {a b c : Byte} {s : State} (hn : blocksPerformed s.params i = 2)
    (hexec : ∀ t : State, t.params = s.params → exec i t = volumeWrite a b c t)
    (hws : writesOf i s = [(a, c), (b, c)]) (hu : ownState i s = s)
    (hv : resultValue i s = 0) (ht : resultText i s = Text.spaces) : RunsWhole i s := by
  have hleft : exec i (midway i 0 0 [] s) = .next (busBlock a c (midway i 0 0 [] s)) := hexec _ rfl
  have hright : exec i (midway i 1 0 [(a, c)] s) = .next (busLastBlock b c (midway i 1 0 [(a, c)] s)) := hexec _ rfl
  rw [RunsWhole, hn, ← endedBus_midway_ownState 1 0 hv ht, hws, hu, runBlocks_bus hleft]
  exact runBlocks_busLast hright

theorem setMute_runsWhole {s : State} (on : Bool) (hv : s.params.valid = true) : RunsWhole (.setMute on) s := by
  have hmute := runBlocks_mute (i := .setMute on) (k := 1) (ws := []) (u := s)
    (val := if on then s.params.vals.pcmMuteOn else s.params.vals.pcmMuteOff) (fun _ _ => rfl) hv
  rw [RunsWhole, blocksPerformed_setMute, ← endedBus_midway_ownState 2 0 rfl rfl,
    runBlocks_succ (t := midway (.setMute on) 1 0 [] s) rfl, runBlocks_add hmute, runBlocks_finishBus rfl]
  rfl

theorem setHpMute_runsWhole {s : State} (on : Bool) (hl : s.params.hasLegacyHpMute = true) :
    RunsWhole (.setHpMute on) s := by
  have hexec : exec (.setHpMute on) (midway (.setHpMute on) 0 0 [] s)
      = .next (busLastBlock s.params.regMap.playbackCtl
          (if on then s.params.vals.hpMuteOn else s.params.vals.hpMuteOff) (midway (.setHpMute on) 0 0 [] s)) :=
    if_pos hl
  rw [RunsWhole, ← endedBus_midway_ownState 0 0 rfl rfl]
  exact runBlocks_busLast hexec

/-- The commands that set the tone state, then write it. -/
theorem tone_runsWhole {i : Instr} {s : State} (hn : blocksPerformed s.params i = 3)
    (hset : exec i (midway i 0 0 [] s) = .next (midway i 1 0 [] (ownState i s)))
    (hexec : ∀ t : State, t.fg.pos ≠ 0 → exec i t = toneWrite 1 t)
    (hws : ∀ p t, commandWrites p t i = [(p.regMap.toneGain, toneGainByte p t), (p.regMap.toneCfg, toneCfgByte p t)])
    (hv : resultValue i s = 0) (ht : resultText i s = Text.spaces) : RunsWhole i s := by
  have hwrites : writesOf i s
      = [((ownState i s).params.regMap.toneGain, toneGainByte (ownState i s).params (ownState i s).tone),
        ((ownState i s).params.regMap.toneCfg, toneCfgByte (ownState i s).params (ownState i s).tone)] := by
    rw [ownState_params]
    exact hws _ _
  rw [RunsWhole, hn, ← endedBus_midway_ownState 2 0 hv ht, hwrites, runBlocks_succ hset,
    runBlocks_bus (hexec _ Nat.one_ne_zero), runBlocks_busLast (hexec _ two_ne_zero)]
  rfl

theorem play_runsWhole {s : State} (hv : s.params.valid = true) : RunsWhole .play s := by
  have hstart : exec .play (midway .play 1 0 [] { s with stream := .streaming })
      = .next (midway .play 2 0 [] (ownState .play s)) := by
    cases hs : s.started <;> simp [exec, execPlay, midway, sbmStart, fgAdvance, afterWrites, ownState, ownEffect,
      toneAfter, busRecords, anyFailed, hs]
  have hmute := runBlocks_mute (i := .play) (k := 3) (ws := []) (u := ownState .play s)
    (val := (ownState .play s).params.vals.pcmMuteOff) (fun _ _ => rfl) (by rw [ownState_params]; exact hv)
  rw [ownState_params] at hmute
  rw [RunsWhole, blocksPerformed_play, ← endedBus_midway_ownState 4 0 rfl rfl,
    runBlocks_succ (t := midway .play 1 0 [] { s with stream := .streaming }) rfl, runBlocks_succ hstart,
    runBlocks_succ (t := midway .play 3 0 [] (ownState .play s)) rfl, runBlocks_add hmute,
    runBlocks_finishBus rfl]
  rfl

theorem stop_runsWhole {s : State} (hv : s.params.valid = true) (hw : Memory.wf s.buf = true)
    (hb : Memory.below s.params.bufBytes s.buf = true) : RunsWhole .stop s := by
  have hmute := runBlocks_mute (i := .stop) (k := 1) (ws := []) (u := s) (val := s.params.vals.pcmMuteOn)
    (fun _ _ => rfl) hv
  have hfill := runBlocks_fill (u := meterReset { s with stream := .stopped }) (ws := writesOf .stop s) hv hw hb
  rw [RunsWhole, blocksPerformed_stop, ← endedBus_midway_ownState 5 0 rfl rfl,
    runBlocks_succ (t := midway .stop 1 0 [] s) rfl, runBlocks_add hmute,
    runBlocks_succ (t := midway .stop 3 0 (writesOf .stop s) { s with stream := .stopped }) rfl,
    runBlocks_succ (t := midway .stop 4 0 (writesOf .stop s) (meterReset { s with stream := .stopped })) rfl,
    runBlocks_add (m := s.params.bufWords) hfill, runBlocks_finishBus rfl]
  rfl

theorem getState_runsWhole (s : State) : RunsWhole .getState s := by
  rw [RunsWhole, wholeEffect_eq]
  rfl

theorem format_runsWhole (ctl : Ctl) (s : State) : RunsWhole (.format ctl) s := by
  rw [RunsWhole, wholeEffect_eq]
  rfl

/-- Settles O47: each command's blocks lead from one state between its blocks to the next, up to the whole effect. -/
theorem commandRunAloneHasItsWholeEffect : Obligations.CommandRunAloneHasItsWholeEffect := by
  intro i s hi hv hw hb
  rw [began_eq_midway]
  change RunsWhole i s
  cases i with
  | init => exact init_runsWhole s
  | pdn => exact pdn_runsWhole hv
  | setMvol db => exact volume_runsWhole rfl (fun t ht => by rw [exec, execSetMvol, ht]) rfl rfl rfl rfl
  | setHpvol db => exact volume_runsWhole rfl (fun t ht => by rw [exec, execSetHpvol, ht]) rfl rfl rfl rfl
  | setMute on => exact setMute_runsWhole on hv
  | setHpMute on => exact setHpMute_runsWhole on hi
  | setTone b t f g => exact tone_runsWhole rfl rfl (fun t ht => by simp [exec, execSetTone]) (fun _ _ => rfl) rfl rfl
  | play => exact play_runsWhole hv
  | stop => exact stop_runsWhole hv hw hb
  | getState => exact getState_runsWhole s
  | inc ctl => exact tone_runsWhole rfl rfl (fun t ht => by simp [exec, execInc]) (fun _ _ => rfl) rfl rfl
  | dec ctl => exact tone_runsWhole rfl rfl (fun t ht => by simp [exec, execDec]) (fun _ _ => rfl) rfl rfl
  | format ctl => exact format_runsWhole ctl s
  | evtHt => cases hi
  | evtTc => cases hi

end Sys2Proof.Machine
end

section
/-! The refill deadline (70_reset_and_hazards.md R360, 20_memory.md R94, 41_stream_buffer.md R215). An event becomes
outstanding only by the transfer step that enters the half the event does not refill, so only a later transfer step can
make its refill late; and a handler writes inside the half of its event, which is not the one the transfer of a timely
state reads. -/

namespace Sys2Proof.Machine

/-! ### R81: the two halves -/

/-- The halves have no address in common. -/
theorem half_eq_of_inHalf {p : Params} {h h' : Half} {a : Nat} (ha : inHalf p h a) (ha' : inHalf p h' a) : h = h' := by
  simp only [inHalf, halfBase] at ha ha'
  cases h <;> cases h' <;> simp only [halfIndex, reduceCtorEq] at ha ha' ⊢ <;> omega

/-- Both bytes of a half's word `j` are inside the half. -/
theorem inHalf_of_word {p : Params} {h : Half} {j a : Nat} (hv : p.valid = true) (hj : j < p.halfWords)
    (ha : a = halfBase p h + 2 * j ∨ a = halfBase p h + 2 * j + 1) : inHalf p h a := by
  obtain ⟨-, hbytes, -, -⟩ := Params.sizes_of_valid hv
  simp only [inHalf]
  omega

/-! ### R42, R43: an outstanding event is pending or in hand -/

theorem outstanding_iff {s : State} {e : Event} :
    s.outstanding e = true ↔
      (e = .ht ∧ s.evt.ht = true ∨ e = .tc ∧ s.evt.tc = true) ∨ s.irq.active = true ∧ s.irq.evt = e := by
  cases e <;> simp [State.outstanding]

/-! ### R94: what a step under an event writes -/

/-- What a handler's block can do to the buffer: nothing, or write the refill's next word. -/
theorem IrqBlock.buf_cases {e : Event} {s t : State} (h : IrqBlock e s t) :
    t.buf = s.buf ∨
    (s.irq.pos = 3 ∧ ∃ u, t.buf = u.buf ∧
      memWriteWord s (halfBase s.params s.target + 2 * s.irq.idx) (sampleOf s.irq.data s.irq.idx) = .ok u) := by
  cases h
  case write hp hw _ | writeLast hp hw _ => exact .inr ⟨hp, _, by rfl, hw⟩
  all_goals exact .inl rfl

/-- A handler's block changes no byte outside the half of its event. -/
theorem IrqBlock.read_buf {e : Event} {s t : State} (h : IrqBlock e s t) (hv : s.params.valid = true)
    (hirq : irqInv s) (hact : s.irq.active = true) (hwf : Memory.wf s.buf = true) {a : Nat}
    (ha : ¬ inHalf s.params (Event.half s.irq.evt) a) : Memory.read t.buf a = Memory.read s.buf a := by
  obtain hb | ⟨hp, u, hb, hw⟩ := h.buf_cases
  · rw [hb]
  · simp only [irqInv, hact, if_true] at hirq
    obtain ⟨-, htarget, -, -, hidx⟩ := hirq
    rw [← htarget (by omega)] at ha
    obtain ⟨-, -, rfl⟩ := memWriteWord_cases hw
    rw [hb, Memory.read_writeWord hwf, if_neg fun hhigh => ha (inHalf_of_word hv (hidx hp) (.inr hhigh)),
      if_neg fun hlow => ha (inHalf_of_word hv (hidx hp) (.inl hlow))]

theorem irqEnter_buf (s : State) : (irqEnter s).buf = s.buf := by
  obtain ⟨e, f, he, -⟩ := irqEnter_cases s
  rw [he]

/-- Under an event, a step of the context of a timely state changes no byte of the half the transfer reads. -/
theorem contextStep_read_buf {s t : State} (h : contextStep s = .next t) (hv : s.params.valid = true)
    (hirq : irqInv s) (hwf : Memory.wf s.buf = true) (htimely : s.Timely) (hen : s.irqEnabled = true) {a : Nat}
    (ha : inHalf s.params s.dmaHalf a) : Memory.read t.buf a = Memory.read s.buf a := by
  obtain ⟨hact, hb⟩ | ⟨-, -, rfl⟩ | ⟨hoff, -⟩ | ⟨hoff, -⟩ | ⟨hoff, -⟩ := contextStep_cases h
  · have hout : s.outstanding s.irq.evt = true := outstanding_iff.mpr (.inr ⟨hact, rfl⟩)
    exact hb.read_buf hv hirq hact hwf fun hin => htimely _ hout (half_eq_of_inHalf ha hin)
  · rw [irqEnter_buf]
  all_goals exact absurd (hen.symm.trans hoff) (by decide)

/-! ### R42, R43: which events a step makes outstanding -/

/-- A handler's block does not change which event is in hand. -/
theorem IrqBlock.irq_evt {e : Event} {s t : State} (h : IrqBlock e s t) : t.irq.evt = s.irq.evt := by
  cases h
  case write hw _ | writeLast hw _ =>
    obtain ⟨-, -, rfl⟩ := memWriteWord_cases hw
    rfl
  all_goals rfl

/-- A handler's block makes no event outstanding. -/
theorem IrqBlock.outstanding {e e' : Event} {s t : State} (h : IrqBlock e s t) (hact : s.irq.active = true)
    (ht : t.outstanding e' = true) : s.outstanding e' = true := by
  rw [outstanding_iff] at ht ⊢
  rw [h.keeps.evt, h.irq_evt] at ht
  exact ht.imp_right fun ⟨_, he⟩ => ⟨hact, he⟩

/-- An entry makes no event outstanding: it clears a bit, and the event it takes was pending. -/
theorem irqEnter_outstanding {s : State} {e : Event} (hp : s.pending = true)
    (h : (irqEnter s).outstanding e = true) : s.outstanding e = true := by
  obtain ⟨e', f, he, hch⟩ := irqEnter_cases s
  obtain ⟨hht, htc⟩ := hch hp
  rw [he] at h
  rw [outstanding_iff] at h ⊢
  obtain hbit | ⟨-, rfl⟩ := h
  · refine .inl ?_
    cases e' <;> simp only [clearPending, Bool.false_eq_true, and_false, false_or, or_false] at hbit
    · exact .inr hbit
    · exact .inl hbit
  · refine .inl ?_
    cases e'
    · exact .inl ⟨rfl, hht rfl⟩
    · exact .inr ⟨rfl, htc rfl⟩

/-- A command makes no event outstanding: `PLAY`'s start only clears pending bits, and no other command writes them. -/
theorem FgBlock.outstanding {i : Instr} {s t : State} (h : FgBlock i s t) {e : Event}
    (ht : t.outstanding e = true) : s.outstanding e = true := by
  rw [outstanding_iff] at ht ⊢
  rw [h.keeps.irq] at ht
  obtain he | he := h.transferKept.evtOr <;> rw [he] at ht
  · exact ht
  · exact .inr (ht.resolve_left (by simp))

/-- A step of the context makes no event outstanding. -/
theorem contextStep_outstanding {s t : State} (h : contextStep s = .next t) {e : Event}
    (ht : t.outstanding e = true) : s.outstanding e = true := by
  obtain ⟨hact, hb⟩ | ⟨-, hp, rfl⟩ | ⟨-, -, i, -, -, hb⟩ | ⟨-, -, -, rfl⟩ | ⟨-, -, rfl⟩ := contextStep_cases h
  · exact hb.outstanding hact ht
  · exact irqEnter_outstanding hp ht
  · exact hb.outstanding ht
  · exact ht
  · obtain ⟨-, he⟩ | ⟨d, rest, -, he⟩ := takeCommand_cases s <;> rw [he] at ht <;> exact ht

/-- An event that a transfer step makes outstanding finds the transfer at the first word of the other half (R220). -/
theorem dmaStep_outstanding {s t : State} (h : dmaStep s = .next t) (hv : s.params.valid = true) {e : Event}
    (ht : t.outstanding e = true) : s.outstanding e = true ∨ t.dmaHalf ≠ Event.half e := by
  obtain ⟨hpos, -, -, hwords⟩ := Params.sizes_of_valid hv
  obtain ⟨w, -, rfl⟩ := dmaStep_cases h
  cases e
  case ht =>
    by_cases hp : s.dma.pos + 1 = s.params.halfWords
    · have hp' : s.params.halfWords ≠ s.params.bufWords := by omega
      exact .inr (by simp [State.dmaHalf, hp, hp', Event.half])
    · exact .inl (by simpa [outstanding_iff, crossPending, hp] using ht)
  case tc =>
    by_cases hp : s.dma.pos + 1 = s.params.bufWords
    · exact .inr (by simp [State.dmaHalf, hp, hpos, Event.half])
    · exact .inl (by simpa [outstanding_iff, crossPending, hp] using ht)

/-! ### R360: no refill becomes late -/

/-- An event outstanding after a step was so before it, or finds the transfer outside its half. -/
theorem step_outstanding {s t : State} (h : step s = .next t) {e : Event} (ht : t.outstanding e = true) :
    s.outstanding e = true ∨ t.dmaHalf ≠ Event.half e := by
  obtain ⟨hv, ⟨-, -, -, rfl⟩ | ⟨-, f, hd⟩ | ⟨-, f, hc⟩⟩ := step_cases h
  · exact .inl ht
  · exact dmaStep_outstanding (s := s.withTurn f) hd hv ht
  · exact .inl (contextStep_outstanding hc ht)

/-- Where the transfer keeps its half while an event is outstanding, no event becomes late. -/
theorem State.Timely.step {s t : State} (htimely : s.Timely) (h : step s = .next t)
    (hkeep : s.outstanding .ht = true ∨ s.outstanding .tc = true → t.dmaHalf = s.dmaHalf) : t.Timely := by
  intro e ht
  obtain hs | hhalf := step_outstanding h ht
  · have hany : s.outstanding .ht = true ∨ s.outstanding .tc = true := by
      cases e
      · exact .inl hs
      · exact .inr hs
    rw [hkeep hany]
    exact htimely e hs
  · exact hhalf

/-- Settles O50: the first part is `State.Timely.step`; for the second, only a handler's block writes the buffer under
an event, inside the half of its event, where the transfer of a timely state does not stand. -/
theorem refillNeverTouchesTheHalfInTransfer : Obligations.RefillNeverTouchesTheHalfInTransfer := by
  intro s t hinv htimely h
  refine ⟨htimely.step h, fun hen a ha => ?_⟩
  obtain ⟨hv, ⟨-, -, -, rfl⟩ | ⟨-, f, hd⟩ | ⟨-, f, hc⟩⟩ := step_cases h
  · rfl
  · obtain ⟨w, -, rfl⟩ := dmaStep_cases hd
    rfl
  · exact contextStep_read_buf (s := s.withTurn f) hc hv hinv.irq hinv.bufWf htimely hen ha

end Sys2Proof.Machine
end

section
/-! The command encoding (30_encoding.md): what the decoder answers on each opcode, one equation a row of R119; from
them, that decoding and encoding are inverse to each other, and that a word decodes exactly where a row's match and
mask hold. -/

namespace Sys2Proof

/-! ### R120: the decoder on each opcode -/

section
variable {legacy : Bool} {w0 w1 : Word}

theorem decodeCommand_init (h : opcode w0 = 0x1) : decodeCommand legacy w0 w1 = requireZero w0 0 28 .init := by
  simp [decodeCommand, h]

theorem decodeCommand_pdn (h : opcode w0 = 0x2) : decodeCommand legacy w0 w1 = requireZero w0 0 28 .pdn := by
  simp [decodeCommand, h]

theorem decodeCommand_setMvol (h : opcode w0 = 0x3) :
    decodeCommand legacy w0 w1 = requireZero w0 16 12 (.setMvol (w0.extractLsb' 0 16)) := by simp [decodeCommand, h]

theorem decodeCommand_setHpvol (h : opcode w0 = 0x4) :
    decodeCommand legacy w0 w1 = requireZero w0 16 12 (.setHpvol (w0.extractLsb' 0 16)) := by simp [decodeCommand, h]

theorem decodeCommand_setMute (h : opcode w0 = 0x5) :
    decodeCommand legacy w0 w1 = requireZero w0 1 27 (.setMute (w0.getLsbD 0)) := by simp [decodeCommand, h]

theorem decodeCommand_setHpMute (h : opcode w0 = 0x6) (hl : legacy = true) :
    decodeCommand legacy w0 w1 = requireZero w0 1 27 (.setHpMute (w0.getLsbD 0)) := by simp [decodeCommand, h, hl]

theorem decodeCommand_noLegacyHpMute (h : opcode w0 = 0x6) (hl : legacy = false) :
    decodeCommand legacy w0 w1 = .illegal .noLegacyHpMute := by simp [decodeCommand, h, hl]

theorem decodeCommand_setTone (h : opcode w0 = 0x7) (hz : w0.extractLsb' 20 8 = 0) :
    decodeCommand legacy w0 w1 = requireZero w1 16 16
      (.setTone (w0.extractLsb' 0 16) (w1.extractLsb' 0 16) (w0.extractLsb' 16 2) (w0.extractLsb' 18 2)) := by
  simp [decodeCommand, h, hz]

theorem decodeCommand_setTone_reserved (h : opcode w0 = 0x7) (hz : w0.extractLsb' 20 8 ≠ 0) :
    decodeCommand legacy w0 w1 = .illegal .reservedBits := by
  rw [decodeCommand, h]
  exact if_neg hz

theorem decodeCommand_play (h : opcode w0 = 0x8) : decodeCommand legacy w0 w1 = requireZero w0 0 28 .play := by
  simp [decodeCommand, h]

theorem decodeCommand_stop (h : opcode w0 = 0x9) : decodeCommand legacy w0 w1 = requireZero w0 0 28 .stop := by
  simp [decodeCommand, h]

theorem decodeCommand_getState (h : opcode w0 = 0xA) :
    decodeCommand legacy w0 w1 = requireZero w0 0 28 .getState := by simp [decodeCommand, h]

theorem decodeCommand_inc (h : opcode w0 = 0xB) :
    decodeCommand legacy w0 w1 = requireZero w0 2 26 (.inc (Ctl.ofBits (w0.extractLsb' 0 2))) := by
  simp [decodeCommand, h]

theorem decodeCommand_dec (h : opcode w0 = 0xC) :
    decodeCommand legacy w0 w1 = requireZero w0 2 26 (.dec (Ctl.ofBits (w0.extractLsb' 0 2))) := by
  simp [decodeCommand, h]

theorem decodeCommand_format (h : opcode w0 = 0xD) :
    decodeCommand legacy w0 w1 = requireZero w0 2 26 (.format (Ctl.ofBits (w0.extractLsb' 0 2))) := by
  simp [decodeCommand, h]

theorem decodeCommand_reserved (h : opcode w0 = 0x0 ∨ opcode w0 = 0xE ∨ opcode w0 = 0xF) :
    decodeCommand legacy w0 w1 = .illegal .reservedOpcode := by
  obtain h | h | h := h <;> simp [decodeCommand, h]

end

/-- An opcode is reserved or that of one of the thirteen rows (R119, R121). -/
theorem opcode_cases (op : BitVec 4) :
    (op = 0x0 ∨ op = 0xE ∨ op = 0xF) ∨ op = 0x1 ∨ op = 0x2 ∨ op = 0x3 ∨ op = 0x4 ∨ op = 0x5 ∨ op = 0x6 ∨ op = 0x7 ∨
      op = 0x8 ∨ op = 0x9 ∨ op = 0xA ∨ op = 0xB ∨ op = 0xC ∨ op = 0xD := by
  revert op; decide

/-! ### R111: the words of one command -/

theorem commandLength_one {w : Word} (h : opcode w ≠ 0x7#4) : commandLength w = 1 := if_neg h

theorem commandLength_two {w : Word} (h : opcode w = 0x7#4) : commandLength w = 2 := if_pos h

theorem takeCommandWords_lone {legacy : Bool} {w : Word} (h : opcode w = 0x7#4) :
    takeCommandWords legacy [w] = none := by
  simp [takeCommandWords, commandLength_two h]

/-- What taking a command can answer: the words taken are as many as the opcode says, and what they decode to. -/
theorem takeCommandWords_cases {legacy : Bool} {words rest : List Word} {d : Decoded}
    (h : takeCommandWords legacy words = some (d, rest)) :
    ∃ w0 w1, words = [w0, w1].take (commandLength w0) ++ rest ∧ decodeCommand legacy w0 w1 = d := by
  cases words with
  | nil => cases h
  | cons w0 tail =>
    by_cases h7 : opcode w0 = 0x7
    · cases tail with
      | nil => simp [takeCommandWords_lone h7] at h
      | cons w1 tail =>
        rw [takeCommandWords_two legacy w0 w1 tail h7] at h
        cases h
        exact ⟨w0, w1, by simp [commandLength_two h7], rfl⟩
    · rw [takeCommandWords_one legacy w0 tail h7] at h
      cases h
      exact ⟨w0, 0, by simp [commandLength_one h7], rfl⟩

/-- A word of an opcode other than 0x7 that decodes to a command is taken as that command. -/
theorem takeCommandWords_of_decode {legacy : Bool} {w : Word} {op : BitVec 4} {i : Instr} (rest : List Word)
    (hop : opcode w = op) (h7 : op ≠ 0x7#4) (h : decodeCommand legacy w 0 = .command i) :
    takeCommandWords legacy ([w] ++ rest) = some (.command i, rest) := by
  subst hop
  rw [List.singleton_append, takeCommandWords_one legacy w rest h7, h]

/-! ### Decoding what the encoder writes

Each lemma takes its row as the decoder's equation on that opcode, an argument `decodeCommand_…` above. -/

section
variable (legacy : Bool) (rest : List Word)

/-- A word of format `F0` is taken as the command of its row. -/
theorem takeCommandWords_formatF0 {op : BitVec 4} {i : Instr} (h7 : op ≠ 0x7#4)
    (h : opcode (formatF0 op) = op → decodeCommand legacy (formatF0 op) 0 = requireZero (formatF0 op) 0 28 i) :
    takeCommandWords legacy ([formatF0 op] ++ rest) = some (.command i, rest) :=
  takeCommandWords_of_decode rest (formatF0_op op) h7
    ((h (formatF0_op op)).trans (requireZero_of_zero i (formatF0_rsv op)))

/-- A word of format `FV` is taken as the command of its row with the decibels written. -/
theorem takeCommandWords_formatFV {op : BitVec 4} (db : DbQ) {f : DbQ → Instr} (h7 : op ≠ 0x7#4)
    (h : opcode (formatFV op db) = op → decodeCommand legacy (formatFV op db) 0
      = requireZero (formatFV op db) 16 12 (f ((formatFV op db).extractLsb' 0 16))) :
    takeCommandWords legacy ([formatFV op db] ++ rest) = some (.command (f db), rest) := by
  refine takeCommandWords_of_decode rest (formatFV_op op db) h7 ?_
  rw [h (formatFV_op op db), formatFV_db, requireZero_of_zero _ (formatFV_rsv op db)]

/-- A word of format `FB` is taken as the command of its row with the bit written. -/
theorem takeCommandWords_formatFB {op : BitVec 4} (on : Bool) {f : Bool → Instr} (h7 : op ≠ 0x7#4)
    (h : opcode (formatFB op on) = op → decodeCommand legacy (formatFB op on) 0
      = requireZero (formatFB op on) 1 27 (f ((formatFB op on).getLsbD 0))) :
    takeCommandWords legacy ([formatFB op on] ++ rest) = some (.command (f on), rest) := by
  refine takeCommandWords_of_decode rest (formatFB_op op on) h7 ?_
  rw [h (formatFB_op op on), formatFB_on, requireZero_of_zero _ (formatFB_rsv op on)]

/-- A word of format `FC` is taken as the command of its row with the control written. -/
theorem takeCommandWords_formatFC {op : BitVec 4} (ctl : Ctl) {f : Ctl → Instr} (h7 : op ≠ 0x7#4)
    (h : opcode (formatFC op ctl) = op → decodeCommand legacy (formatFC op ctl) 0
      = requireZero (formatFC op ctl) 2 26 (f (Ctl.ofBits ((formatFC op ctl).extractLsb' 0 2)))) :
    takeCommandWords legacy ([formatFC op ctl] ++ rest) = some (.command (f ctl), rest) := by
  refine takeCommandWords_of_decode rest (formatFC_op op ctl) h7 ?_
  rw [h (formatFC_op op ctl), formatFC_ctl, requireZero_of_zero _ (formatFC_rsv op ctl)]

/-- The two words of format `FT` are taken as `SET_TONE` with the operands written. -/
theorem takeCommandWords_formatFT (bass treble : DbQ) (bf tf : BitVec 2) :
    takeCommandWords legacy ([formatFT0 bass bf tf, formatFT1 treble] ++ rest)
      = some (.command (.setTone bass treble bf tf), rest) := by
  have hop := formatFT0_op bass bf tf
  rw [List.cons_append, List.singleton_append, takeCommandWords_two _ _ _ _ hop,
    decodeCommand_setTone hop (formatFT0_rsv bass bf tf), requireZero_of_zero _ (formatFT1_rsv treble), formatFT0_bass,
    formatFT0_bf, formatFT0_tf, formatFT1_treble]

end

/-- Settles O1, command by command: the words of each format are taken as the command of their row. -/
theorem encodedCommandDecodesToItself : Obligations.EncodedCommandDecodesToItself := by
  intro legacy i rest hwf
  cases i with
  | init => exact takeCommandWords_formatF0 legacy rest (by decide) decodeCommand_init
  | pdn => exact takeCommandWords_formatF0 legacy rest (by decide) decodeCommand_pdn
  | setMvol db => exact takeCommandWords_formatFV legacy rest db (by decide) decodeCommand_setMvol
  | setHpvol db => exact takeCommandWords_formatFV legacy rest db (by decide) decodeCommand_setHpvol
  | setMute on => exact takeCommandWords_formatFB legacy rest on (by decide) decodeCommand_setMute
  | setHpMute on =>
    exact takeCommandWords_formatFB legacy rest on (by decide) fun h => decodeCommand_setHpMute h hwf
  | setTone bass treble bf tf => exact takeCommandWords_formatFT legacy rest bass treble bf tf
  | play => exact takeCommandWords_formatF0 legacy rest (by decide) decodeCommand_play
  | stop => exact takeCommandWords_formatF0 legacy rest (by decide) decodeCommand_stop
  | getState => exact takeCommandWords_formatF0 legacy rest (by decide) decodeCommand_getState
  | inc ctl => exact takeCommandWords_formatFC legacy rest ctl (by decide) decodeCommand_inc
  | dec ctl => exact takeCommandWords_formatFC legacy rest ctl (by decide) decodeCommand_dec
  | format ctl => exact takeCommandWords_formatFC legacy rest ctl (by decide) decodeCommand_format
  | evtHt => cases hwf
  | evtTc => cases hwf

/-! ### Encoding what the decoder reads -/

section
variable {w0 : Word} (w1 : Word) {op : BitVec 4} {j : Instr}

/-- The first word of a command of an opcode other than 0x7 is all its words. -/
theorem take_commandLength_one (hop : opcode w0 = op) (h7 : op ≠ 0x7#4) :
    [w0, w1].take (commandLength w0) = [w0] := by
  subst hop
  rw [commandLength_one h7]
  rfl

/-- A word of an opcode other than 0x7 that decodes to a command is the encoding of that command, if it is the word of
its format where the must-be-0 bits are 0. -/
theorem encode_of_requireZero {legacy : Bool} {i : Instr} {w : Word} {lo len : Nat} (hop : opcode w0 = op)
    (h7 : op ≠ 0x7#4) (henc : encode i = [w]) (hwf : i.wellFormedCommand legacy = true)
    (hw : w0.extractLsb' lo len = 0 → w = w0) (h : requireZero w0 lo len i = .command j) :
    [w0, w1].take (commandLength w0) = encode j ∧ j.wellFormedCommand legacy = true := by
  obtain ⟨hz, rfl⟩ := requireZero_cases h
  rw [take_commandLength_one w1 hop h7, henc, hw hz]
  exact ⟨rfl, hwf⟩

end

/-- Two words of opcode 0x7 that decode to a command are those of format `FT` with the operands read. -/
theorem encode_of_decodeCommand_setTone {legacy : Bool} {w0 w1 : Word} {j : Instr} (hop : opcode w0 = 0x7)
    (h : decodeCommand legacy w0 w1 = .command j) :
    [w0, w1].take (commandLength w0) = encode j ∧ j.wellFormedCommand legacy = true := by
  by_cases h0 : w0.extractLsb' 20 8 = 0
  · rw [decodeCommand_setTone hop h0] at h
    obtain ⟨h1, rfl⟩ := requireZero_cases h
    refine ⟨?_, rfl⟩
    rw [commandLength_two hop, encode, formatFT0_of_fields w0 hop h0, formatFT1_of_fields w1 h1]
    rfl
  · rw [decodeCommand_setTone_reserved hop h0] at h
    cases h

/-- The words of a command that decodes are its encoding, and the command is well formed. -/
theorem encode_of_decodeCommand {legacy : Bool} {w0 w1 : Word} {i : Instr}
    (h : decodeCommand legacy w0 w1 = .command i) :
    [w0, w1].take (commandLength w0) = encode i ∧ i.wellFormedCommand legacy = true := by
  obtain hop | hop | hop | hop | hop | hop | hop | hop | hop | hop | hop | hop | hop | hop := opcode_cases (opcode w0)
  · rw [decodeCommand_reserved hop] at h
    cases h
  · exact encode_of_requireZero w1 hop (by decide) rfl rfl (fun hz => hop ▸ formatF0_of_fields w0 hz)
      (decodeCommand_init hop ▸ h)
  · exact encode_of_requireZero w1 hop (by decide) rfl rfl (fun hz => hop ▸ formatF0_of_fields w0 hz)
      (decodeCommand_pdn hop ▸ h)
  · exact encode_of_requireZero w1 hop (by decide) rfl rfl (fun hz => hop ▸ formatFV_of_fields w0 hz)
      (decodeCommand_setMvol hop ▸ h)
  · exact encode_of_requireZero w1 hop (by decide) rfl rfl (fun hz => hop ▸ formatFV_of_fields w0 hz)
      (decodeCommand_setHpvol hop ▸ h)
  · exact encode_of_requireZero w1 hop (by decide) rfl rfl (fun hz => hop ▸ formatFB_of_fields w0 hz)
      (decodeCommand_setMute hop ▸ h)
  · cases legacy
    · rw [decodeCommand_noLegacyHpMute hop rfl] at h
      cases h
    · exact encode_of_requireZero w1 hop (by decide) rfl rfl (fun hz => hop ▸ formatFB_of_fields w0 hz)
        (decodeCommand_setHpMute hop rfl ▸ h)
  · exact encode_of_decodeCommand_setTone hop h
  · exact encode_of_requireZero w1 hop (by decide) rfl rfl (fun hz => hop ▸ formatF0_of_fields w0 hz)
      (decodeCommand_play hop ▸ h)
  · exact encode_of_requireZero w1 hop (by decide) rfl rfl (fun hz => hop ▸ formatF0_of_fields w0 hz)
      (decodeCommand_stop hop ▸ h)
  · exact encode_of_requireZero w1 hop (by decide) rfl rfl (fun hz => hop ▸ formatF0_of_fields w0 hz)
      (decodeCommand_getState hop ▸ h)
  · exact encode_of_requireZero w1 hop (by decide) rfl rfl (fun hz => hop ▸ formatFC_of_fields w0 hz)
      (decodeCommand_inc hop ▸ h)
  · exact encode_of_requireZero w1 hop (by decide) rfl rfl (fun hz => hop ▸ formatFC_of_fields w0 hz)
      (decodeCommand_dec hop ▸ h)
  · exact encode_of_requireZero w1 hop (by decide) rfl rfl (fun hz => hop ▸ formatFC_of_fields w0 hz)
      (decodeCommand_format hop ▸ h)

/-- Settles O2: the words taken are those the opcode counts, and of each opcode they are the encoding. -/
theorem decodedWordsAreTheEncoding : Obligations.DecodedWordsAreTheEncoding := by
  intro legacy words i rest h
  obtain ⟨w0, w1, rfl, hd⟩ := takeCommandWords_cases h
  obtain ⟨hw, hwf⟩ := encode_of_decodeCommand hd
  exact ⟨congrArg (· ++ rest) hw, hwf⟩

/-! ### R119: the match and mask of a row -/

section
open Sys2Proof.Machine

/-- The must-be-0 bits of a word, and of the second where the opcode has one, are 0 for the format of the opcode
(R113–R117, R119). -/
def HasRowFormat (w0 w1 : Word) : Prop :=
  (opcode w0 ∈ [0x1#4, 0x2#4, 0x8#4, 0x9#4, 0xA#4] ∧ w0.extractLsb' 0 28 = 0) ∨
  (opcode w0 ∈ [0x3#4, 0x4#4] ∧ w0.extractLsb' 16 12 = 0) ∨
  (opcode w0 ∈ [0x5#4, 0x6#4] ∧ w0.extractLsb' 1 27 = 0) ∨
  (opcode w0 = 0x7#4 ∧ w0.extractLsb' 20 8 = 0 ∧ w1.extractLsb' 16 16 = 0) ∨
  (opcode w0 ∈ [0xB#4, 0xC#4, 0xD#4] ∧ w0.extractLsb' 2 26 = 0)

theorem exists_requireZero {w : Word} {lo len : Nat} {i : Instr} :
    (∃ j, requireZero w lo len i = .command j) ↔ w.extractLsb' lo len = 0 :=
  ⟨fun ⟨_, h⟩ => (requireZero_cases h).1, fun h => ⟨i, requireZero_of_zero i h⟩⟩

theorem exists_decodeCommand_setTone {legacy : Bool} {w0 w1 : Word} (h : opcode w0 = 0x7) :
    (∃ j, decodeCommand legacy w0 w1 = .command j) ↔ w0.extractLsb' 20 8 = 0 ∧ w1.extractLsb' 16 16 = 0 := by
  by_cases h0 : w0.extractLsb' 20 8 = 0
  · rw [decodeCommand_setTone h h0, exists_requireZero, and_iff_right h0]
  · rw [decodeCommand_setTone_reserved h h0]
    exact iff_of_false (fun ⟨_, hj⟩ => Decoded.noConfusion hj) (fun hz => h0 hz.1)

/-- With `HAS_LEGACY_HP_MUTE` a command decodes exactly where the must-be-0 bits of its opcode's format are 0. -/
theorem exists_decodeCommand_iff_hasRowFormat {w0 w1 : Word} :
    (∃ i, decodeCommand true w0 w1 = .command i) ↔ HasRowFormat w0 w1 := by
  unfold HasRowFormat
  obtain hop | hop | hop | hop | hop | hop | hop | hop | hop | hop | hop | hop | hop | hop := opcode_cases (opcode w0)
  · rw [decodeCommand_reserved hop]
    obtain hop | hop | hop := hop <;> simp [hop]
  · simp [decodeCommand_init hop, exists_requireZero, hop]
  · simp [decodeCommand_pdn hop, exists_requireZero, hop]
  · simp [decodeCommand_setMvol hop, exists_requireZero, hop]
  · simp [decodeCommand_setHpvol hop, exists_requireZero, hop]
  · simp [decodeCommand_setMute hop, exists_requireZero, hop]
  · simp [decodeCommand_setHpMute hop, exists_requireZero, hop]
  · simp [exists_decodeCommand_setTone hop, hop]
  · simp [decodeCommand_play hop, exists_requireZero, hop]
  · simp [decodeCommand_stop hop, exists_requireZero, hop]
  · simp [decodeCommand_getState hop, exists_requireZero, hop]
  · simp [decodeCommand_inc hop, exists_requireZero, hop]
  · simp [decodeCommand_dec hop, exists_requireZero, hop]
  · simp [decodeCommand_format hop, exists_requireZero, hop]

/-- The rows' match and mask are those of their formats. -/
theorem commandRows_perm : commandRows.Perm (
    ([0x1#4, 0x2#4, 0x8#4, 0x9#4, 0xA#4].map fun op => ((op ++ 0#28) ++ 0#0, BitVec.allOnes 32 ++ 0#0)) ++
    ([0x3#4, 0x4#4].map fun op => ((op ++ 0#12) ++ 0#16, BitVec.allOnes 16 ++ 0#16)) ++
    ([0x5#4, 0x6#4].map fun op => ((op ++ 0#27) ++ 0#1, BitVec.allOnes 31 ++ 0#1)) ++
    [((0x7#4 ++ 0#8) ++ 0#20, BitVec.allOnes 12 ++ 0#20)] ++
    ([0xB#4, 0xC#4, 0xD#4].map fun op => ((op ++ 0#26) ++ 0#2, BitVec.allOnes 30 ++ 0#2))) := by
  decide

theorem exists_commandRow_iff_hasRowFormat {w0 w1 : Word} :
    (∃ r ∈ commandRows, w0 &&& r.2 = r.1 ∧ (r.1 = 0x70000000 → w1 &&& 0xFFFF0000 = 0)) ↔ HasRowFormat w0 w1 := by
  have hFT1 : w1 &&& 0xFFFF0000 = 0 ↔ w1.extractLsb' 16 16 = 0 := matches_FT1 w1
  rw [hFT1]
  simp only [commandRows_perm.mem_iff, List.map_cons, List.map_nil, List.mem_append, List.mem_cons, List.not_mem_nil,
    or_false, or_and_right, exists_or, exists_eq_left, matches_F0, matches_FV, matches_FB, matches_FC, matches_FT0]
  simp [HasRowFormat, or_and_right, or_assoc, and_assoc]

theorem opcode_and (w m : Word) : opcode (w &&& m) = opcode w &&& opcode m := BitVec.extractLsb'_and

/-- A word that satisfies a row has the row's opcode: every mask covers the opcode. -/
theorem opcode_of_commandRow {r : Word × Word} (hr : r ∈ commandRows) {w : Word} (h : w &&& r.2 = r.1) :
    opcode w = opcode r.1 := by
  have hmask : ∀ r ∈ commandRows, opcode r.2 = BitVec.allOnes 4 := by
    simp [commandRows, opcode]
  rw [← h, opcode_and, hmask r hr, BitVec.and_allOnes]

/-- Settles O3: both sides are the row format of the opcode, and no two rows have one opcode. -/
theorem decodingFollowsTheOpcodeMap : Obligations.DecodingFollowsTheOpcodeMap := by
  refine ⟨fun w0 w1 => ?_, ?_⟩
  · rw [exists_decodeCommand_iff_hasRowFormat, exists_commandRow_iff_hasRowFormat]
  · have hops : commandRows.Pairwise fun r q => opcode r.1 ≠ opcode q.1 := by decide
    refine hops.imp_of_mem fun hr hq hne w hw hw' => hne ?_
    rw [← opcode_of_commandRow hr hw, opcode_of_commandRow hq hw']

end

/-! ### R111, R121, R123, R126: lengths, reserved opcodes and events -/

/-- Settles O4, by evaluating the decoder on the words. -/
theorem writtenOutWordsDecode : Obligations.WrittenOutWordsDecode := by
  unfold Obligations.WrittenOutWordsDecode
  decide

/-- Settles O5: the decoder's equation on the reserved opcodes. -/
theorem reservedOpcodesAreIllegal : Obligations.ReservedOpcodesAreIllegal :=
  fun _ _ _ => decodeCommand_reserved

/-- Settles O6: the decoder takes one word or two by opcode 0x7 alone. -/
theorem opcodeFixesTheLength : Obligations.OpcodeFixesTheLength := by
  refine fun legacy w0 rest => ⟨fun h => ?_, fun h w1 => ?_, fun h => ?_⟩
  · exact ⟨_, takeCommandWords_one legacy w0 rest h⟩
  · exact ⟨_, takeCommandWords_two legacy w0 w1 rest h⟩
  · exact takeCommandWords_lone h

/-- Settles O7: the decoder's equation on opcode 0x6 without the parameter. -/
theorem legacyMuteNeedsItsParameter : Obligations.LegacyMuteNeedsItsParameter :=
  fun _ _ h => ⟨_, decodeCommand_noLegacyHpMute h rfl⟩

/-- Settles O8, on each of the four values of the register. -/
theorem eventStatusSelectsEvents : Obligations.EventStatusSelectsEvents := by
  rintro ⟨ht, tc⟩
  cases ht <;> cases tc <;> decide

end Sys2Proof
end

section
/-! The assembler's literals (30_encoding.md R128): digit runs stand for their number, a point cuts whole from fraction,
and a decimal literal is exactly 256 times its value or refused. -/

namespace Sys2Proof.Machine

/-! ### Digits -/

/-- The character of a hexadecimal digit. -/
def hexDigit (d : Fin 16) : Char := hexDigits.getD d.val '0'

/-- The character of a decimal digit. -/
def decimalDigit (d : Fin 10) : Char := hexDigits.getD d.val '0'

theorem hexValue_hexDigit (d : Fin 16) : hexValue (hexDigit d) = some d.val := by
  revert d; decide

theorem digitValue_decimalDigit (d : Fin 10) : digitValue (decimalDigit d) = some d.val := by
  revert d; decide

/-- A decimal digit is no sign, no point and no start of a raw literal. -/
theorem decimalDigit_not_mark (d : Fin 10) : decimalDigit d ∉ ['+', '-', '.', '#'] := by
  revert d; decide

/-- The characters of decimal digits, as a literal writes them. -/
def decimalDigits (l : List (Fin 10)) : List Char := l.map decimalDigit

theorem decimalDigits_ne_mark {c : Char} {l : List (Fin 10)} (h : c ∈ decimalDigits l) : c ∉ ['+', '-', '.', '#'] := by
  obtain ⟨d, -, rfl⟩ := List.mem_map.mp h
  exact decimalDigit_not_mark d

theorem decimalDigits_append (l m : List (Fin 10)) :
    decimalDigits (l ++ m) = decimalDigits l ++ decimalDigits m := List.map_append

@[simp] theorem length_decimalDigits (l : List (Fin 10)) : (decimalDigits l).length = l.length := List.length_map _

theorem digitsValue_decimalDigits (n : Nat) (l : List (Fin 10)) :
    digitsValue 10 digitValue n (decimalDigits l) = some (l.foldl (fun n d => 10 * n + d.val) n) := by
  induction l generalizing n with
  | nil => rfl
  | cons d l ih =>
    rw [decimalDigits, List.map_cons, digitsValue, digitValue_decimalDigit, List.foldl_cons, Nat.mul_comm 10 n]
    exact ih _

/-- Four hexadecimal digits after `#0x` are the field they write (R128). -/
theorem dbOperand_raw (a b c d : Fin 16) :
    dbOperand (['#', '0', 'x'] ++ [a, b, c, d].map hexDigit)
      = some (BitVec.ofNat 16 (((a.val * 16 + b.val) * 16 + c.val) * 16 + d.val)) := by
  simp [dbOperand, digitsValue, hexValue_hexDigit]

/-! ### The parts of a decimal literal -/

/-- A literal's point and the digits after it; nothing where there are none. -/
def pointAndDigits (fraction : List (Fin 10)) : List Char :=
  if fraction = [] then [] else '.' :: decimalDigits fraction

theorem drop_pointAndDigits (fraction : List (Fin 10)) : (pointAndDigits fraction).drop 1 = decimalDigits fraction := by
  cases fraction <;> simp [pointAndDigits, decimalDigits]

theorem takeWhile_pointAndDigits (fraction : List (Fin 10)) : (pointAndDigits fraction).takeWhile (· ≠ '.') = [] := by
  cases fraction <;> simp [pointAndDigits]

theorem dropWhile_pointAndDigits (fraction : List (Fin 10)) :
    (pointAndDigits fraction).dropWhile (· ≠ '.') = pointAndDigits fraction := by
  cases fraction <;> simp [pointAndDigits]

/-- A nonempty run of decimal digits begins with a character that is no mark. -/
theorem decimalDigits_cons {whole : List (Fin 10)} (hw : whole ≠ []) (tail : List Char) :
    ∃ c cs, decimalDigits whole ++ tail = c :: cs ∧ c ∉ ['+', '-', '.', '#'] := by
  cases whole with
  | nil => exact absurd rfl hw
  | cons d ds => exact ⟨decimalDigit d, decimalDigits ds ++ tail, rfl, decimalDigit_not_mark d⟩

/-- `takeSign` takes the sign off a literal whose text after it begins with a digit. -/
theorem takeSign_sign {sign : List Char} (hs : sign ∈ [[], ['+'], ['-']]) {whole : List (Fin 10)} (hw : whole ≠ [])
    (tail : List Char) :
    takeSign (sign ++ (decimalDigits whole ++ tail))
      = (if sign = ['-'] then -1 else 1, decimalDigits whole ++ tail) := by
  obtain ⟨c, cs, heq, hc⟩ := decimalDigits_cons hw tail
  simp only [List.mem_cons, List.not_mem_nil, or_false, not_or] at hs hc
  rw [heq]
  obtain rfl | rfl | rfl := hs
  · simp [takeSign, hc]
  · rfl
  · rfl

/-- A decimal literal does not begin with `#`, so it is read as a decimal number. -/
theorem dbOperand_literal {sign : List Char} (hs : sign ∈ [[], ['+'], ['-']]) {whole : List (Fin 10)} (hw : whole ≠ [])
    (tail : List Char) :
    dbOperand (sign ++ (decimalDigits whole ++ tail)) = decimalDb (sign ++ (decimalDigits whole ++ tail)) := by
  obtain ⟨c, cs, heq, hc⟩ := decimalDigits_cons hw tail
  simp only [List.mem_cons, List.not_mem_nil, or_false, not_or] at hs hc
  rw [heq]
  obtain rfl | rfl | rfl := hs
  · simp [dbOperand, hc]
  · rfl
  · rfl

/-! ### The value of a decimal literal -/

/-- The answer on a decimal number of `q / scale` units of 1/256 dB (R128). -/
def exactDb (q scale : Int) : Option DbQ :=
  if q % scale = 0 ∧ -32768 ≤ q / scale ∧ q / scale ≤ 32767 then some (BitVec.ofInt 16 (q / scale)) else none

/-- Exactness does not depend on the sign, and the exact quotient takes the sign out. -/
theorem exactDb_sign {sign : Int} (hs : sign = 1 ∨ sign = -1) (m scale : Nat) :
    (if m % scale = 0 then
      if -32768 ≤ sign * (m / scale : Nat) ∧ sign * (m / scale : Nat) ≤ 32767 then
        some (BitVec.ofInt 16 (sign * (m / scale : Nat)))
      else none
    else none) = exactDb (sign * m) scale := by
  have hdvd : sign * (m : Int) % scale = 0 ↔ m % scale = 0 := by
    rw [← Int.dvd_iff_emod_eq_zero, ← Nat.dvd_iff_mod_eq_zero]
    obtain rfl | rfl := hs
    · rw [one_mul, Int.natCast_dvd_natCast]
    · rw [neg_one_mul, Int.dvd_neg, Int.natCast_dvd_natCast]
  unfold exactDb
  by_cases h : m % scale = 0
  · have hq : sign * (m : Int) / scale = sign * (m / scale : Nat) := by
      rw [Int.mul_ediv_assoc _ (Int.natCast_dvd_natCast.mpr (Nat.dvd_of_mod_eq_zero h)), Int.natCast_ediv]
    simp [h, hdvd, hq]
  · simp [h, hdvd]

/-- A literal of a sign, digits, and a point with digits or none, is 256 times its value or refused. -/
theorem decimalDb_literal {sign : List Char} (hs : sign ∈ [[], ['+'], ['-']]) {whole : List (Fin 10)} (hw : whole ≠ [])
    (fraction : List (Fin 10)) :
    decimalDb (sign ++ (decimalDigits whole ++ pointAndDigits fraction))
      = exactDb ((if sign = ['-'] then -1 else 1) * (256 * decimalValue (whole ++ fraction) : Nat))
        (10 ^ fraction.length : Nat) := by
  have hpoint : ∀ c ∈ decimalDigits whole, decide (c ≠ '.') = true := fun c hc => by
    have := decimalDigits_ne_mark hc
    simp only [List.mem_cons, not_or] at this
    simp [this]
  have hempty : ¬ (decimalDigits whole = [] ∨ pointAndDigits fraction ≠ [] ∧ decimalDigits fraction = []) := by
    cases fraction <;> simp [decimalDigits, pointAndDigits, hw]
  rw [← exactDb_sign (by split <;> simp)]
  unfold decimalDb
  rw [takeSign_sign hs hw]
  simp only [List.takeWhile_append_of_pos hpoint, List.dropWhile_append_of_pos hpoint, takeWhile_pointAndDigits,
    dropWhile_pointAndDigits, drop_pointAndDigits, List.append_nil, if_neg hempty, ← decimalDigits_append,
    digitsValue_decimalDigits, length_decimalDigits]
  rfl

/-- Settles O9: a raw literal's digits are the field, and a decimal literal is read by `decimalDb`, exactly. -/
theorem assemblerIsExact : Obligations.AssemblerIsExact := by
  refine ⟨dbOperand_raw, fun sign whole fraction hs hw => ?_, by decide, by decide, by decide, by decide⟩
  have hscale : ((10 ^ fraction.length : Nat) : Int) = 10 ^ fraction.length := by simp
  have hq : (if sign = ['-'] then -1 else 1) * ((256 * decimalValue (whole ++ fraction) : Nat) : Int)
      = (if sign = ['-'] then -256 else 256) * decimalValue (whole ++ fraction) := by
    push_cast
    split <;> ring
  have h := decimalDb_literal hs hw fraction
  rw [← dbOperand_literal hs hw, ← List.append_assoc, hq, hscale] at h
  exact h

end Sys2Proof.Machine
end

section
/-! The codec's number formats (40_codec.md R154–R158): flooring division through the bounds it meets, the volume byte,
the tone steps and indices, and the fields of the two tone bytes. -/

namespace Sys2Proof.Machine

/-! ### R12: flooring division -/

section
variable {a b q : Int} (hb : 0 < b)
include hb

theorem le_floorDiv_iff : q ≤ floorDiv a b ↔ q * b ≤ a := by
  rw [floorDiv, Int.fdiv_eq_ediv_of_nonneg a hb.le]
  exact Int.le_ediv_iff_mul_le hb

theorem floorDiv_lt_iff : floorDiv a b < q ↔ a < q * b := by
  rw [← not_le, le_floorDiv_iff hb, not_le]

theorem mul_floorDiv_le : b * floorDiv a b ≤ a := by
  rw [mul_comm]
  exact (le_floorDiv_iff hb).mp le_rfl

theorem lt_mul_floorDiv_add_one : a < b * (floorDiv a b + 1) := by
  rw [mul_comm]
  exact (floorDiv_lt_iff hb).mp (lt_add_one _)

theorem floorDiv_mul_right : floorDiv (q * b) b = q := by
  rw [floorDiv, Int.fdiv_eq_ediv_of_nonneg _ hb.le]
  exact Int.mul_ediv_cancel q hb.ne'

theorem floorDiv_mono {a' : Int} (h : a ≤ a') : floorDiv a b ≤ floorDiv a' b := by
  rw [le_floorDiv_iff hb, mul_comm]
  exact (mul_floorDiv_le hb).trans h

end

theorem le_clamp {v lo hi : Int} (h : lo ≤ hi) : lo ≤ clamp v lo hi := le_min (le_max_right v lo) h

theorem clamp_le (v lo hi : Int) : clamp v lo hi ≤ hi := min_le_right _ _

/-! ### R157, R163: the volume byte -/

theorem asr_mono {a a' : Int} (k : Nat) (h : a ≤ a') : asr a k ≤ asr a' k := floorDiv_mono (by positivity) h

/-- The count of half-decibel steps that the volume byte is the low byte of. -/
def halfDbSteps (d : DbQ) (lo hi : Int) : Int := asr (clamp d.toInt lo hi) 7

theorem volCode_eq (d : DbQ) (lo hi : Int) : volCode d lo hi = BitVec.ofInt 8 (halfDbSteps d lo hi) := rfl

theorem halfDbSteps_range (d : DbQ) {lo hi : Int} (h : lo ≤ hi) :
    asr lo 7 ≤ halfDbSteps d lo hi ∧ halfDbSteps d lo hi ≤ asr hi 7 :=
  ⟨asr_mono 7 (le_clamp h), asr_mono 7 (clamp_le _ lo hi)⟩

theorem halfDbSteps_of_le {d : DbQ} {lo hi : Int} (h : hi ≤ d.toInt) : halfDbSteps d lo hi = asr hi 7 := by
  rw [halfDbSteps, clamp, min_eq_right (h.trans (le_max_left _ _))]

/-- Settles O35: the byte is that of `halfDbSteps`, a flooring division by 128; the headphone range gives −204 to 0 steps,
and 1 is the low byte of none of these. -/
theorem volumeCodeRoundsDown : Obligations.VolumeCodeRoundsDown := by
  refine ⟨fun d lo hi h => ⟨halfDbSteps d lo hi, volCode_eq d lo hi, ?_, ?_, halfDbSteps_range d h⟩,
    fun d => ⟨fun hone => ?_, fun hpos => ?_⟩⟩
  · exact mul_floorDiv_le (b := 2 ^ 7) (by decide)
  · exact lt_mul_floorDiv_add_one (b := 2 ^ 7) (by decide)
  · have hrange : -204 ≤ halfDbSteps d (-26112) 0 ∧ halfDbSteps d (-26112) 0 ≤ 0 :=
      halfDbSteps_range d (by decide)
    have hbyte : (halfDbSteps d (-26112) 0 % 256).toNat = 1 := by
      rw [volCode_eq] at hone
      exact congrArg BitVec.toNat hone
    omega
  · rw [volCode_eq, halfDbSteps_of_le hpos.le]
    rfl

/-! ### R158: tone steps and indices -/

theorem freqIdx_toNat (p : Params) (i : BitVec 2) :
    (freqIdx p i).toNat = min i.toNat (p.freqCount - 1) := by
  rw [freqIdx, BitVec.toNat_ofNat]
  refine Nat.mod_eq_of_lt ?_
  omega

/-- Settles O36: the bounds of the clamp are multiples of the tone step, so their flooring division gives them back. -/
theorem toneQuantisationClampsAndFloors : Obligations.ToneQuantisationClampsAndFloors := by
  intro p hv
  obtain ⟨-, hmin, hmax, -⟩ := Params.tone_of_valid hv
  have hq := Params.toneStep_of_valid hv
  have hbounds : p.toneMinSteps * p.toneStepQ ≤ p.toneMaxSteps * p.toneStepQ :=
    Int.mul_le_mul_of_nonneg_right (hmin.trans hmax) hq.le
  refine ⟨fun d => ?_, freqIdx_toNat p, rfl⟩
  rw [mul_comm p.toneStepQ p.toneMinSteps, mul_comm p.toneStepQ p.toneMaxSteps]
  refine ⟨mul_floorDiv_le hq, lt_mul_floorDiv_add_one hq, ?_, ?_⟩
  · exact (le_floorDiv_iff hq).mpr (le_clamp hbounds)
  · exact (floorDiv_mono hq (clamp_le _ _ _)).trans (floorDiv_mul_right hq).le

/-! ### R155, R156: the tone bytes -/

theorem Params.codec_of_valid {p : Params} (h : p.valid = true) :
    p.vals.toneCfgBase.extractLsb' 1 4 = 0 ∧ p.toneNib.length = 16 := by
  simp only [Params.valid, Params.validCodec, Bool.and_eq_true, decide_eq_true_eq] at h
  obtain ⟨-, -, -, -, -, hbase, hnib, -⟩ := h
  exact ⟨hbase, hnib⟩

/-- A field inside a field that is 0 is 0. -/
theorem extractLsb'_eq_zero_of_inside {w lo len : Nat} {x : BitVec w} (h : x.extractLsb' lo len = 0) (k n : Nat)
    (hk : k + n ≤ len) : x.extractLsb' (lo + k) n = 0 := by
  ext i hi
  have hbit := congrArg (BitVec.getLsbD · (k + i)) h
  simpa [show k + i < len by omega, hi, Nat.add_assoc] using hbit

/-- Where an index of `tf << 3` lies in a byte (R156). -/
theorem trebleIndex_fields (x : BitVec 2) :
    (x.setWidth 8 <<< 3).extractLsb' 5 3 = 0#3 ∧ (x.setWidth 8 <<< 3).extractLsb' 3 2 = x ∧
      (x.setWidth 8 <<< 3).extractLsb' 1 2 = 0#2 ∧ (x.setWidth 8 <<< 3).extractLsb' 0 1 = 0#1 := by
  revert x; decide

/-- Where an index of `bf << 1` lies in a byte (R156). -/
theorem bassIndex_fields (x : BitVec 2) :
    (x.setWidth 8 <<< 1).extractLsb' 5 3 = 0#3 ∧ (x.setWidth 8 <<< 1).extractLsb' 3 2 = 0#2 ∧
      (x.setWidth 8 <<< 1).extractLsb' 1 2 = x ∧ (x.setWidth 8 <<< 1).extractLsb' 0 1 = 0#1 := by
  revert x; decide

/-- The code of a step count is `TONE_NIB`'s where the table has one. -/
theorem getElem?_toneNib {p : Params} (h : p.toneNib.length = 16) {s : Int} (hlo : -7 ≤ s) (hhi : s ≤ 8) :
    p.toneNib[(s + 7).toNat]? = some (toneNib p s) := by
  have hlt : (s + 7).toNat < p.toneNib.length := by omega
  rw [toneNib, if_neg (by omega), List.getD_eq_getElem _ _ hlt, List.getElem?_eq_getElem hlt]

/-- The reference table (R155), by its index, 7 above the step count. -/
theorem referenceToneNib_code {k : Nat} (hk : k < 16) :
    referenceToneNib[k]?.map BitVec.toNat = some (15 - k) := by
  revert k; decide

/-- The reference table's code (R155). -/
theorem toneNib_reference {s : Int} (hlo : -7 ≤ s) (hhi : s ≤ 8) :
    ((toneNib Params.reference s).toNat : Int) = (8 - s) % 16 := by
  have hcode := referenceToneNib_code (k := (s + 7).toNat) (by omega)
  have hnib := getElem?_toneNib (p := Params.reference) rfl hlo hhi
  rw [show referenceToneNib[(s + 7).toNat]? = some (toneNib Params.reference s) from hnib, Option.map_some,
    Option.some.injEq] at hcode
  rw [hcode]
  omega

/-- Settles O37: each part of the configuration byte is 0 where another part has its field. -/
theorem toneBytesHoldTheirFields : Obligations.ToneBytesHoldTheirFields := by
  intro p t hv
  obtain ⟨hbase, hnib⟩ := Params.codec_of_valid hv
  obtain ⟨htop, htreble, htbass, htlow⟩ := trebleIndex_fields t.tf
  obtain ⟨hbtop, hbtreble, hbass, hblow⟩ := bassIndex_fields t.bf
  have hbase43 : p.vals.toneCfgBase.extractLsb' 3 2 = 0 := extractLsb'_eq_zero_of_inside hbase 2 2 (by decide)
  have hbase21 : p.vals.toneCfgBase.extractLsb' 1 2 = 0 := extractLsb'_eq_zero_of_inside hbase 0 2 (by decide)
  refine ⟨extract_high _ _, extract_low _ _, ?_, ?_, ?_, ?_,
    fun s hlo hhi => ⟨getElem?_toneNib hnib hlo hhi, toneNib_reference hlo hhi⟩⟩
  · simp [toneCfgByte, BitVec.extractLsb'_or, htop, hbtop]
  · simp [toneCfgByte, BitVec.extractLsb'_or, hbase43, htreble, hbtreble]
  · simp [toneCfgByte, BitVec.extractLsb'_or, hbase21, htbass, hbass]
  · simp [toneCfgByte, BitVec.extractLsb'_or, htlow, hblow]

end Sys2Proof.Machine
end

section
/-! Who uses the control bus (40_codec.md R151, R168): of a step's agents only `FG` does, by one of its command's own
writes, and the registers of those writes are known by the command. -/

namespace Sys2Proof.Machine

/-! ### R151, R302: only `FG` -/

/-- From `s`, where a command of `FG` other than `GET_STATE` and `FORMAT` is in progress, `t` has one bus record more. -/
structure UsesBus (s t : State) : Prop where
  irq : s.irqEnabled = false
  busy : s.fg.busy = true
  cmd : ∃ i, s.fg.cmd = some (.command i) ∧ i.isCommand = true ∧ i ≠ .getState ∧ ∀ ctl, i ≠ .format ctl
  trace : ∃ r, t.traces.bus = s.traces.bus ++ [r] ∧ r.addr = s.params.codecAddr

theorem usesBus_of_mem_commandWrites {p : Params} {t : Tone} {i : Instr} {w : Byte × Byte}
    (h : w ∈ commandWrites p t i) : i ≠ .getState ∧ ∀ ctl, i ≠ .format ctl := by
  refine ⟨?_, fun ctl => ?_⟩ <;> rintro rfl <;> cases h

/-- What a step of the context can do to the bus trace. -/
theorem contextStep_bus_cases {s t : State} (h : contextStep s = .next t) :
    t.traces.bus = s.traces.bus ∨ UsesBus s t := by
  obtain ⟨-, hb⟩ | ⟨-, -, rfl⟩ | ⟨hirq, hbusy, i, hcmd, hi, hb⟩ | ⟨-, -, -, rfl⟩ | ⟨-, -, rfl⟩ := contextStep_cases h
  · exact .inl hb.keeps.busTrace
  · exact .inl (congrArg Traces.bus (irqEnter_traces s))
  · obtain ⟨hkept, -⟩ | ⟨reg, val, hw, htrace, -⟩ := hb.bus_cases
    · exact .inl hkept
    · exact .inr ⟨hirq, hbusy, ⟨i, hcmd, hi, usesBus_of_mem_commandWrites hw⟩, ⟨_, htrace, rfl⟩⟩
  · exact .inl rfl
  · exact .inl (congrArg Traces.bus (takeCommand_traces s))

/-- Settles O56: neither waiting nor the transfer touches the bus trace, and `contextStep_bus_cases` says who does. -/
theorem onlyForegroundUsesTheBus : Obligations.OnlyForegroundUsesTheBus := by
  intro s t h hne
  obtain ⟨-, ⟨-, -, -, rfl⟩ | ⟨-, f, hd⟩ | ⟨-, f, hc⟩⟩ := step_cases h
  · exact absurd rfl hne
  · obtain ⟨w, -, rfl⟩ := dmaStep_cases hd
    exact absurd rfl hne
  · obtain ⟨hirq, hbusy, hcmd, htrace⟩ := (contextStep_bus_cases hc).resolve_left hne
    exact ⟨hirq, hbusy, hcmd, htrace⟩

/-! ### R168: the registers of a command's writes -/

/-- The registers of every role but the four volume registers (R152). -/
def otherRegisters (m : RegMap) : List Byte :=
  [m.pwrCtl, m.routing, m.clocking, m.iface, m.miscCtl, m.playbackCtl, m.toneCfg, m.toneGain] ++ m.pcmMute

theorem muteWrites_otherRegisters (m : RegMap) (v : Byte) :
    ∀ w ∈ m.pcmMute.map (·, v), w.1 ∈ otherRegisters m := by
  simp +contextual [otherRegisters]

theorem toneWrites_otherRegisters (p : Params) (gain cfg : Byte) :
    ∀ w ∈ [(p.regMap.toneGain, gain), (p.regMap.toneCfg, cfg)], w.1 ∈ otherRegisters p.regMap := by
  simp [otherRegisters]

/-- A command other than the volume commands writes registers of other roles only. -/
theorem commandWrites_otherRegisters (p : Params) (t : Tone) {i : Instr} (hm : ∀ db, i ≠ .setMvol db)
    (hh : ∀ db, i ≠ .setHpvol db) : ∀ w ∈ commandWrites p t i, w.1 ∈ otherRegisters p.regMap := by
  cases i with
  | init => simp [commandWrites, otherRegisters]
  | pdn =>
    refine List.forall_mem_append.mpr ⟨muteWrites_otherRegisters _ _, ?_⟩
    simp [otherRegisters]
  | setMvol db => exact absurd rfl (hm db)
  | setHpvol db => exact absurd rfl (hh db)
  | setHpMute on => simp [commandWrites, otherRegisters]
  | setMute on => exact muteWrites_otherRegisters _ _
  | play => exact muteWrites_otherRegisters _ _
  | stop => exact muteWrites_otherRegisters _ _
  | setTone b tr f g => exact toneWrites_otherRegisters _ _ _
  | inc ctl => exact toneWrites_otherRegisters _ _ _
  | dec ctl => exact toneWrites_otherRegisters _ _ _
  | getState | format ctl | evtHt | evtTc => exact List.forall_mem_nil _

/-- What any block can add to the bus trace: one record of a register that its instruction writes. -/
theorem exec_bus_cases {i : Instr} {s t : State} (h : exec i s = .next t) :
    t.traces.bus = s.traces.bus ∨
    ∃ reg val, (reg, val) ∈ commandWrites s.params s.tone i ∧
      t.traces.bus = s.traces.bus ++ [⟨s.params.codecAddr, reg, val, s.busAnswer⟩] := by
  by_cases hi : i.isCommand = true
  · obtain ⟨hkept, -⟩ | ⟨reg, val, hw, htrace, -⟩ := (exec_isBlock hi h).bus_cases
    · exact .inl hkept
    · exact .inr ⟨reg, val, hw, htrace⟩
  · cases i with
    | evtHt => exact .inl (exec_isIrqBlock (e := .ht) h).keeps.busTrace
    | evtTc => exact .inl (exec_isIrqBlock (e := .tc) h).keeps.busTrace
    | _ => exact absurd rfl hi

/-- Settles O57: a new record is of a register of another role, and no volume register is one. -/
theorem volumeIsNeverUsedAsMute : Obligations.VolumeIsNeverUsedAsMute := by
  intro i s t h hm hh hroles r hr
  obtain hkept | ⟨reg, val, hw, htrace⟩ := exec_bus_cases h
  · exact .inl (hkept ▸ hr)
  · rw [htrace, List.mem_append, List.mem_singleton] at hr
    refine hr.imp_right ?_
    rintro rfl hvol
    exact hroles reg hvol (commandWrites_otherRegisters _ _ hm hh _ hw)

end Sys2Proof.Machine
end

section
/-! The codec's commands block by block (40_codec.md R160–R167): each kind of block in the statements' terms at the
position it stands at, and from these every block of every command. -/

namespace Sys2Proof.Machine

/-! ### Blocks at a known position -/

section
variable {s : State} {k : Nat} (h : s.fg.pos = k)
include h

theorem fgAdvance_at : fgAdvance s = goOn (k + 1) s := fgAdvance_eq (congrArg (· + 1) h)

theorem clearFail_at : fgAdvance (fgSetFail false s) = clearFail (k + 1) s :=
  fgAdvance_at (s := fgSetFail false s) h

theorem busBlock_at (reg val : Byte) : busBlock reg val s = goOn (k + 1) (wrote reg val s) :=
  busBlock_eq reg val (congrArg (· + 1) h)

theorem toneWrite_gain :
    toneWrite k s = .next (goOn (k + 1) (wrote s.params.regMap.toneGain (toneGainByte s.params s.tone) s)) := by
  rw [toneWrite, if_pos h, busBlock_at h]

end

theorem toneWrite_cfg {s : State} {k : Nat} (h : s.fg.pos = k + 1) :
    toneWrite k s = .next (endedBus (wrote s.params.regMap.toneCfg (toneCfgByte s.params s.tone) s)) := by
  rw [toneWrite, if_neg (by omega), if_pos h, busLastBlock_eq]

section
variable {s : State} (a b c : Byte)

theorem volumeWrite_left (h : s.fg.pos = 0) : volumeWrite a b c s = .next (goOn 1 (wrote a c s)) := by
  rw [volumeWrite, h]
  exact congrArg Host.Outcome.next (busBlock_at h a c)

theorem volumeWrite_right (h : s.fg.pos = 1) : volumeWrite a b c s = .next (endedBus (wrote b c s)) := by
  rw [volumeWrite, h]
  exact congrArg Host.Outcome.next (busLastBlock_eq b c s)

end

/-! ### The words -/

/-- The words of a well-formed command, alone at the port, are taken as that command. -/
theorem takeCommandWords_encode {legacy : Bool} {i : Instr} {words : List Word} (hwords : words = encode i)
    (hwf : i.wellFormedCommand legacy = true) : takeCommandWords legacy words = some (.command i, []) := by
  have h := encodedCommandDecodesToItself legacy i [] hwf
  rwa [List.append_nil, ← hwords] at h

/-! ### The commands -/

/-- Settles O18: the reset line and the clock are recorded by `setCodecRst` and `setSclkEn`, the waits pass, and the five
writes are bus blocks. -/
theorem initPowersTheCodecUp : Obligations.InitPowersTheCodecUp := by
  refine ⟨fun _ => takeCommandWords_encode rfl rfl, fun s => ?_⟩
  refine ⟨fun h => ?_, fun h => ?_, fun h => ?_, fun h => ?_, fun h => ?_, fun h => ?_, fun h => ?_, fun h => ?_,
    fun h => ?_, fun h => ?_⟩ <;> rw [exec, execInit, h]
  · exact congrArg Host.Outcome.next (clearFail_at (s := setCodecRst .asserted s) h)
  · exact congrArg Host.Outcome.next (fgAdvance_at h)
  · exact congrArg Host.Outcome.next (fgAdvance_at (s := setCodecRst .released s) h)
  · exact congrArg Host.Outcome.next (fgAdvance_at (s := setSclkEn true s) h)
  · exact congrArg Host.Outcome.next (fgAdvance_at h)
  · exact congrArg Host.Outcome.next (busBlock_at h _ _)
  · exact congrArg Host.Outcome.next (busBlock_at h _ _)
  · exact congrArg Host.Outcome.next (busBlock_at h _ _)
  · exact congrArg Host.Outcome.next (busBlock_at h _ _)
  · exact congrArg Host.Outcome.next (busLastBlock_eq _ _ s)

/-- Settles O19: the mute loop at any register of the list, then two bus blocks and the result. -/
theorem pdnPowersTheCodecDown : Obligations.PdnPowersTheCodecDown := by
  refine ⟨fun _ => takeCommandWords_encode rfl rfl, fun s => ?_⟩
  refine ⟨fun h => ?_, fun h reg hreg => ?_, fun h => ?_, fun h => ?_, fun h => ?_⟩ <;> rw [exec, execPdn, h]
  · exact congrArg Host.Outcome.next (clearFail_at h)
  · exact congrArg Host.Outcome.next (pcmMuteBlock_eq _ h hreg)
  · exact congrArg Host.Outcome.next (busBlock_at h _ _)
  · exact congrArg Host.Outcome.next (busBlock_at h _ _)
  · exact congrArg Host.Outcome.next (fgFinishBus_eq s)

/-- Settles O20: `SET_MVOL` is a volume write over the master range. -/
theorem setMvolWritesBothChannels : Obligations.SetMvolWritesBothChannels := fun _ _ =>
  ⟨fun _ => takeCommandWords_encode rfl rfl, volumeWrite_left _ _ _, volumeWrite_right _ _ _⟩

/-- Settles O21: `SET_HPVOL` is a volume write over the headphone range. -/
theorem setHpvolWritesBothChannels : Obligations.SetHpvolWritesBothChannels := fun _ _ =>
  ⟨fun _ => takeCommandWords_encode rfl rfl, volumeWrite_left _ _ _, volumeWrite_right _ _ _⟩

/-- Settles O22: the mute loop at any register of the list, with the value for `on`. -/
theorem setMuteWritesEveryPcmRegister : Obligations.SetMuteWritesEveryPcmRegister := by
  refine ⟨fun _ => takeCommandWords_encode rfl rfl, fun _ => takeCommandWords_encode rfl rfl, fun on s => ?_⟩
  refine ⟨fun h => ?_, fun h reg hreg => ?_, fun h => ?_⟩ <;> rw [exec, execSetMute, h]
  · exact congrArg Host.Outcome.next (clearFail_at h)
  · exact congrArg Host.Outcome.next (pcmMuteBlock_eq _ h hreg)
  · exact congrArg Host.Outcome.next (fgFinishBus_eq s)

/-- Settles O23: the parameter decides, in the decoder and in the one block. -/
theorem setHpMuteWritesTheLegacyRegister : Obligations.SetHpMuteWritesTheLegacyRegister := by
  refine ⟨takeCommandWords_encode rfl rfl, takeCommandWords_encode rfl rfl, fun on => ⟨.noLegacyHpMute, ?_⟩,
    fun on s h => ?_⟩
  · cases on <;> rfl
  · rw [exec, execSetHpMute, h]
    refine ⟨fun hl => ?_, fun hl => ?_⟩
    · exact (if_pos hl).trans (congrArg Host.Outcome.next (busLastBlock_eq _ _ s))
    · exact if_neg (by simp [hl])

/-- Settles O24: the tone state is set, then `TONE_WRITE` runs from block 1. -/
theorem setToneUpdatesThenWrites : Obligations.SetToneUpdatesThenWrites := by
  intro bass treble bf tf s
  refine ⟨fun _ => takeCommandWords_encode rfl rfl, fun h => ?_, fun h => ?_, fun h => ?_⟩ <;> rw [exec, execSetTone, h]
  · exact congrArg Host.Outcome.next (fgAdvance_at h)
  · exact toneWrite_gain h
  · exact toneWrite_cfg h

end Sys2Proof.Machine
end

section
/-! The silence of a stopped stream (41_stream_buffer.md R202, R216). Outside `STOP`'s window, from its store of the
stream state to its result, silence says of a stopped stream that its buffer is empty; only `STOP`'s zero fill and a
refill, which runs in a streaming state, write the buffer; and inside the window `STOP` is taken block by block. -/

namespace Sys2Proof.Machine

/-! ### R216: what silence says -/

/-- No `STOP` is past its store of the stream state. -/
def State.BeforeStore (s : State) : Prop := s.fg.cmd = some (.command .stop) → s.fg.pos < 3

theorem State.BeforeStore.not_filling {s : State} (h : s.BeforeStore) : s.stopFilling = false := by
  by_cases hc : s.fg.cmd = some (.command .stop)
  · have hpos := h hc
    simp [State.stopFilling, Nat.not_le.mpr hpos]
  · simp [State.stopFilling, hc]

theorem State.BeforeStore.silence_iff {s : State} (h : s.BeforeStore) :
    s.Silence ↔ (s.stream = .stopped → s.buf = []) := by
  refine ⟨fun hs hst => hs.zero hst h.not_filling, fun hz => ⟨fun hst _ => hz hst, fun hfill => ?_, fun _ hc hpos => ?_⟩⟩
  · rw [h.not_filling] at hfill
    cases hfill
  · exact absurd (h hc) (Nat.not_lt.mpr hpos)

theorem stopFilling_of_pos {s : State} {k : Nat} (hbusy : s.fg.busy = true) (hcmd : s.fg.cmd = some (.command .stop))
    (hpos : s.fg.pos = k) : s.stopFilling = (decide (3 ≤ k) && decide (k ≤ 4)) := by
  simp [State.stopFilling, hbusy, hcmd, hpos]

/-- Silence depends on the sequencer, the stream state and the buffer; a streaming state's buffer is free. -/
theorem State.Silence.of_sameStream {s t : State} (hs : s.Silence) (hfg : t.fg = s.fg) (hst : t.stream = s.stream)
    (hbuf : s.stream = .stopped → t.buf = s.buf) : t.Silence := by
  have hfill : t.stopFilling = s.stopFilling := by rw [State.stopFilling, State.stopFilling, hfg]
  have hidx : t.acc.idx = s.acc.idx := by rw [State.acc, State.acc, hfg]
  refine ⟨fun hz hn => ?_, fun hf hpos a ha => ?_, fun hbusy hcmd hpos => ?_⟩
  · rw [hst] at hz
    rw [hbuf hz, hs.zero hz (hfill ▸ hn)]
  · rw [hfill] at hf
    rw [hfg] at hpos
    rw [hidx] at ha
    have hstop : s.stream = .stopped := by
      simp only [State.stopFilling, Bool.and_eq_true, decide_eq_true_eq] at hf
      obtain ⟨⟨⟨hbusy, hcmd⟩, hlo⟩, -⟩ := hf
      exact hs.stopped hbusy hcmd hlo
    rw [hbuf hstop]
    exact hs.filled hf hpos a ha
  · rw [hfg] at hbusy hcmd hpos
    rw [hst]
    exact hs.stopped hbusy hcmd hpos

/-! ### R202: `STOP`, block by block -/

@[simp] theorem pcmMuteBlock_stream (val : Byte) (s : State) : (pcmMuteBlock val s).stream = s.stream := by
  unfold pcmMuteBlock
  split <;> simp

@[simp] theorem pcmMuteBlock_buf (val : Byte) (s : State) : (pcmMuteBlock val s).buf = s.buf := by
  unfold pcmMuteBlock
  split <;> simp

theorem fgLoop_pos_le (another : Bool) (s : State) : (fgLoop another s).fg.pos ≤ s.fg.pos + 1 := by
  cases another
  · exact le_rfl
  · exact Nat.le_succ _

theorem pcmMuteBlock_pos_le (val : Byte) (s : State) : (pcmMuteBlock val s).fg.pos ≤ s.fg.pos + 1 := by
  unfold pcmMuteBlock
  split <;> exact fgLoop_pos_le _ _

/-- Silence up to `STOP`'s store, kept where a stopped stream was one before and the buffer is as it was. -/
theorem State.Silence.of_beforeStore {s t : State} (hs : s.Silence) (hbs : s.BeforeStore) (hbt : t.BeforeStore)
    (hkeep : t.stream = .stopped → s.stream = .stopped ∧ t.buf = s.buf) : t.Silence := by
  refine hbt.silence_iff.mpr fun hst => ?_
  obtain ⟨hst', hbuf⟩ := hkeep hst
  rw [hbuf]
  exact hbs.silence_iff.mp hs hst'

theorem State.Silence.of_filling {s : State} (hfill : s.stopFilling = true) (hst : s.stream = .stopped)
    (hzero : s.fg.pos = 4 → ∀ a, a < 2 * s.acc.idx → Memory.read s.buf a = 0) : s.Silence :=
  ⟨fun _ hn => absurd (hfill.symm.trans hn) (by decide), fun _ => hzero, fun _ _ _ => hst⟩

theorem State.Silence.of_empty {s : State} (hst : s.stream = .stopped) (hbuf : s.buf = []) : s.Silence :=
  ⟨fun _ _ => hbuf, fun _ _ a _ => by rw [hbuf, Memory.read_nil], fun _ _ _ => hst⟩

theorem stop_idx_lt {s : State} (hfg : fgInv s) (hbusy : s.fg.busy = true) (hcmd : s.fg.cmd = some (.command .stop)) :
    s.acc.idx < iterations s.params .stop s.fg.pos := by
  simp only [fgInv, hbusy, hcmd, if_true] at hfg
  obtain ⟨-, -, -, hidx⟩ := hfg
  exact hidx

/-- The end of one iteration of the fill, which has zeroed the words up to and with its index: it goes on in silence, or
leaves an empty buffer behind it. -/
theorem looped_silence {u : State} (hv : u.params.valid = true) (hbusy : u.fg.busy = true)
    (hcmd : u.fg.cmd = some (.command .stop)) (hst : u.stream = .stopped) (hidx : u.acc.idx < u.params.bufWords)
    (hfill : Filling u.params (u.acc.idx + 1) u.buf) : (looped 4 u.params.bufWords u).Silence := by
  unfold looped
  split
  · exact .of_filling (stopFilling_of_pos (k := 4) hbusy hcmd rfl) hst fun _ => hfill.zero
  · have hend : u.acc.idx + 1 = u.params.bufWords := by omega
    exact .of_empty hst (Filling.eq_nil hv (hend ▸ hfill))

theorem zeroFillBlock_silence {s t : State} (hs : s.Silence) (hinv : s.Inv) (hbusy : s.fg.busy = true)
    (hcmd : s.fg.cmd = some (.command .stop)) (hpos : s.fg.pos = 4) (h : zeroFillBlock s = .next t) : t.Silence := by
  have hidx : s.acc.idx < s.params.bufWords := by
    have := stop_idx_lt hinv.fg hbusy hcmd
    rwa [hpos] at this
  have hfill : s.stopFilling = true := stopFilling_of_pos hbusy hcmd hpos
  rw [zeroFillBlock_eq hpos hidx] at h
  cases h
  exact looped_silence (u := { s with buf := zeroWord s.acc.idx s.buf }) hinv.params hbusy hcmd
    (hs.stopped hbusy hcmd (by omega)) hidx
    (Filling.next ⟨hinv.bufWf, hinv.bufBelow, hs.filled hfill hpos⟩ hidx)

/-- `STOP`'s blocks: nothing before the store, then the window of the fill, which starts at word 0, then an empty
buffer. -/
theorem exec_stop_silence {s t : State} (hs : s.Silence) (hinv : s.Inv) (hbusy : s.fg.busy = true)
    (hcmd : s.fg.cmd = some (.command .stop)) (h : exec .stop s = .next t) : t.Silence := by
  simp only [exec, execStop] at h
  split at h <;> rename_i hpos
  · cases h
    exact hs.of_beforeStore (fun _ => by omega) (fun _ => by simp [hpos]) fun hst => ⟨hst, rfl⟩
  · cases h
    have hle := pcmMuteBlock_pos_le s.params.vals.pcmMuteOn s
    exact hs.of_beforeStore (fun _ => by omega) (fun _ => by omega) fun hst => ⟨by simpa using hst, by simp⟩
  · cases h
    exact .of_filling (stopFilling_of_pos (k := 3) hbusy hcmd (by simp [hpos])) rfl fun h4 => by simp [hpos] at h4
  · cases h
    have hidx : s.acc.idx < 1 := by
      have := stop_idx_lt hinv.fg hbusy hcmd
      rwa [hpos] at this
    exact .of_filling (stopFilling_of_pos (k := 4) hbusy hcmd (congrArg (· + 1) hpos))
      (hs.stopped hbusy hcmd (by omega)) fun _ a ha => absurd (show a < 2 * s.acc.idx from ha) (by omega)
  · exact zeroFillBlock_silence hs hinv hbusy hcmd hpos h
  · cases h
    have hst : s.stream = .stopped := hs.stopped hbusy hcmd (by omega)
    exact .of_empty hst (hs.zero hst (stopFilling_of_pos hbusy hcmd hpos))
  · cases h

/-! ### R216: every other step -/

/-- Only `STOP`'s zero fill writes the buffer. -/
theorem FgBlock.buf_eq {i : Instr} {s t : State} (h : FgBlock i s t) (hi : i ≠ .stop) : t.buf = s.buf := by
  cases h
  case fill => exact absurd rfl hi
  all_goals simp [busBlock, busLastBlock, fgFinishBus, setCodecRst, setSclkEn, meterReset, setMeter, raiseIllegal]

/-- A block leaves its command in progress or ends it. -/
theorem FgBlock.cmd_cases {i : Instr} {s t : State} (h : FgBlock i s t) : t.fg.cmd = s.fg.cmd ∨ t.fg.cmd = none := by
  cases h
  case busLast | finishBus | state | text | noLegacy => exact .inr rfl
  case mute another _ _ => cases another <;> exact .inl rfl
  case fill another hw =>
    obtain ⟨-, -, rfl⟩ := memWriteWord_cases hw
    cases another <;> exact .inl rfl
  case start => exact .inl (by simp)
  all_goals exact .inl rfl

theorem FgBlock.silence {i : Instr} {s t : State} (h : FgBlock i s t) (hs : s.Silence)
    (hcmd : s.fg.cmd = some (.command i)) (hi : i ≠ .stop) : t.Silence := by
  have hbefore : s.fg.cmd ≠ some (.command .stop) := by simpa [hcmd] using hi
  refine hs.of_beforeStore (absurd · hbefore) (fun hc => ?_) fun hst => ⟨?_, h.buf_eq hi⟩
  · obtain he | he := h.cmd_cases <;> rw [he] at hc
    · exact absurd hc hbefore
    · cases hc
  · obtain he | ⟨-, he⟩ | ⟨rfl, -⟩ := h.stream_cases
    · exact he ▸ hst
    · exact absurd (he.symm.trans hst) (by decide)
    · exact absurd rfl hi

/-- A handler's block writes the buffer in a streaming state only (R213). -/
theorem IrqBlock.buf_of_stopped {e : Event} {s t : State} (h : IrqBlock e s t) (hirq : irqInv s)
    (hact : s.irq.active = true) (hst : s.stream = .stopped) : t.buf = s.buf := by
  obtain hb | ⟨hp, -⟩ := h.buf_cases
  · exact hb
  · simp only [irqInv, hact, if_true] at hirq
    obtain ⟨-, -, hstreaming, -⟩ := hirq
    exact absurd (hst.symm.trans (hstreaming (by omega) (by omega))) (by decide)

theorem takeCommand_silence {s : State} (hs : s.Silence) (hfg : fgInv s) (hidle : s.fg.busy = false) :
    (takeCommand s).Silence := by
  have hempty : s.fg = ⟨false, none, 0, none⟩ := by simpa [fgInv, hidle] using hfg
  obtain ⟨-, he⟩ | ⟨d, rest, -, he⟩ := takeCommand_cases s <;> rw [he]
  · exact hs
  · exact hs.of_beforeStore (fun _ => by simp [hempty]) (fun _ => Nat.succ_pos 2) fun hst => ⟨hst, rfl⟩

theorem contextStep_silence {s t : State} (hs : s.Silence) (hinv : s.Inv) (h : contextStep s = .next t) :
    t.Silence := by
  obtain ⟨hact, hb⟩ | ⟨-, -, rfl⟩ | ⟨hirq, hbusy, i, hcmd, hi, hb⟩ | ⟨-, -, ⟨why, hcmd⟩, rfl⟩ | ⟨-, hidle, rfl⟩ :=
    contextStep_cases h
  · exact hs.of_sameStream hb.keeps.fg hb.keeps.stream (hb.buf_of_stopped hinv.irq hact)
  · have hsame := irqEnter_sameForeground s
    exact hs.of_sameStream hsame.fg.symm hsame.stream.symm fun _ => irqEnter_buf s
  · by_cases hstop : i = .stop
    · subst hstop
      rw [contextStep_of_command hirq hbusy hcmd hi] at h
      exact exec_stop_silence hs hinv hbusy hcmd h
    · exact hb.silence hs hcmd hstop
  · exact hs.of_beforeStore (fun hc => by simp [hcmd] at hc) nofun fun hst => ⟨hst, rfl⟩
  · exact takeCommand_silence hs hinv.fg hidle

/-! ### R216: what the transfer emits -/

theorem contextStep_audio {s t : State} (h : contextStep s = .next t) : t.traces.audio = s.traces.audio := by
  obtain ⟨-, hb⟩ | ⟨-, -, rfl⟩ | ⟨-, -, i, -, -, hb⟩ | ⟨-, -, -, rfl⟩ | ⟨-, -, rfl⟩ := contextStep_cases h
  · exact hb.keeps.audioTrace
  · rw [irqEnter_traces]
  · exact hb.keeps.audioTrace
  · rfl
  · rw [takeCommand_traces]

/-- From an empty buffer the transfer emits the word 0. -/
theorem dmaStep_audio_of_empty {s t : State} (hbuf : s.buf = []) (hpos : s.dma.pos < s.params.bufWords)
    (h : dmaStep s = .next t) : t.traces.audio = s.traces.audio ++ [0] := by
  rw [dmaStep_eq hpos, hbuf] at h
  cases h
  simp [emit]

/-- The turn feed is no part of the invariant. -/
theorem State.Inv.withTurn {s : State} (h : s.Inv) (f : Feed Turn) : (s.withTurn f).Inv := { h with }

theorem State.Silence.withTurn {s : State} (h : s.Silence) (f : Feed Turn) : (s.withTurn f).Silence := { h with }

/-- Settles O49: the transfer touches neither the sequencer nor the stream nor the buffer, the context keeps silence by
`contextStep_silence`, and a stopped stream outside the fill has an empty buffer for the transfer to read. -/
theorem stoppedStreamStaysSilent : Obligations.StoppedStreamStaysSilent := by
  intro s t hinv hs h
  obtain ⟨-, ⟨-, -, -, rfl⟩ | ⟨-, f, hd⟩ | ⟨-, f, hc⟩⟩ := step_cases h
  · exact ⟨hs, fun _ _ => .inl rfl⟩
  · refine ⟨?_, fun hst hn => .inr (dmaStep_audio_of_empty (s := s.withTurn f) (hs.zero hst hn) hinv.dmaPos hd)⟩
    obtain ⟨w, -, rfl⟩ := dmaStep_cases hd
    exact hs.of_sameStream rfl rfl fun _ => rfl
  · exact ⟨contextStep_silence (hs.withTurn f) (hinv.withTurn f) hc,
      fun _ _ => .inl (contextStep_audio (s := s.withTurn f) hc)⟩

end Sys2Proof.Machine
end

section
/-! The transfer engine (41_stream_buffer.md R210, R220; 70_reset_and_hazards.md R360): what its step answers, and where
a run of its steps stands. -/

namespace Sys2Proof.Machine

/-! ### R220: one step -/

theorem dmaEnabled_iff {s : State} : s.dmaEnabled = true ↔ s.dma.running = true ∧ s.pins.sclkEn = true := by
  simp [State.dmaEnabled]

/-- Settles O34: inside the buffer `dmaStep_eq` gives the word and the move, and the move is the one stated. -/
theorem dmaStepEmitsAndNotifies : Obligations.DmaStepEmitsAndNotifies := fun _ =>
  ⟨dmaEnabled_iff, fun _ hpos => dmaStep_eq hpos⟩

/-! ### R210, R360: a run of steps -/

/-- The position after the wrap is the next one modulo `BUF_WORDS`. -/
theorem dmaMove_pos {s : State} (h : s.dma.pos < s.params.bufWords) :
    (dmaMove s).dma.pos = (s.dma.pos + 1) % s.params.bufWords := by
  rw [dmaMove_dma]
  dsimp only
  split
  · rename_i hend
    rw [hend, Nat.mod_self]
  · rw [Nat.mod_eq_of_lt (by omega)]

/-- A transfer step inside the buffer moves to the next position modulo `BUF_WORDS` and keeps the parameters and the
buffer. -/
theorem dmaStep_moves {s : State} (h : s.dma.pos < s.params.bufWords) :
    ∃ t, dmaStep s = .next t ∧ t.dma.pos = (s.dma.pos + 1) % s.params.bufWords ∧ t.params = s.params ∧ t.buf = s.buf :=
  ⟨_, dmaStep_eq h, dmaMove_pos (s := emit _ s) h, rfl, rfl⟩

theorem runDma_moves {s : State} (n : Nat) (h : s.dma.pos < s.params.bufWords) :
    ∃ t, runDma n s = .next t ∧ t.dma.pos = (s.dma.pos + n) % s.params.bufWords ∧ t.buf = s.buf := by
  induction n generalizing s with
  | zero => exact ⟨s, rfl, (Nat.mod_eq_of_lt h).symm, rfl⟩
  | succ n ih =>
    obtain ⟨u, hstep, hpos, hparams, hbuf⟩ := dmaStep_moves h
    have hlt : u.dma.pos < u.params.bufWords := by
      rw [hpos, hparams]
      exact Nat.mod_lt _ (Nat.zero_lt_of_lt h)
    obtain ⟨t, hrun, hpos', hbuf'⟩ := ih hlt
    refine ⟨t, by simp only [runDma, hstep, hrun], ?_, hbuf'.trans hbuf⟩
    rw [hpos', hpos, hparams, Nat.mod_add_mod, Nat.add_assoc, Nat.add_comm 1 n]

/-- Settles O59: `runDma_moves`, and `BUF_WORDS` is twice `HALF_WORDS`, so from the half-complete position the run wraps
once before word `j`, and from the full-complete one not at all. -/
theorem transferReachesTheTargetHalfOnTime : Obligations.TransferReachesTheTargetHalfOnTime := by
  intro s n hv h
  obtain ⟨-, -, -, hwords⟩ := Params.sizes_of_valid hv
  obtain ⟨t, hrun, hpos, hbuf⟩ := runDma_moves n h
  refine ⟨t, hrun, hpos, hbuf, fun j hp hn hj => ?_, fun j hp hn hj => ?_⟩ <;> rw [hpos, hp, hn, hwords]
  · rw [show s.params.halfWords + (s.params.halfWords + j) = j + 2 * s.params.halfWords by omega, Nat.add_mod_right]
    exact Nat.mod_eq_of_lt (by omega)
  · rw [Nat.zero_add]
    exact Nat.mod_eq_of_lt (by omega)

end Sys2Proof.Machine
end

section
/-! The completion-event handlers (41_stream_buffer.md R211–R214), block by block: an event's own block sets the target,
the others are `REFILL`'s, one lemma a position, the same for both events. -/

namespace Sys2Proof.Machine

/-! ### R211, R212: the handler of an event -/

theorem exec_handler_target (e : Event) {s : State} (h : s.irq.pos = 0) :
    exec e.handler s = .next (irqGoto 1 { s with target := Event.half e }) := by
  cases e
  · simp only [Event.handler, exec, execEvtHt, h]; rfl
  · simp only [Event.handler, exec, execEvtTc, h]; rfl

theorem exec_handler_refill (e : Event) {s : State} (h : s.irq.pos ≠ 0) : exec e.handler s = refill s := by
  cases e
  · simp [Event.handler, exec, execEvtHt]
  · simp [Event.handler, exec, execEvtTc]

/-! ### R213: the guard -/

theorem refillGuard_stopped {s : State} (h : s.stream = .stopped) : refillGuard s = irqGoto 5 s := by
  rw [refillGuard, h]
  rfl

theorem refillGuard_streaming {s : State} (h : s.stream = .streaming) : refillGuard s = irqGoto 2 s := by
  rw [refillGuard, h]

/-! ### R213, R214: the source read -/

theorem Feed.draw_rest {α : Type} (free : Nat → α) (f : Feed α) : (f.draw free).2 = ⟨f.given.tail, f.drawn + 1⟩ := by
  unfold Feed.draw
  split <;> simp_all

theorem length_sourceAnswer (n : Nat) (s : State) : (s.sourceAnswer n).length = n := by simp [State.sourceAnswer]

/-- An answer of the right length that was given beforehand is the source's answer. -/
theorem sourceAnswer_of_given {n : Nat} {s : State} {bytes : List Byte} {rest : List (List Byte)}
    (hg : s.inputs.src.given = bytes :: rest) (hn : bytes.length = n) : s.sourceAnswer n = bytes := by
  refine List.ext_getElem (by simp [State.sourceAnswer, hn]) fun j hj hj' => ?_
  simp [State.sourceAnswer, Feed.draw, hg, hj']

theorem refillRead_eq (s : State) :
    refillRead s = { s with
      inputs := { s.inputs with src := ⟨s.inputs.src.given.tail, s.inputs.src.drawn + 1⟩ }
      traces := { s.traces with src := s.traces.src ++ [(s.target, s.params.halfBytes)] }
      irq := { s.irq with data := s.sourceAnswer s.params.halfBytes, idx := 0, pos := 3 } } := by
  simp [refillRead, srcRead, Feed.draw_rest]

/-! ### R213: one word into the target half -/

/-- Word `j` of a half lies at an even address inside the buffer. -/
theorem half_word_inside {p : Params} {j : Nat} (h : Half) (hv : p.valid = true) (hj : j < p.halfWords) :
    (halfBase p h + 2 * j) % 2 = 0 ∧ halfBase p h + 2 * j + 1 < p.bufBytes := by
  obtain ⟨-, hbytes, hbuf, -⟩ := Params.sizes_of_valid hv
  cases h <;> simp only [halfBase, halfIndex] <;> omega

/-- The buffer after the refill's word `idx`. -/
def refilled (s : State) : Memory :=
  Memory.write
    (Memory.write s.buf (halfBase s.params s.target + 2 * s.irq.idx) ((sampleOf s.irq.data s.irq.idx).extractLsb' 0 8))
    (halfBase s.params s.target + 2 * s.irq.idx + 1) ((sampleOf s.irq.data s.irq.idx).extractLsb' 8 8)

/-- The refill's word is two bytes of the data, low byte first; every other byte stays. -/
theorem read_refilled {s : State} (hw : Memory.wf s.buf = true) (x : Nat) :
    Memory.read (refilled s) x
      = if x = halfBase s.params s.target + 2 * s.irq.idx + 1 then s.irq.data.getD (2 * s.irq.idx + 1) 0
        else if x = halfBase s.params s.target + 2 * s.irq.idx then s.irq.data.getD (2 * s.irq.idx) 0
        else Memory.read s.buf x := by
  rw [refilled, Memory.read_writeWord hw, sampleOf, extract_low, extract_high]

theorem refilled_wf {s : State} (hw : Memory.wf s.buf = true) : Memory.wf (refilled s) = true :=
  Memory.wf_write (Memory.wf_write hw _ _) _ _

theorem refillWrite_eq {s : State} (hv : s.params.valid = true) (hidx : s.irq.idx < s.params.halfWords) :
    refillWrite s = .next { s with
      buf := refilled s
      irq := if s.irq.idx + 1 < s.params.halfWords then { s.irq with idx := s.irq.idx + 1 }
             else { s.irq with pos := 4 } } := by
  obtain ⟨heven, hinside⟩ := half_word_inside s.target hv hidx
  rw [refillWrite, memWriteWord_ok _ heven hinside]
  by_cases hnext : s.irq.idx + 1 < s.params.halfWords
  · simp only [hnext, if_true]
    rfl
  · simp only [hnext, if_false]
    rfl

/-- Settles O31: position 0 sets the target; at every other position the handler is `refill`, whose read and write are
`refillRead_eq` and `refillWrite_eq`. -/
theorem eventHandlersRefillTheirHalf : Obligations.EventHandlersRefillTheirHalf := by
  intro e s
  have hrefill : ∀ {k}, s.irq.pos = k + 1 → exec e.handler s = refill s := fun h => exec_handler_refill e (by omega)
  refine ⟨fun h => ?_, fun h hst => ?_, fun h hst => ?_, fun h => ?_, fun h hv hidx hw => ?_, fun h => ?_, fun h => ?_⟩
  · exact exec_handler_target e h
  · rw [hrefill h, refill, h]
    exact congrArg Host.Outcome.next (refillGuard_stopped hst)
  · rw [hrefill h, refill, h]
    exact congrArg Host.Outcome.next (refillGuard_streaming hst)
  · refine ⟨s.sourceAnswer s.params.halfBytes, length_sourceAnswer _ s, fun _ _ hg hn => sourceAnswer_of_given hg hn, ?_⟩
    rw [hrefill h, refill, h]
    exact congrArg Host.Outcome.next (refillRead_eq s)
  · refine ⟨refilled s, refilled_wf hw, ?_, ?_, fun x hlow hhigh => ?_, ?_⟩
    · simp [read_refilled hw]
    · simp [read_refilled hw]
    · simp [read_refilled hw, hlow, hhigh]
    · rw [hrefill h, refill, h]
      exact refillWrite_eq hv hidx
  · rw [hrefill h, refill, h]
    rfl
  · rw [hrefill h, refill, h]
    rfl

end Sys2Proof.Machine
end

section
/-! The signal meter (42_signal_meter.md R241–R245): the peak is a supremum, the average a map of the numbers with its
laws, and over one period the counter runs through 0 to `METER_PERIOD − 1`. -/

namespace Sys2Proof.Machine

/-! ### R242: the peak -/

/-- `|−32768| = 32768` is the largest magnitude of a 16-bit sample. -/
theorem magnitude_le (w : Sample) : magnitude w ≤ 32768 := by
  have hlt := BitVec.toInt_lt (x := w)
  have hle := BitVec.le_toInt (x := w)
  simp only [magnitude, sext16]
  omega

theorem peak_succ (n : Nat) (data : List Byte) :
    peak (n + 1) data = max (peak n data) (magnitude (sampleOf data n)) := by
  simp only [peak, List.range_succ, List.foldl_append, List.foldl_cons, List.foldl_nil]

theorem peak_eq_sup (n : Nat) (data : List Byte) :
    peak n data = (Finset.range n).sup fun j => magnitude (sampleOf data j) := by
  induction n with
  | zero => rfl
  | succ n ih => rw [peak_succ, ih, Finset.range_add_one, Finset.sup_insert, max_comm]

/-- Settles O38: the peak is the supremum of the magnitudes over a nonempty range, so it bounds them and is one of
them. -/
theorem peakIsTheLargestMagnitude : Obligations.PeakIsTheLargestMagnitude := by
  intro n data hn
  rw [peak_eq_sup]
  refine ⟨fun j hj => ?_, ?_, ?_⟩
  · exact Finset.le_sup (f := fun j => magnitude (sampleOf data j)) (Finset.mem_range.mpr hj)
  · obtain ⟨j, hj, hsup⟩ := Finset.exists_mem_eq_sup (Finset.range n) (Finset.nonempty_range_iff.mpr hn.ne')
      fun j => magnitude (sampleOf data j)
    exact ⟨j, Finset.mem_range.mp hj, hsup.symm⟩
  · exact Finset.sup_le fun j _ => magnitude_le (sampleOf data j)

/-! ### R244: the average -/

theorem meterAverage_le_max (a m : Nat) : meterAverage a m ≤ max a m := by
  simp only [meterAverage]
  omega

/-- The truncated division holds an average as long as the peak is less than ten above it. -/
theorem meterAverage_eq_self_iff {a m : Nat} : meterAverage a m = a ↔ a ≤ m ∧ m ≤ a + 9 := by
  simp only [meterAverage]
  omega

theorem meterAverage_mono {a b m k : Nat} (hab : a ≤ b) (hmk : m ≤ k) : meterAverage a m ≤ meterAverage b k := by
  simp only [meterAverage]
  omega

theorem meterAverage_zero_lt {a : Nat} (ha : 1 ≤ a) : meterAverage a 0 < a := by
  simp only [meterAverage]
  omega

/-- Below the band of its fixed points a constant peak raises the average, and not past the peak. -/
theorem lt_meterAverage {a m : Nat} (h : a + 9 < m) : a < meterAverage a m ∧ meterAverage a m ≤ m := by
  simp only [meterAverage]
  omega

/-- A constant peak reached from below: the distance to the peak falls until the average is in the band. -/
theorem exists_iterate_meterAverage_in_band {a m : Nat} (ha : a ≤ m) : ∃ n,
    (fun x => meterAverage x m)^[n] a ≤ m ∧ m ≤ (fun x => meterAverage x m)^[n] a + 9 := by
  by_cases hband : m ≤ a + 9
  · exact ⟨0, ha, hband⟩
  · obtain ⟨hrise, hle⟩ := lt_meterAverage (Nat.lt_of_not_le hband)
    obtain ⟨n, hn⟩ := exists_iterate_meterAverage_in_band hle
    exact ⟨n + 1, hn⟩
termination_by m - a

/-- Silence: the average falls until it is 0. -/
theorem exists_iterate_meterAverage_eq_zero (a : Nat) : ∃ n, (fun x => meterAverage x 0)^[n] a = 0 := by
  by_cases hzero : a = 0
  · exact ⟨0, hzero⟩
  · have hfall := meterAverage_zero_lt (Nat.pos_of_ne_zero hzero)
    obtain ⟨n, hn⟩ := exists_iterate_meterAverage_eq_zero (meterAverage a 0)
    exact ⟨n + 1, hn⟩
termination_by a

/-- Settles O40: one lemma a law; a peak of at most 9 keeps the average 0 as one of its fixed points. -/
theorem meterAverageLaws : Obligations.MeterAverageLaws :=
  ⟨fun a m ha hm => ⟨(meterAverage_le_max a m).trans (max_le ha hm), meterAverage_le_max a m⟩,
    fun _ _ => meterAverage_eq_self_iff,
    fun _ _ => exists_iterate_meterAverage_in_band,
    fun _ => meterAverage_zero_lt,
    exists_iterate_meterAverage_eq_zero,
    fun m hm => meterAverage_eq_self_iff.mpr ⟨m.zero_le, by omega⟩,
    fun _ _ _ _ => meterAverage_mono⟩

/-! ### R241: the update -/

/-- The new average fits its 32 bits, whatever the old one. -/
theorem meterUpdate_avg (p : Params) {m : Nat} (hm : m ≤ 32768) (t : Meter) :
    (meterUpdate p m t).avg.toNat = meterAverage t.avg.toNat m := by
  have hfits : meterAverage t.avg.toNat m < 2 ^ 32 := by
    have havg := t.avg.isLt
    simp only [meterAverage]
    omega
  simp only [meterUpdate, BitVec.toNat_ofNat]
  exact Nat.mod_eq_of_lt hfits

/-- The line compares the new average with the old counter. -/
theorem meterUpdate_on_iff (p : Params) {m : Nat} (hm : m ≤ 32768) (t : Meter) :
    (meterUpdate p m t).on = true ↔ t.cnt.toNat < (meterUpdate p m t).avg.toNat / p.meterK := by
  rw [meterUpdate_avg p hm]
  exact decide_eq_true_iff

/-- Settles O39: the average and the counter fit their words, the line is the comparison. -/
theorem meterUpdateFollowsTheFormula : Obligations.MeterUpdateFollowsTheFormula := by
  intro p m t hv hm
  have havg : (meterUpdate p m t).avg.toNat = (9 * t.avg.toNat + m) / 10 := meterUpdate_avg p hm t
  refine ⟨havg, ?_, meterUpdate_cnt hv m t, rfl⟩
  rw [← havg]
  exact meterUpdate_on_iff p hm t

/-! ### R245: the duty -/

/-- The counter advances, and returns to 0 at the end of the period only. -/
theorem meterUpdate_cnt_cases {p : Params} (hv : p.valid = true) (m : Nat) {t : Meter}
    (ht : t.cnt.toNat < p.meterPeriod) :
    (meterUpdate p m t).cnt.toNat = t.cnt.toNat + 1 ∨
      (meterUpdate p m t).cnt.toNat = 0 ∧ t.cnt.toNat + 1 = p.meterPeriod := by
  rw [meterUpdate_cnt hv]
  obtain hlt | heq := Nat.lt_or_eq_of_le (Nat.succ_le_of_lt ht)
  · exact .inl (Nat.mod_eq_of_lt hlt)
  · exact .inr ⟨Nat.mod_eq_zero_of_dvd heq.symm.dvd, heq⟩

/-- Updates that stay within the period and leave the average at `a`: the line is on while the counter is below
`a div METER_K`. -/
theorem length_filter_on_meterRun {p : Params} (hv : p.valid = true) {a : Nat} {ms : List Nat} {t : Meter}
    (hperiod : t.cnt.toNat + ms.length ≤ p.meterPeriod) (hm : ∀ m ∈ ms, m ≤ 32768)
    (ha : ∀ u ∈ meterRun p ms t, u.avg.toNat = a) :
    ((meterRun p ms t).filter (fun u => u.on)).length = min ms.length (a / p.meterK - t.cnt.toNat) := by
  induction ms generalizing t with
  | nil => simp [meterRun]
  | cons m ms ih =>
    rw [List.length_cons] at hperiod
    obtain ⟨hmhead, hmtail⟩ := List.forall_mem_cons.mp hm
    obtain ⟨havg, hatail⟩ := List.forall_mem_cons.mp ha
    have hcnt := meterUpdate_cnt_cases hv m (t := t) (by omega)
    have hon := meterUpdate_on_iff p hmhead t
    rw [havg] at hon
    have hrest := ih (t := meterUpdate p m t) (by omega) hmtail hatail
    rw [meterRun, List.filter_cons, List.length_cons]
    by_cases hlt : t.cnt.toNat < a / p.meterK
    · rw [if_pos (hon.mpr hlt), List.length_cons, hrest]
      omega
    · rw [if_neg (fun h => hlt (hon.mp h)), hrest]
      omega

/-- Settles O41: a whole period from counter 0. -/
theorem meterDutyFollowsTheAverage : Obligations.MeterDutyFollowsTheAverage := by
  intro p ms t a hv hlen hm hcnt ha
  have hzero : t.cnt.toNat = 0 := by rw [hcnt]; rfl
  have hduty := length_filter_on_meterRun hv (by omega) hm ha
  rw [hlen, hzero, Nat.sub_zero] at hduty
  exact ⟨hduty, fun hten => by rw [hduty, hten]⟩

end Sys2Proof.Machine
end

section
/-! Playback and the UI commands (43_playback.md): the laws of tone stepping (R273), the display texts (R280, R281), and
the six commands block by block (R262–R264, R271, R272, R282), each block in the terms the statements use. -/

namespace Sys2Proof.Machine

/-! ### R271, R272: one step of a gain and of an index -/

/-- A gain's step up that does not saturate is undone by the step down. -/
theorem gain_down_up {x lo hi : Int} (hlo : lo ≤ x) (hhi : x ≤ hi) (h : min (x + 1) hi ≠ x) :
    max (min (x + 1) hi - 1) lo = x := by
  have hup : min (x + 1) hi = x + 1 := by omega
  rw [hup]
  omega

/-- An index clamped to `FREQ_COUNT − 1` fits its two bits. -/
theorem toNat_clampedIndex {n : Nat} (hn : n ≤ 4) (k : Nat) :
    (BitVec.ofNat 2 (min k (n - 1))).toNat = min k (n - 1) := by
  rw [BitVec.toNat_ofNat]
  exact Nat.mod_eq_of_lt (by omega)

/-- An index steps down to one of the 2-bit indices, so no bit is lost. -/
theorem toNat_indexDown (i : BitVec 2) : (BitVec.ofNat 2 (i.toNat - 1)).toNat = i.toNat - 1 := by
  rw [BitVec.toNat_ofNat]
  exact Nat.mod_eq_of_lt (by omega)

/-- An index's step up that does not saturate is undone by the step down. -/
theorem index_down_up {n : Nat} (hn : n ≤ 4) {i : BitVec 2} (hi : i.toNat < n)
    (h : BitVec.ofNat 2 (min (i.toNat + 1) (n - 1)) ≠ i) :
    BitVec.ofNat 2 ((BitVec.ofNat 2 (min (i.toNat + 1) (n - 1))).toNat - 1) = i := by
  have hup := toNat_clampedIndex hn (i.toNat + 1)
  have hmoves : min (i.toNat + 1) (n - 1) ≠ i.toNat := fun hc => h (BitVec.eq_of_toNat_eq (hup.trans hc))
  have hstep : min (i.toNat + 1) (n - 1) = i.toNat + 1 := by omega
  rw [hup, hstep, Nat.add_sub_cancel, BitVec.ofNat_toNat, BitVec.setWidth_eq]

/-! ### R38, R39: the ranges of the tone fields -/

/-- The tone fields are in the ranges of R38 and R39, as in `State.Inv`. -/
structure Tone.InRange (p : Params) (t : Tone) : Prop where
  bassLo : p.toneMinSteps ≤ t.bass
  bassHi : t.bass ≤ p.toneMaxSteps
  trebleLo : p.toneMinSteps ≤ t.treble
  trebleHi : t.treble ≤ p.toneMaxSteps
  bf : t.bf.toNat < p.freqCount
  tf : t.tf.toNat < p.freqCount

theorem State.Inv.toneInRange {s : State} (h : s.Inv) : s.tone.InRange s.params := { h with }

section
variable {p : Params} {t : Tone} (hv : p.valid = true) (h : t.InRange p)
include hv h

theorem Tone.InRange.toneInc (ctl : Ctl) : (toneInc p ctl t).InRange p := by
  obtain ⟨-, hmin, hmax, -, hone, hfour⟩ := Params.tone_of_valid hv
  have hidx (k : Nat) : (BitVec.ofNat 2 (min k (p.freqCount - 1))).toNat < p.freqCount := by
    rw [toNat_clampedIndex hfour]
    omega
  cases ctl with
  | bass => exact { h with bassLo := le_min (by linarith [h.bassLo]) (hmin.trans hmax), bassHi := min_le_right _ _ }
  | treble =>
    exact { h with trebleLo := le_min (by linarith [h.trebleLo]) (hmin.trans hmax), trebleHi := min_le_right _ _ }
  | bassFreq => exact { h with bf := hidx _ }
  | trebleFreq => exact { h with tf := hidx _ }

theorem Tone.InRange.toneDec (ctl : Ctl) : (toneDec p ctl t).InRange p := by
  obtain ⟨-, hmin, hmax, -⟩ := Params.tone_of_valid hv
  have hidx {i : BitVec 2} (hi : i.toNat < p.freqCount) : (BitVec.ofNat 2 (i.toNat - 1)).toNat < p.freqCount := by
    rw [toNat_indexDown]
    omega
  cases ctl with
  | bass => exact { h with bassLo := le_max_right _ _, bassHi := max_le (by linarith [h.bassHi]) (hmin.trans hmax) }
  | treble =>
    exact { h with trebleLo := le_max_right _ _, trebleHi := max_le (by linarith [h.trebleHi]) (hmin.trans hmax) }
  | bassFreq => exact { h with bf := hidx h.bf }
  | trebleFreq => exact { h with tf := hidx h.tf }

theorem toneDec_toneInc {ctl : Ctl} (hmoves : toneInc p ctl t ≠ t) : toneDec p ctl (toneInc p ctl t) = t := by
  obtain ⟨-, -, -, -, -, hfour⟩ := Params.tone_of_valid hv
  cases ctl with
  | bass =>
    exact congrArg (fun x => { t with bass := x })
      (gain_down_up h.bassLo h.bassHi fun hc => hmoves (congrArg (fun x => { t with bass := x }) hc))
  | treble =>
    exact congrArg (fun x => { t with treble := x })
      (gain_down_up h.trebleLo h.trebleHi fun hc => hmoves (congrArg (fun x => { t with treble := x }) hc))
  | bassFreq =>
    exact congrArg (fun x => { t with bf := x })
      (index_down_up hfour h.bf fun hc => hmoves (congrArg (fun x => { t with bf := x }) hc))
  | trebleFreq =>
    exact congrArg (fun x => { t with tf := x })
      (index_down_up hfour h.tf fun hc => hmoves (congrArg (fun x => { t with tf := x }) hc))

end

/-- Steps up from any bass gain not above the maximum. -/
theorem bass_iterate_toneInc {p : Params} {t : Tone} (h : t.bass ≤ p.toneMaxSteps) (n : Nat) :
    ((toneInc p .bass)^[n] t).bass = min (t.bass + n) p.toneMaxSteps := by
  induction n with
  | zero => simp [h]
  | succ n ih =>
    have hstep (u : Tone) : (toneInc p .bass u).bass = min (u.bass + 1) p.toneMaxSteps := rfl
    rw [Function.iterate_succ_apply', hstep, ih]
    push_cast
    omega

/-- Settles O42: the steps of the gains and of the indices stay in their ranges, and a step up that moved is undone. -/
theorem toneSteppingLaws : Obligations.ToneSteppingLaws := by
  intro p t hv hbassLo hbassHi htrebleLo htrebleHi hbf htf
  have h : t.InRange p := ⟨hbassLo, hbassHi, htrebleLo, htrebleHi, hbf, htf⟩
  refine ⟨fun hzero n => ?_, fun hzero => ?_, fun ctl => toneDec_toneInc hv h, fun ctl u hu => ?_⟩
  · rw [bass_iterate_toneInc hbassHi, hzero, zero_add]
  · obtain ⟨bass, treble, bf, tf⟩ := t
    subst hzero
    rfl
  · have hrange : u.InRange p := by
      obtain rfl | rfl : u = toneInc p ctl t ∨ u = toneDec p ctl t := by simpa using hu
      · exact h.toneInc hv ctl
      · exact h.toneDec hv ctl
    exact ⟨hrange.bassLo, hrange.bassHi, hrange.trebleLo, hrange.trebleHi, hrange.bf, hrange.tf⟩

/-! ### R280, R281: the texts -/

theorem length_leftPad {x : List Byte} {w : Nat} (h : x.length ≤ w) : (leftPad x w).length = w := by
  rw [leftPad, List.length_append, List.length_replicate, Nat.sub_add_cancel h]

/-- `RESULT.text` holds a text of seven characters as it stands (R282). -/
theorem toList_textOf {l : List Byte} (h : l.length = 7) : (textOf l).toList = l := by
  match l, h with
  | [_, _, _, _, _, _, _], _ => rfl

theorem asciiBytes_append (l m : List Char) : asciiBytes (l ++ m) = asciiBytes l ++ asciiBytes m := List.map_append

theorem length_asciiBytes (l : List Char) : (asciiBytes l).length = l.length := List.length_map _

theorem toDigits_of_lt_ten {b : Nat} (hb : b < 10) : Nat.toDigits 10 b = [Char.ofNat (48 + b)] := by
  rw [Nat.toDigits_of_lt_base hb]
  revert b
  decide

/-- The characters of a gain of `s` steps up to its unit (R280): the sign, the whole decibels, the point, the tenth. -/
def gainChars (s : Int) : List Char :=
  [if s < 0 then '-' else ' '] ++ Nat.toDigits 10 (15 * s.natAbs / 10) ++ ['.']
    ++ [Char.ofNat (48 + 15 * s.natAbs % 10)]

theorem fmtGain_eq (s : Int) : fmtGain s = leftPad (asciiBytes (gainChars s)) 5 ++ asciiBytes ['d', 'B'] := by
  have habs : (15 * s).natAbs = 15 * s.natAbs := Int.natAbs_mul 15 s
  have hsign : (if 15 * s < 0 then asciiBytes ['-'] else asciiBytes [' '])
      = asciiBytes [if s < 0 then '-' else ' '] := by
    by_cases hs : s < 0
    · rw [if_pos hs, if_pos (by omega)]
    · rw [if_neg hs, if_neg (by omega)]
  have htenth := toDigits_of_lt_ten (b := 15 * s.natAbs % 10) (Nat.mod_lt _ (by decide))
  simp only [fmtGain, habs, hsign, decDigits, htenth, gainChars, asciiBytes_append]

/-- Eight steps are 12 dB, so the whole decibels have at most two digits. -/
theorem length_gainChars_le {s : Int} (hlo : -7 ≤ s) (hhi : s ≤ 8) : (gainChars s).length ≤ 5 := by
  have hdigits : (Nat.toDigits 10 (15 * s.natAbs / 10)).length ≤ 2 := Nat.toDigits_length _ _ _ (by decide) (by omega)
  simp only [gainChars, List.length_append, List.length_singleton]
  omega

/-- Settles O43: the text is its characters before the unit, padded to five, and the unit. -/
theorem gainTextIsSevenCharacters : Obligations.GainTextIsSevenCharacters := by
  intro s hlo hhi
  have hbody : (asciiBytes (gainChars s)).length ≤ 5 :=
    (length_asciiBytes _).trans_le (length_gainChars_le hlo hhi)
  have hlen : (fmtGain s).length = 7 := by
    rw [fmtGain_eq, List.length_append, length_leftPad hbody, length_asciiBytes]
    rfl
  refine ⟨hlen, toList_textOf hlen, 5 - (asciiBytes (gainChars s)).length, 15 * s.natAbs / 10, 15 * s.natAbs % 10, _,
    (Nat.div_add_mod _ 10).symm, Nat.mod_lt _ (by decide), rfl, ?_⟩
  rw [fmtGain_eq, leftPad, List.append_assoc, ← asciiBytes_append, gainChars]
  simp only [List.append_assoc, List.cons_append, List.nil_append]

theorem Params.labels_of_valid {p : Params} (h : p.valid = true) :
    p.freqCount ≤ p.labelsBass.length ∧ p.freqCount ≤ p.labelsTreble.length ∧
      (∀ l ∈ p.labelsBass, l.length ≤ 7) ∧ ∀ l ∈ p.labelsTreble, l.length ≤ 7 := by
  simp only [Params.valid, Params.validCodec, Bool.and_eq_true, decide_eq_true_eq] at h
  obtain ⟨-, -, -, -, -, -, -, hlabels⟩ := h
  exact hlabels

/-- The text of an index that has a label of at most seven characters (R281). -/
theorem fmtFreq_of_label {labels : List (List Byte)} {i : BitVec 2} (hi : i.toNat < labels.length)
    (hle : ∀ l ∈ labels, l.length ≤ 7) :
    ∃ label ∈ labels, labels[i.toNat]? = some label ∧
      fmtFreq labels i = List.replicate (7 - label.length) 0x20 ++ label ∧
      (textOf (fmtFreq labels i)).toList = fmtFreq labels i ∧ (fmtFreq labels i).length = 7 := by
  have hmem : labels[i.toNat] ∈ labels := List.getElem_mem hi
  have htext : fmtFreq labels i = leftPad labels[i.toNat] 7 := by rw [fmtFreq, List.getD_eq_getElem _ _ hi]
  have hlen : (fmtFreq labels i).length = 7 := by rw [htext, length_leftPad (hle _ hmem)]
  exact ⟨labels[i.toNat], hmem, List.getElem?_eq_getElem hi, htext, toList_textOf hlen, hlen⟩

/-- Settles O44: a valid configuration has a label of at most seven characters for every index below `FREQ_COUNT`. -/
theorem frequencyTextIsItsLabel : Obligations.FrequencyTextIsItsLabel := by
  intro p i hv hi
  obtain ⟨hbass, htreble, hbassLe, htrebleLe⟩ := Params.labels_of_valid hv
  exact ⟨fmtFreq_of_label (hi.trans_le hbass) hbassLe, fmtFreq_of_label (hi.trans_le htreble) htrebleLe⟩

/-! ### The commands' blocks -/

/-- Settles O25: the guarded start is `sbmStart`, in its two cases; the unmute is the mute loop. -/
theorem playStreamsStartsAndUnmutes : Obligations.PlayStreamsStartsAndUnmutes := by
  refine ⟨fun _ => takeCommandWords_encode rfl rfl, fun s => ?_⟩
  refine ⟨fun h => ?_, fun h hstarted => ?_, fun h hstarted => ?_, fun h => ?_, fun h reg hreg => ?_, fun h => ?_⟩ <;>
    rw [exec, execPlay, h]
  · exact congrArg Host.Outcome.next (fgAdvance_at (s := { s with stream := .streaming }) h)
  · rw [sbmStart_of_not_started s hstarted]
    exact congrArg Host.Outcome.next (fgAdvance_at h)
  · rw [sbmStart_of_started s hstarted]
    exact congrArg Host.Outcome.next (fgAdvance_at h)
  · exact congrArg Host.Outcome.next (clearFail_at h)
  · exact congrArg Host.Outcome.next (pcmMuteBlock_eq _ h hreg)
  · exact congrArg Host.Outcome.next (fgFinishBus_eq s)

theorem wf_zeroWord {m : Memory} (hw : Memory.wf m = true) (j : Nat) : Memory.wf (zeroWord j m) = true :=
  Memory.wf_write (Memory.wf_write hw _ _) _ _

theorem read_zeroWord {m : Memory} (hw : Memory.wf m = true) (j x : Nat) :
    Memory.read (zeroWord j m) x = if x = 2 * j + 1 then 0 else if x = 2 * j then 0 else Memory.read m x :=
  Memory.read_writeWord hw _ _ _

/-- Settles O26: the mute loop, the two stores, and the zero fill's block, whose buffer is `zeroWord`. -/
theorem stopMutesStopsAndZeroFills : Obligations.StopMutesStopsAndZeroFills := by
  refine ⟨fun _ => takeCommandWords_encode rfl rfl, fun s => ?_⟩
  refine ⟨fun h => ?_, fun h reg hreg => ?_, fun h => ?_, fun h => ?_, fun h hidx hw => ?_, fun h => ?_⟩ <;>
    rw [exec, execStop, h]
  · exact congrArg Host.Outcome.next (clearFail_at h)
  · exact congrArg Host.Outcome.next (pcmMuteBlock_eq _ h hreg)
  · exact congrArg Host.Outcome.next (fgAdvance_at (s := { s with stream := .stopped }) h)
  · exact congrArg Host.Outcome.next (fgAdvance_at (s := meterReset s) h)
  · refine ⟨zeroWord s.acc.idx s.buf, zeroFillBlock_eq h hidx, wf_zeroWord hw _, ?_, ?_, fun a ha ha' => ?_⟩
    · rw [read_zeroWord hw, if_neg (by omega), if_pos rfl]
    · rw [read_zeroWord hw, if_pos rfl]
    · rw [read_zeroWord hw, if_neg ha', if_neg ha]
  · exact congrArg Host.Outcome.next (fgFinishBus_eq s)

theorem StreamState.code_eq (x : StreamState) : x.code = if x = .streaming then 1 else 0 := by cases x <;> rfl

/-- Settles O27: the code of the stream state is 0 or 1. -/
theorem getStateReadsTheStreamState : Obligations.GetStateReadsTheStreamState := by
  refine ⟨fun _ => takeCommandWords_encode rfl rfl, fun s h => ?_⟩
  rw [exec, execGetState, h, ← StreamState.code_eq]
  rfl

/-- The word of a command with a control, as the statements write it (R117). -/
theorem controlWord_eq (op : BitVec 4) (ctl : Ctl) : (op ++ 0#28) ||| ctl.bits.setWidth 32 = formatFC op ctl := by
  revert op
  cases ctl <;> decide

/-- Settles O28: the step is `toneInc`, then `TONE_WRITE` runs from block 1. -/
theorem incStepsUpAndWrites : Obligations.IncStepsUpAndWrites := by
  intro ctl s
  refine ⟨fun _ => takeCommandWords_encode (congrArg (fun w => [w]) (controlWord_eq 0xB ctl)) rfl, fun h => ?_,
    fun h => ?_, fun h => ?_⟩ <;> rw [exec, execInc, h]
  · exact congrArg Host.Outcome.next (fgAdvance_at (s := { s with tone := toneInc s.params ctl s.tone }) h)
  · exact toneWrite_gain h
  · exact toneWrite_cfg h

/-- An index's step down is the step of `Int` with the lower bound 0 that R272 writes. -/
theorem indexDown_eq (i : BitVec 2) : BitVec.ofNat 2 (i.toNat - 1) = BitVec.ofInt 2 (max ((i.toNat : Int) - 1) 0) := by
  have hmax : max ((i.toNat : Int) - 1) 0 = ((i.toNat - 1 : Nat) : Int) := by omega
  rw [hmax, BitVec.ofInt_natCast]

theorem toneDec_eq (p : Params) (ctl : Ctl) (t : Tone) :
    toneDec p ctl t = match ctl with
      | .bass => { t with bass := max (t.bass - 1) p.toneMinSteps }
      | .treble => { t with treble := max (t.treble - 1) p.toneMinSteps }
      | .bassFreq => { t with bf := BitVec.ofInt 2 (max ((t.bf.toNat : Int) - 1) 0) }
      | .trebleFreq => { t with tf := BitVec.ofInt 2 (max ((t.tf.toNat : Int) - 1) 0) } := by
  cases ctl with
  | bass => rfl
  | treble => rfl
  | bassFreq => exact congrArg (fun x => { t with bf := x }) (indexDown_eq t.bf)
  | trebleFreq => exact congrArg (fun x => { t with tf := x }) (indexDown_eq t.tf)

/-- Settles O29: the step is `toneDec`, then `TONE_WRITE` runs from block 1. -/
theorem decStepsDownAndWrites : Obligations.DecStepsDownAndWrites := by
  intro ctl s
  refine ⟨fun _ => takeCommandWords_encode (congrArg (fun w => [w]) (controlWord_eq 0xC ctl)) rfl, fun h => ?_,
    fun h => ?_, fun h => ?_⟩ <;> rw [exec, execDec, h]
  · rw [toneDec_eq]
    exact congrArg Host.Outcome.next (fgAdvance_at (s := { s with tone := _ }) h)
  · exact toneWrite_gain h
  · exact toneWrite_cfg h

/-- Settles O30: the one block reports `formatText`, and `toList_textOf` gives the text back. -/
theorem formatReturnsTheText : Obligations.FormatReturnsTheText := by
  intro ctl s
  refine ⟨fun _ => takeCommandWords_encode (congrArg (fun w => [w]) (controlWord_eq 0xD ctl)) rfl, fun h => ?_,
    fun _ => toList_textOf⟩
  rw [exec, execFormat, h]
  exact congrArg Host.Outcome.next (fgFinish_eq .ok 0 (formatText s.params ctl s.tone) s)

end Sys2Proof.Machine
end

section
/-! Exceptions and the interrupt context (60_exceptions.md R301, R305, R306, R308): which agent takes the step of the
machine, the one block of an ILLEGAL command, and which event an entry takes. -/

namespace Sys2Proof.Machine

/-! ### R305: whose step it is -/

/-- Alone enabled, the transfer takes the step. -/
theorem step_of_transfer {s : State} (hv : s.params.valid = true) (hd : s.dmaEnabled = true)
    (hc : (s.irqEnabled || s.fgEnabled) = false) : step s = dmaStep s := by
  simp only [step, nextStep, hv, hd, hc, if_true]

/-- Where the context also has a step, the turn is drawn; the transfer steps when it is its. -/
theorem step_of_transfer_turn {s : State} (hv : s.params.valid = true) (hd : s.dmaEnabled = true)
    (hc : (s.irqEnabled || s.fgEnabled) = true) (ht : (drawTurn s).1 = .dma) : step s = dmaStep (drawTurn s).2 := by
  have hdraw : drawTurn s = (.dma, (drawTurn s).2) := Prod.ext ht rfl
  simp only [step, nextStep, hv, hd, hc, if_true]
  rw [hdraw]

/-- With no agent enabled the machine waits. -/
theorem step_of_idle {s : State} (hv : s.params.valid = true) (hd : s.dmaEnabled = false)
    (hc : (s.irqEnabled || s.fgEnabled) = false) : step s = .next s := by
  simp only [step, nextStep, hv, hd, hc, if_true]

/-- A turn that was given beforehand is the one drawn. -/
theorem drawTurn_of_given {s : State} {x : Turn} {rest : List Turn} (h : s.inputs.turn.given = x :: rest) :
    drawTurn s = (x, { s with inputs := { s.inputs with turn := ⟨rest, s.inputs.turn.drawn + 1⟩ } }) := by
  simp only [drawTurn, Feed.draw, h]

/-- Settles O15: one equation of the step for each combination of enabled agents, and a given turn is the one drawn. -/
theorem anyEnabledAgentMayStep : Obligations.AnyEnabledAgentMayStep := by
  intro s hv
  refine ⟨step_of_transfer hv, fun hd hc => ⟨fun rest hg => ?_, fun rest hg => ?_⟩, step_of_context hv,
    step_of_idle hv⟩
  · rw [step_of_transfer_turn hv hd hc (congrArg Prod.fst (drawTurn_of_given hg)), drawTurn_of_given hg]
  · rw [step_of_turn hv hd hc (congrArg Prod.fst (drawTurn_of_given hg)), drawTurn_of_given hg]

/-! ### R301: the block of an ILLEGAL command -/

theorem contextStep_of_illegal {s : State} {why : IllegalReason} (hirq : s.irqEnabled = false)
    (hbusy : s.fg.busy = true) (hcmd : s.fg.cmd = some (.illegal why)) : contextStep s = .next (raiseIllegal s) := by
  simp [contextStep, hirq, fgStep, hbusy, commandStep, hcmd]

/-- Settles O16: the block is `raiseIllegal`, which only ends the command with its report. -/
theorem illegalCommandOnlyReports : Obligations.IllegalCommandOnlyReports :=
  fun _ _ hirq hbusy hcmd => contextStep_of_illegal hirq hbusy hcmd

/-! ### R306, R308: the entry -/

theorem contextStep_of_entry {s : State} (hact : s.irq.active = false) (hp : s.pending = true) :
    contextStep s = .next (irqEnter s) := by
  simp [contextStep, State.irqEnabled, irqStep, hact, hp]

theorem irqEnter_of_ht_pending {s : State} (h : s.evt = ⟨true, false⟩) :
    irqEnter s = { s with evt := ⟨false, false⟩, irq := ⟨true, .ht, 0, [], 0⟩ } := by
  simp [irqEnter, chooseEvent, h, clearPending]

theorem irqEnter_of_tc_pending {s : State} (h : s.evt = ⟨false, true⟩) :
    irqEnter s = { s with evt := ⟨false, false⟩, irq := ⟨true, .tc, 0, [], 0⟩ } := by
  simp [irqEnter, chooseEvent, h, clearPending]

/-- Where both are pending the entry takes the one that the choice names and leaves the other pending. -/
theorem irqEnter_of_both_pending {s : State} (h : s.evt = ⟨true, true⟩) :
    irqEnter s = { (drawFirst s).2 with
      evt := clearPending (drawFirst s).1 ⟨true, true⟩
      irq := ⟨true, (drawFirst s).1, 0, [], 0⟩ } := by
  simp [irqEnter, chooseEvent, h, drawFirst]

/-- A choice that was given beforehand is the one drawn. -/
theorem drawFirst_of_given {s : State} {e : Event} {rest : List Event} (h : s.inputs.first.given = e :: rest) :
    (drawFirst s).1 = e := by
  simp only [drawFirst, Feed.draw, h]

/-- Settles O32: the pending bit gives the context its entry, which takes that event. -/
theorem irqEntryTakesThePendingEvent : Obligations.IrqEntryTakesThePendingEvent := by
  intro s hact
  refine ⟨fun h => ?_, fun h => ?_⟩
  · rw [contextStep_of_entry hact (by simp [State.pending, h]), irqEnter_of_ht_pending h]
  · rw [contextStep_of_entry hact (by simp [State.pending, h]), irqEnter_of_tc_pending h]

/-- Settles O33: the entry takes the event drawn and clears its bit only. -/
theorem bothPendingEitherMayBeFirst : Obligations.BothPendingEitherMayBeFirst := by
  intro s h hact
  have hstep := contextStep_of_entry hact (by simp [State.pending, h])
  refine ⟨⟨_, hstep, ?_, irqEnter_sameForeground s, ?_⟩, fun e rest t hg ht => ?_⟩
  · rw [irqEnter_of_both_pending h]
  · rw [irqEnter_of_both_pending h]
    cases (drawFirst s).1
    · exact .inl ⟨rfl, rfl⟩
    · exact .inr ⟨rfl, rfl⟩
  · rw [hstep, irqEnter_of_both_pending h, drawFirst_of_given hg] at ht
    cases ht
    rfl

end Sys2Proof.Machine
end

section
/-! The handler under way (60_exceptions.md R305, R307, R309): while an event is pending or in hand `FG` is held, an
active handler goes on or returns, and run alone it reaches its return. A streaming handler's run is followed word by
word of its refill, the buffer being a function of how many words are written. -/

namespace Sys2Proof.Machine

/-! ### R305, R309: `FG` is held, the handler is not interrupted -/

theorem SameForeground.of_withTurn {s t : State} {f : Feed Turn} (h : SameForeground (s.withTurn f) t) :
    SameForeground s t := { h with }

theorem contextStep_of_irqEnabled {s : State} (h : s.irqEnabled = true) : contextStep s = irqStep s := by
  rw [contextStep, if_pos h]

/-- While an event is pending or in hand no step changes what `FG` can see. -/
theorem step_sameForeground {s t : State} (hen : s.irqEnabled = true) (h : step s = .next t) :
    SameForeground s t := by
  obtain ⟨-, ⟨-, hoff, -⟩ | ⟨-, f, hd⟩ | ⟨-, f, hc⟩⟩ := step_cases h
  · exact absurd (hen.symm.trans hoff) (by decide)
  · exact (dmaStep_sameForeground hd).of_withTurn
  · rw [contextStep_of_irqEnabled (s := s.withTurn f) hen] at hc
    exact (irqStep_sameForeground hc).of_withTurn

/-- A block of an active handler leaves it active at the same or a later block, or is its return. -/
theorem IrqBlock.active_cases {e : Event} {s t : State} (h : IrqBlock e s t) (hact : s.irq.active = true) :
    (t.irq.active = true ∧ s.irq.pos ≤ t.irq.pos) ∨ (t.irq.active = false ∧ s.irq.pos = 5) := by
  cases h
  case write hp hw _ | writeLast hp hw _ =>
    obtain ⟨-, -, rfl⟩ := memWriteWord_cases hw
    exact .inl ⟨hact, by simp [hp]⟩
  case ret hp => exact .inr ⟨rfl, hp⟩
  case target hp | stopped hp _ | streaming hp _ | read hp | meter hp =>
    exact .inl ⟨hact, by simp [hp, refillRead, refillMeter, handlerReturn]⟩

/-- A step of an active handler's state leaves the handler active for its event, or is its return. -/
theorem step_irq_cases {s t : State} (hact : s.irq.active = true) (h : step s = .next t) :
    (t.irq.active = true ∧ t.irq.evt = s.irq.evt ∧ s.irq.pos ≤ t.irq.pos) ∨
      (t.irq.active = false ∧ s.irq.pos = 5) := by
  obtain ⟨-, ⟨-, hoff, -⟩ | ⟨-, f, hd⟩ | ⟨-, f, hc⟩⟩ := step_cases h
  · simp [State.irqEnabled, hact] at hoff
  · obtain ⟨w, -, rfl⟩ := dmaStep_cases hd
    exact .inl ⟨hact, rfl, le_rfl⟩
  · rw [contextStep_of_irq_active (s := s.withTurn f) hact] at hc
    have hb := exec_isIrqBlock hc
    exact (hb.active_cases hact).imp_left fun ⟨hon, hpos⟩ => ⟨hon, hb.irq_evt, hpos⟩

/-! ### R213: the refill, word by word -/

/-- The buffer `m` after the first `j` words of `data` went into half `h`. -/
def refillWords (p : Params) (h : Half) (data : List Byte) (m : Memory) : Nat → Memory
  | 0 => m
  | j + 1 =>
    Memory.write (Memory.write (refillWords p h data m j) (halfBase p h + 2 * j) ((sampleOf data j).extractLsb' 0 8))
      (halfBase p h + 2 * j + 1) ((sampleOf data j).extractLsb' 8 8)

section
variable {p : Params} {h : Half} {data : List Byte} {m : Memory} (hw : Memory.wf m = true)
include hw

theorem wf_refillWords (j : Nat) : Memory.wf (refillWords p h data m j) = true := by
  induction j with
  | zero => exact hw
  | succ j ih => exact Memory.wf_write (Memory.wf_write ih _ _) _ _

/-- The bytes of the words written are the data's; every other byte is as it was. -/
theorem read_refillWords (j a : Nat) :
    Memory.read (refillWords p h data m j) a
      = if halfBase p h ≤ a ∧ a < halfBase p h + 2 * j then data.getD (a - halfBase p h) 0 else Memory.read m a := by
  induction j with
  | zero => rw [if_neg (by omega)]; rfl
  | succ j ih =>
    rw [refillWords, Memory.read_writeWord (wf_refillWords hw j), ih, sampleOf, extract_low, extract_high]
    by_cases hhigh : a = halfBase p h + 2 * j + 1
    · rw [if_pos hhigh, if_pos (by omega), show a - halfBase p h = 2 * j + 1 by omega]
    · by_cases hlow : a = halfBase p h + 2 * j
      · rw [if_neg hhigh, if_pos hlow, if_pos (by omega), show a - halfBase p h = 2 * j by omega]
      · rw [if_neg hhigh, if_neg hlow]
        exact if_congr (by omega) rfl rfl

end

/-- The handler has read `data` and is before word `j` of its refill; the rest is as in `u`. -/
def midRefill (data : List Byte) (j : Nat) (u : State) : State :=
  { u with
    buf := refillWords u.params u.target data u.buf j
    irq := { u.irq with data := data, idx := j, pos := 3 } }

/-- The handler has written the whole refill and is before its meter update, the index being that of the last word. -/
def refillDone (data : List Byte) (u : State) : State :=
  { u with
    buf := refillWords u.params u.target data u.buf u.params.halfWords
    irq := { u.irq with data := data, idx := u.params.halfWords - 1, pos := 4 } }

/-! ### R307: the handler run alone -/

section
variable (e : Event) {n j : Nat} {data : List Byte} {s t u : State}

/-- Past its first block the handler runs `REFILL`'s blocks. -/
theorem runBlocks_refill_succ (hp : s.irq.pos ≠ 0) (h : refill s = .next t) :
    runBlocks e.handler (n + 1) s = runBlocks e.handler n t :=
  runBlocks_succ ((exec_handler_refill e hp).trans h)

theorem refill_midRefill (hv : u.params.valid = true) (hj : j + 1 < u.params.halfWords) :
    refill (midRefill data j u) = .next (midRefill data (j + 1) u) := by
  have hwrite := refillWrite_eq (s := midRefill data j u) hv (Nat.lt_of_succ_lt hj)
  have hmore : (midRefill data j u).irq.idx + 1 < (midRefill data j u).params.halfWords := hj
  rwa [if_pos hmore] at hwrite

theorem refill_midRefill_last (hv : u.params.valid = true) (hj : j + 1 = u.params.halfWords) :
    refill (midRefill data j u) = .next (refillDone data u) := by
  have hwrite := refillWrite_eq (s := midRefill data j u) hv (Nat.lt_of_succ_le hj.le)
  have hlast : ¬ (midRefill data j u).irq.idx + 1 < (midRefill data j u).params.halfWords := hj.not_lt
  rw [if_neg hlast] at hwrite
  rw [refillDone, ← hj]
  exact hwrite

/-- The words of the refill before the last. -/
theorem runBlocks_midRefill (hv : u.params.valid = true) (hj : j < u.params.halfWords) :
    runBlocks e.handler j (midRefill data 0 u) = .next (midRefill data j u) := by
  induction j with
  | zero => rfl
  | succ j ih =>
    rw [runBlocks_add (ih (Nat.lt_of_succ_lt hj)),
      runBlocks_refill_succ e (Nat.succ_ne_zero 2) (refill_midRefill hv hj)]
    rfl

/-- The whole refill, one block a word. -/
theorem runBlocks_refillWords (hv : u.params.valid = true) :
    runBlocks e.handler u.params.halfWords (midRefill data 0 u) = .next (refillDone data u) := by
  obtain ⟨hpos, -, -, -⟩ := Params.sizes_of_valid hv
  obtain ⟨j, hj⟩ := Nat.exists_eq_add_one.mpr hpos
  rw [hj, runBlocks_add (runBlocks_midRefill e hv (by omega)),
    runBlocks_refill_succ e (Nat.succ_ne_zero 2) (refill_midRefill_last hv hj.symm)]
  rfl

/-- In a stopped stream: target, guard and return. -/
theorem runBlocks_handler_stopped (hp : s.irq.pos = 0) (hst : s.stream = .stopped) :
    runBlocks e.handler (handlerBlocks s) s = .next { s with
      target := Event.half e
      irq := ⟨false, s.irq.evt, 0, [], 0⟩ } := by
  have hguard : refill (irqGoto 1 { s with target := Event.half e })
      = .next (irqGoto 5 { s with target := Event.half e }) := congrArg Host.Outcome.next (refillGuard_stopped hst)
  have hblocks : handlerBlocks s = 3 := by rw [handlerBlocks, hst]
  rw [hblocks, runBlocks_succ (exec_handler_target e hp),
    runBlocks_refill_succ e one_ne_zero hguard, runBlocks_refill_succ e (Nat.succ_ne_zero 4) rfl]
  rfl

/-- The state after the handler's source read: the target set, the read recorded and its answer used up. -/
def sourceRead (h : Half) (s : State) : State :=
  { s with
    target := h
    inputs := { s.inputs with src := ⟨s.inputs.src.given.tail, s.inputs.src.drawn + 1⟩ }
    traces := { s.traces with src := s.traces.src ++ [(h, s.params.halfBytes)] } }

/-- In a streaming one: target, guard, source read, the refill's words, the meter and the return. -/
theorem runBlocks_handler_streaming (hv : s.params.valid = true) (hp : s.irq.pos = 0) (hst : s.stream = .streaming) :
    runBlocks e.handler (handlerBlocks s) s
      = .next (irqReturn (refillMeter
          (refillDone (s.sourceAnswer s.params.halfBytes) (sourceRead (Event.half e) s)))) := by
  have hguard : refill (irqGoto 1 { s with target := Event.half e })
      = .next (irqGoto 2 { s with target := Event.half e }) := congrArg Host.Outcome.next (refillGuard_streaming hst)
  have hread : refill (irqGoto 2 { s with target := Event.half e })
      = .next (midRefill (s.sourceAnswer s.params.halfBytes) 0 (sourceRead (Event.half e) s)) :=
    congrArg Host.Outcome.next (refillRead_eq _)
  have hwords := runBlocks_refillWords e (u := sourceRead (Event.half e) s)
    (data := s.sourceAnswer s.params.halfBytes) hv
  have hblocks : handlerBlocks s = s.params.halfWords + 2 + 1 + 1 + 1 := by
    simp only [handlerBlocks, hst]
    omega
  rw [hblocks, runBlocks_succ (exec_handler_target e hp), runBlocks_refill_succ e one_ne_zero hguard,
    runBlocks_refill_succ e two_ne_zero hread]
  refine (runBlocks_add hwords).trans ?_
  rw [runBlocks_refill_succ e (Nat.succ_ne_zero 3) rfl, runBlocks_refill_succ e (Nat.succ_ne_zero 4) rfl]
  rfl

end

/-- Settles O51: under an event no step is `FG`'s, a step keeps an active handler active or is its return, and the runs
are `runBlocks_handler_stopped` and `runBlocks_handler_streaming`, whose buffer `read_refillWords` describes. -/
theorem handlerRunsToCompletion : Obligations.HandlerRunsToCompletion := by
  refine ⟨fun _ _ => step_sameForeground, fun _ _ => step_irq_cases, fun e s hv hw hp =>
    ⟨runBlocks_handler_stopped e hp, fun hst => ?_⟩⟩
  obtain ⟨-, hbytes, -, -⟩ := Params.sizes_of_valid hv
  refine ⟨s.sourceAnswer s.params.halfBytes,
    refillWords s.params (Event.half e) (s.sourceAnswer s.params.halfBytes) s.buf s.params.halfWords,
    length_sourceAnswer _ s, fun _ _ hg hn => sourceAnswer_of_given hg hn, wf_refillWords hw _, fun j hj => ?_,
    fun a ha => ?_, runBlocks_handler_streaming e hv hp hst⟩
  · rw [read_refillWords hw, if_pos (by omega), Nat.add_sub_cancel_left]
  · rw [read_refillWords hw, if_neg (by rwa [← hbytes])]

end Sys2Proof.Machine
end

section
/-! The invariant (60_exceptions.md R324): every step of a state of `State.Inv` is a next state of `State.Inv`. Its
parts are kept one by one: the sequencer (`fgInv`), for which a command is taken block by block at its position, which
also gives that no block faults; the ranges of the data (`DataInv`), a case analysis over the kinds of blocks; and the
handler (`irqInv`), the same for both events. -/

namespace Sys2Proof.Machine

/-! ### R31: the sequencer -/

theorem fgInv_of_idle {s : State} (h : s.fg = ⟨false, none, 0, none⟩) : fgInv s := by simp [fgInv, h]

/-- The sequencer's part of the invariant depends on the sequencer and the parameters. -/
theorem fgInv_congr {s t : State} (hfg : t.fg = s.fg) (hp : t.params = s.params) (h : fgInv s) : fgInv t := by
  simpa only [fgInv, State.acc, hfg, hp] using h

/-- `FG` is at block `k` of the command `i`. -/
structure AtBlock (i : Instr) (k : Nat) (s : State) : Prop where
  valid : s.params.valid = true
  busy : s.fg.busy = true
  cmd : s.fg.cmd = some (.command i)
  acc : s.fg.acc.isSome = true
  wf : i.wellFormedCommand s.params.hasLegacyHpMute = true
  pos : s.fg.pos = k
  lt : k < blockCount i
  idx : s.acc.idx < iterations s.params i k

theorem State.Inv.atBlock {s : State} {i : Instr} (h : s.Inv) (hbusy : s.fg.busy = true)
    (hcmd : s.fg.cmd = some (.command i)) : AtBlock i s.fg.pos s := by
  have hfg := h.fg
  simp only [fgInv, hbusy, hcmd, if_true] at hfg
  obtain ⟨hacc, hwf, hlt, hidx⟩ := hfg
  exact ⟨h.params, hbusy, hcmd, hacc, hwf, rfl, hlt, hidx⟩

/-- Every block of a valid configuration is performed at least once. -/
theorem iterations_pos {p : Params} (hv : p.valid = true) (i : Instr) (k : Nat) : 0 < iterations p i k := by
  obtain ⟨hpos, -, -, hwords⟩ := Params.sizes_of_valid hv
  unfold iterations
  split
  · exact Params.pcmMute_of_valid hv
  · split
    · omega
    · exact Nat.one_pos

section
variable {i : Instr} {k : Nat} {s : State} (h : AtBlock i k s)
include h

theorem AtBlock.fgInv : fgInv s := by
  simp only [Machine.fgInv, h.busy, h.cmd, h.pos, if_true]
  exact ⟨h.acc, h.wf, h.lt, h.idx⟩

/-- What leaves the sequencer and the parameters as they are leaves `FG` at its block. -/
theorem AtBlock.congr {t : State} (hfg : t.fg = s.fg) (hp : t.params = s.params) : AtBlock i k t := by
  obtain ⟨hv, hbusy, hcmd, hacc, hwf, hpos, hlt, hidx⟩ := h
  constructor <;> simpa only [State.acc, hfg, hp]

theorem AtBlock.at_pos {j : Nat} (hj : s.fg.pos = j) : AtBlock i j s := hj ▸ h.pos ▸ h

theorem AtBlock.fgSetFail (b : Bool) : AtBlock i k (fgSetFail b s) := { h with acc := rfl }

theorem AtBlock.setBuf (m : Memory) : AtBlock i k { s with buf := m } := { h with }

theorem AtBlock.wrote (reg val : Byte) : AtBlock i k (wrote reg val s) := { h with acc := rfl }

/-- A block that is no loop is left for the next. -/
theorem AtBlock.goOn (hlt : k + 1 < blockCount i := by simp [blockCount])
    (hone : iterations s.params i k = 1 := by rfl) : Machine.fgInv (goOn (k + 1) s) := by
  have hidx := h.idx
  rw [hone] at hidx
  have hnext : AtBlock i (k + 1) (Machine.goOn (k + 1) s) :=
    { h with pos := rfl, lt := hlt, idx := hidx.trans_le (iterations_pos h.valid i (k + 1)) }
  exact hnext.fgInv

theorem AtBlock.fgAdvance (hlt : k + 1 < blockCount i := by simp [blockCount])
    (hone : iterations s.params i k = 1 := by rfl) : Machine.fgInv (fgAdvance s) :=
  fgAdvance_at h.pos ▸ h.goOn hlt hone

theorem AtBlock.busBlock (reg val : Byte) (hlt : k + 1 < blockCount i := by simp [blockCount])
    (hone : iterations s.params i k = 1 := by rfl) : Machine.fgInv (busBlock reg val s) :=
  busBlock_at h.pos reg val ▸ (h.wrote reg val).goOn hlt hone

/-- An iteration of a loop stays at the loop's block, or leaves it for the next. -/
theorem AtBlock.looped {n : Nat} (hn : iterations s.params i k = n) (hlt : k + 1 < blockCount i) :
    Machine.fgInv (looped k n s) := by
  unfold Machine.looped
  split
  · rename_i hmore
    have hstay : AtBlock i k { s with fg := { s.fg with pos := k, acc := some ⟨s.acc.fail, s.acc.idx + 1⟩ } } :=
      { h with acc := rfl, pos := rfl, idx := hn ▸ hmore }
    exact hstay.fgInv
  · have hnext : AtBlock i (k + 1) { s with fg := { s.fg with pos := k + 1, acc := some ⟨s.acc.fail, 0⟩ } } :=
      { h with acc := rfl, pos := rfl, lt := hlt, idx := iterations_pos h.valid i (k + 1) }
    exact hnext.fgInv

theorem AtBlock.pcmMuteBlock (val : Byte) (hm : muteBlock i = some k := by rfl)
    (hlt : k + 1 < blockCount i := by simp [blockCount]) : Machine.fgInv (pcmMuteBlock val s) := by
  have hn : iterations s.params i k = s.params.regMap.pcmMute.length := if_pos hm
  have hidx := h.idx
  rw [hn] at hidx
  rw [pcmMuteBlock_eq val h.pos (List.getElem?_eq_getElem hidx)]
  exact (h.wrote _ val).looped hn hlt

end

/-- A block is answered, and leaves the sequencer in order. -/
def FgSafe (o : Host.Outcome State Fault Refusal) : Prop := ∃ t, o = .next t ∧ fgInv t

theorem FgSafe.next {t : State} (h : fgInv t) : FgSafe (.next t) := ⟨t, rfl, h⟩

theorem FgSafe.ended {status : Status} {value : BitVec 32} {text : Text} {s : State} :
    FgSafe (.next (fgFinish status value text s)) := .next (fgInv_of_idle rfl)

section
variable {i : Instr} {k : Nat} {s : State}

theorem AtBlock.toneWrite (h : AtBlock i (k + 1) s) (hcount : blockCount i = 3)
    (hone : iterations s.params i 1 = 1) : FgSafe (toneWrite 1 s) := by
  have hlt := h.lt
  have hcases : k = 0 ∨ k = 1 := by omega
  obtain rfl | rfl := hcases
  · rw [toneWrite_gain h.pos]
    exact .next ((h.wrote _ _).goOn (by omega) hone)
  · rw [toneWrite_cfg h.pos]
    exact .ended

theorem AtBlock.volumeWrite (h : AtBlock i k s) (a b c : Byte) (hcount : blockCount i = 2)
    (hone : iterations s.params i 0 = 1) : FgSafe (volumeWrite a b c s) := by
  have hlt := h.lt
  have hcases : k = 0 ∨ k = 1 := by omega
  obtain rfl | rfl := hcases
  · rw [volumeWrite_left a b c h.pos]
    exact .next ((h.wrote _ _).goOn (by omega) hone)
  · rw [volumeWrite_right a b c h.pos]
    exact .ended

end

/-- From its block a command answers, and leaves the sequencer in order. -/
theorem AtBlock.exec {i : Instr} {k : Nat} {s : State} (h : AtBlock i k s) : FgSafe (exec i s) := by
  have hlt := h.lt
  have hpos := h.pos
  subst hpos
  cases i with
  | init =>
    simp only [Machine.exec, execInit]
    split
    next hp => exact .next (((h.at_pos hp).fgSetFail false).congr rfl rfl).fgAdvance
    next hp => exact .next (h.at_pos hp).fgAdvance
    next hp => exact .next ((h.at_pos hp).congr rfl rfl).fgAdvance
    next hp => exact .next ((h.at_pos hp).congr rfl rfl).fgAdvance
    next hp => exact .next (h.at_pos hp).fgAdvance
    next hp => exact .next ((h.at_pos hp).busBlock _ _)
    next hp => exact .next ((h.at_pos hp).busBlock _ _)
    next hp => exact .next ((h.at_pos hp).busBlock _ _)
    next hp => exact .next ((h.at_pos hp).busBlock _ _)
    next => exact .ended
    next => exact absurd hlt (by simp only [blockCount, imp_false] at *; omega)
  | pdn =>
    simp only [Machine.exec, execPdn]
    split
    next hp => exact .next ((h.at_pos hp).fgSetFail false).fgAdvance
    next hp => exact .next ((h.at_pos hp).pcmMuteBlock _)
    next hp => exact .next ((h.at_pos hp).busBlock _ _)
    next hp => exact .next ((h.at_pos hp).busBlock _ _)
    next => exact .ended
    next => exact absurd hlt (by simp only [blockCount, imp_false] at *; omega)
  | setMvol db => exact h.volumeWrite _ _ _ rfl rfl
  | setHpvol db => exact h.volumeWrite _ _ _ rfl rfl
  | setMute on =>
    simp only [Machine.exec, execSetMute]
    split
    next hp => exact .next ((h.at_pos hp).fgSetFail false).fgAdvance
    next hp => exact .next ((h.at_pos hp).pcmMuteBlock _)
    next => exact .ended
    next => exact absurd hlt (by simp only [blockCount, imp_false] at *; omega)
  | setHpMute on =>
    have hp : s.fg.pos = 0 := Nat.lt_one_iff.mp hlt
    simp only [Machine.exec, execSetHpMute, hp]
    split
    · exact .ended
    · exact .ended
  | setTone b t f g =>
    simp only [Machine.exec, execSetTone]
    split
    next hp => exact .next ((h.at_pos hp).congr rfl rfl).fgAdvance
    next hp => exact AtBlock.toneWrite (h.at_pos (Nat.succ_pred hp).symm) rfl rfl
  | play =>
    simp only [Machine.exec, execPlay]
    split
    next hp => exact .next ((h.at_pos hp).congr rfl rfl).fgAdvance
    next hp => exact .next ((h.at_pos hp).congr (by simp) (by simp)).fgAdvance
    next hp => exact .next ((h.at_pos hp).fgSetFail false).fgAdvance
    next hp => exact .next ((h.at_pos hp).pcmMuteBlock _)
    next => exact .ended
    next => exact absurd hlt (by simp only [blockCount, imp_false] at *; omega)
  | stop =>
    simp only [Machine.exec, execStop]
    split
    next hp => exact .next ((h.at_pos hp).fgSetFail false).fgAdvance
    next hp => exact .next ((h.at_pos hp).pcmMuteBlock _)
    next hp => exact .next ((h.at_pos hp).congr rfl rfl).fgAdvance
    next hp => exact .next ((h.at_pos hp).congr rfl rfl).fgAdvance
    next hp =>
      rw [zeroFillBlock_eq hp (h.at_pos hp).idx]
      exact .next (((h.at_pos hp).setBuf _).looped rfl (by decide))
    next => exact .ended
    next => exact absurd hlt (by simp only [blockCount, imp_false] at *; omega)
  | getState =>
    simp only [Machine.exec, execGetState, Nat.lt_one_iff.mp hlt]
    exact .ended
  | inc c =>
    simp only [Machine.exec, execInc]
    split
    next hp => exact .next ((h.at_pos hp).congr rfl rfl).fgAdvance
    next hp => exact AtBlock.toneWrite (h.at_pos (Nat.succ_pred hp).symm) rfl rfl
  | dec c =>
    simp only [Machine.exec, execDec]
    split
    next hp => exact .next ((h.at_pos hp).congr rfl rfl).fgAdvance
    next hp => exact AtBlock.toneWrite (h.at_pos (Nat.succ_pred hp).symm) rfl rfl
  | format c =>
    simp only [Machine.exec, execFormat, Nat.lt_one_iff.mp hlt]
    exact .ended
  | evtHt => exact absurd h.wf (by simp [Instr.wellFormedCommand, Instr.isCommand])
  | evtTc => exact absurd h.wf (by simp [Instr.wellFormedCommand, Instr.isCommand])

/-! ### R36–R41, R80: the data -/

/-- The ranges of the data: the part of the invariant that no agent's position enters. -/
structure DataInv (s : State) : Prop where
  bufWf : Memory.wf s.buf = true
  bufBelow : Memory.below s.params.bufBytes s.buf = true
  meter : s.meter.avg.toNat ≤ 32768
  meterCnt : s.meter.cnt.toNat < s.params.meterPeriod
  tone : s.tone.InRange s.params
  dmaPos : s.dma.pos < s.params.bufWords
  running : s.dma.running = s.started

theorem State.Inv.data {s : State} (h : s.Inv) : DataInv s := { h with tone := h.toneInRange }

/-- The invariant is its parts. -/
theorem DataInv.inv {s : State} (h : DataInv s) (hv : s.params.valid = true) (hfg : fgInv s) (hirq : irqInv s)
    (hev : s.irqEnabled = true → s.dmaEnabled = true) : s.Inv :=
  { h, h.tone with params := hv, fg := hfg, irq := hirq, events := hev }

section
variable {s t : State} (h : DataInv s)
include h

theorem DataInv.congr (hp : t.params = s.params) (hb : t.buf = s.buf) (hm : t.meter = s.meter) (ht : t.tone = s.tone)
    (hd : t.dma = s.dma) (hs : t.started = s.started) : DataInv t := by
  obtain ⟨hwf, hbelow, havg, hcnt, htone, hpos, hrun⟩ := h
  constructor <;> simpa only [hp, hb, hm, ht, hd, hs]

theorem DataInv.memWriteWord {a : Nat} {v : Sample} (hw : memWriteWord s a v = .ok t) : DataInv t := by
  obtain ⟨-, hin, rfl⟩ := memWriteWord_cases hw
  exact { h with
    bufWf := Memory.wf_write (Memory.wf_write h.bufWf _ _) _ _
    bufBelow := Memory.below_write (Memory.below_write h.bufBelow _ _ (Nat.lt_of_succ_lt hin)) _ _ hin }

theorem DataInv.setMeter {m : Meter} (havg : m.avg.toNat ≤ 32768) (hcnt : m.cnt.toNat < s.params.meterPeriod) :
    DataInv (setMeter m s) := { h with meter := havg, meterCnt := hcnt }

theorem DataInv.sbmStart (hv : s.params.valid = true) : DataInv (sbmStart s) := by
  obtain ⟨hpos, -, -, hwords⟩ := Params.sizes_of_valid hv
  cases hs : s.started
  · rw [sbmStart_of_not_started s hs]
    exact { h with
      dmaPos := show 0 < s.params.bufWords by omega
      running := rfl }
  · rw [sbmStart_of_started s hs]
    exact h

end

/-- The tone state that a command leaves is in range (R158, R271, R272). -/
theorem Tone.InRange.toneAfter {p : Params} {t : Tone} (hv : p.valid = true) (h : t.InRange p) (i : Instr) :
    (toneAfter p i t).InRange p := by
  cases i with
  | setTone b tr f g =>
    obtain ⟨hsteps, hidx, -⟩ := toneQuantisationClampsAndFloors p hv
    obtain ⟨-, -, -, -, hone, -⟩ := Params.tone_of_valid hv
    have hlt (x : BitVec 2) : (freqIdx p x).toNat < p.freqCount := by
      rw [hidx]
      omega
    obtain ⟨-, -, hbassLo, hbassHi⟩ := hsteps b
    obtain ⟨-, -, htrebleLo, htrebleHi⟩ := hsteps tr
    exact ⟨hbassLo, hbassHi, htrebleLo, htrebleHi, hlt f, hlt g⟩
  | inc c => exact h.toneInc hv c
  | dec c => exact h.toneDec hv c
  | _ => exact h

theorem FgBlock.dataInv {i : Instr} {s t : State} (hb : FgBlock i s t) (hv : s.params.valid = true)
    (h : DataInv s) : DataInv t := by
  cases hb
  case fill hw => exact (h.memWriteWord hw).congr (by simp) (by simp) (by simp) (by simp) (by simp) (by simp)
  case tone => exact { h with tone := h.tone.toneAfter hv i }
  case start => exact (h.sbmStart hv).congr rfl rfl rfl rfl rfl rfl
  case clearMeter =>
    have hperiod := Params.meter_of_valid hv
    exact (h.setMeter (m := meterCleared) (Nat.zero_le _) hperiod.1).congr rfl rfl rfl rfl rfl rfl
  case mute | muteNone => exact h.congr (by simp) (by simp) (by simp) (by simp) (by simp) (by simp)
  all_goals exact h.congr rfl rfl rfl rfl rfl rfl

/-- The peak of a refill is a magnitude, so the average stays in its range (R36, R241). -/
theorem peak_le (n : Nat) (data : List Byte) : peak n data ≤ 32768 := by
  rw [peak_eq_sup]
  exact Finset.sup_le fun j _ => magnitude_le (sampleOf data j)

theorem DataInv.refillMeter {s : State} (h : DataInv s) (hv : s.params.valid = true) : DataInv (refillMeter s) := by
  have hm := peak_le s.params.halfWords s.irq.data
  have hperiod := Params.meter_of_valid hv
  refine (h.setMeter (m := meterUpdate s.params (peak s.params.halfWords s.irq.data) s.meter) ?_ ?_).congr
    rfl rfl rfl rfl rfl rfl
  · rw [meterUpdate_avg s.params hm]
    exact (meterAverage_le_max _ _).trans (max_le h.meter hm)
  · rw [meterUpdate_cnt hv]
    exact Nat.mod_lt _ hperiod.1

theorem IrqBlock.dataInv {e : Event} {s t : State} (hb : IrqBlock e s t) (hv : s.params.valid = true)
    (h : DataInv s) : DataInv t := by
  cases hb
  case write hw _ | writeLast hw _ => exact (h.memWriteWord hw).congr rfl rfl rfl rfl rfl rfl
  case meter => exact h.refillMeter hv
  all_goals exact h.congr rfl rfl rfl rfl rfl rfl

/-! ### R43: the handler -/

theorem irqInv_of_inactive {s : State} (hact : s.irq.active = false) (hpos : s.irq.pos = 0) : irqInv s := by
  simp [irqInv, hact, hpos]

/-- An inactive handler is at position 0. -/
theorem irqInv.pos_eq_zero {s : State} (h : irqInv s) (hact : s.irq.active = false) : s.irq.pos = 0 := by
  simpa [irqInv, hact] using h

/-- The handler is active: `irqInv` clause by clause. -/
structure Handling (s : State) : Prop where
  active : s.irq.active = true
  pos : s.irq.pos ≤ 5
  target : 1 ≤ s.irq.pos → s.target = Event.half s.irq.evt
  stream : 2 ≤ s.irq.pos → s.irq.pos ≤ 4 → s.stream = .streaming
  data : 3 ≤ s.irq.pos → s.irq.pos ≤ 4 → s.irq.data.length = s.params.halfBytes
  idx : s.irq.pos = 3 → s.irq.idx < s.params.halfWords

theorem Handling.irqInv {s : State} (h : Handling s) : irqInv s := by
  simp only [Machine.irqInv, h.active, if_true]
  exact ⟨h.pos, h.target, h.stream, h.data, h.idx⟩

theorem irqInv.handling {s : State} (h : irqInv s) (hact : s.irq.active = true) : Handling s := by
  simp only [irqInv, hact, if_true] at h
  obtain ⟨hpos, htarget, hstream, hdata, hidx⟩ := h
  exact ⟨hact, hpos, htarget, hstream, hdata, hidx⟩

theorem IrqBlock.irqInv {s t : State} (hb : IrqBlock s.irq.evt s t) (hv : s.params.valid = true)
    (h : Handling s) : irqInv t := by
  obtain ⟨hact, hpos, htarget, hstream, hdata, hidx⟩ := h
  obtain ⟨hwords, -, -, -⟩ := Params.sizes_of_valid hv
  cases hb
  case target => exact Handling.irqInv ⟨hact, (by decide : 1 ≤ 5), fun _ => rfl, nofun, nofun, nofun⟩
  case stopped hp _ => exact Handling.irqInv ⟨hact, le_rfl, fun _ => htarget (by omega), nofun, nofun, nofun⟩
  case streaming hp hst =>
    exact Handling.irqInv ⟨hact, (by decide : 2 ≤ 5), fun _ => htarget (by omega), fun _ _ => hst, nofun, nofun⟩
  case read hp =>
    exact Handling.irqInv ⟨hact, (by decide : 3 ≤ 5), fun _ => htarget (by omega),
      fun _ _ => hstream (by omega) (by omega), fun _ _ => length_sourceAnswer _ s, fun _ => hwords⟩
  case write hp hw hi =>
    obtain ⟨-, -, rfl⟩ := memWriteWord_cases hw
    exact Handling.irqInv ⟨hact, hpos, htarget, hstream, hdata, fun _ => hi⟩
  case writeLast hp hw _ =>
    obtain ⟨-, -, rfl⟩ := memWriteWord_cases hw
    exact Handling.irqInv ⟨hact, (by decide : 4 ≤ 5), fun _ => htarget (by omega),
      fun _ _ => hstream (by omega) (by omega), fun _ _ => hdata (by omega) (by omega), nofun⟩
  case meter hp =>
    exact Handling.irqInv ⟨hact, le_rfl, fun _ => htarget (by omega), nofun, nofun, nofun⟩
  case ret => exact irqInv_of_inactive rfl rfl

/-- The handler's block is answered. -/
theorem Handling.exec {s : State} (h : Handling s) (hv : s.params.valid = true) :
    ∃ t, exec s.irq.evt.handler s = .next t := by
  by_cases hzero : s.irq.pos = 0
  · exact ⟨_, exec_handler_target _ hzero⟩
  · have hle := h.pos
    rw [exec_handler_refill _ hzero]
    unfold refill
    split
    next => exact ⟨_, rfl⟩
    next => exact ⟨_, rfl⟩
    next hp => exact ⟨_, refillWrite_eq hv (h.idx hp)⟩
    next => exact ⟨_, rfl⟩
    next => exact ⟨_, rfl⟩
    next => simp only [imp_false] at *; omega

/-! ### R324: the step -/

theorem dmaStep_safe {s : State} (h : s.Inv) (hd : s.dmaEnabled = true) : SafeOutcome (dmaStep s) := by
  refine ⟨_, dmaStep_eq h.dmaPos, { h with dmaPos := ?_, events := fun _ => hd }⟩
  exact (dmaMove_pos (s := emit _ s) h.dmaPos).trans_lt (Nat.mod_lt _ (Nat.zero_lt_of_lt h.dmaPos))

/-- The handler's block. -/
theorem handler_safe {s : State} (h : s.Inv) (hact : s.irq.active = true) : SafeOutcome (exec s.irq.evt.handler s) := by
  have hh := h.irq.handling hact
  obtain ⟨t, ht⟩ := hh.exec h.params
  have hb := exec_isIrqBlock ht
  have hk := hb.keeps
  have hd : t.dmaEnabled = true := by
    rw [State.dmaEnabled, hk.dma, hk.pins]
    exact h.events (by simp [State.irqEnabled, hact])
  exact ⟨t, ht, (hb.dataInv h.params h.data).inv (by rw [hk.params, h.params]) (fgInv_congr hk.fg hk.params h.fg)
    (hb.irqInv h.params hh) fun _ => hd⟩

/-- The entry: the handler is active at position 0, where nothing is asked of it. -/
theorem irqEnter_inv {s : State} (h : s.Inv) (hen : s.irqEnabled = true) : (irqEnter s).Inv := by
  obtain ⟨e, f, he, -⟩ := irqEnter_cases s
  rw [he]
  exact { h with
    irq := Handling.irqInv ⟨rfl, Nat.zero_le 5, nofun, nofun, nofun, nofun⟩
    events := fun _ => h.events hen }

/-- A block of a command raises no event. -/
theorem FgBlock.irqEnabled {i : Instr} {s t : State} (hb : FgBlock i s t) (hoff : s.irqEnabled = false) :
    t.irqEnabled = false := by
  simp only [State.irqEnabled, State.pending] at hoff ⊢
  rw [hb.keeps.irq]
  obtain he | he := hb.transferKept.evtOr <;> rw [he]
  · exact hoff
  · simpa using (Bool.or_eq_false_iff.mp hoff).1

/-- The block of a command: no event is pending or in hand before it, and none after it. -/
theorem command_safe {s : State} {i : Instr} (h : s.Inv) (hoff : s.irqEnabled = false) (hbusy : s.fg.busy = true)
    (hcmd : s.fg.cmd = some (.command i)) (hi : i.isCommand = true) : SafeOutcome (exec i s) := by
  obtain ⟨t, ht, hfg⟩ := (h.atBlock hbusy hcmd).exec
  have hb := exec_isBlock hi ht
  have hk := hb.keeps
  have hact : s.irq.active = false := (Bool.or_eq_false_iff.mp hoff).1
  have hirq : irqInv t := by
    refine irqInv_of_inactive ?_ ?_ <;> rw [hk.irq]
    · exact hact
    · exact h.irq.pos_eq_zero hact
  exact ⟨t, ht, (hb.dataInv h.params h.data).inv (by rw [hk.params, h.params]) hfg hirq fun hon =>
    absurd (hon.symm.trans (hb.irqEnabled hoff)) (by decide)⟩

theorem blockCount_pos (i : Instr) : 0 < blockCount i := by cases i <;> simp [blockCount]

/-- Taking a command: what the decoder answers is well formed, and its first block is there. -/
theorem takeCommand_inv {s : State} (h : s.Inv) : (takeCommand s).Inv := by
  obtain ⟨-, he⟩ | ⟨d, rest, hw, he⟩ := takeCommand_cases s <;> rw [he]
  · exact h
  · cases d with
    | command i =>
      obtain ⟨-, hwf⟩ := decodedWordsAreTheEncoding _ _ _ _ hw
      exact { h with
        fg := AtBlock.fgInv ⟨h.params, rfl, rfl, rfl, hwf, rfl, blockCount_pos i, iterations_pos h.params i 0⟩ }
    | illegal why => exact { h with fg := by simp [fgInv] }

theorem raiseIllegal_inv {s : State} (h : s.Inv) : (raiseIllegal s).Inv := { h with fg := fgInv_of_idle rfl }

/-- A command of the invariant's sequencer is there, and is `FG`'s. -/
theorem fgInv.cmd_cases {s : State} (h : fgInv s) (hbusy : s.fg.busy = true) :
    (∃ why, s.fg.cmd = some (.illegal why)) ∨ ∃ i, s.fg.cmd = some (.command i) ∧ i.isCommand = true := by
  simp only [fgInv, hbusy, if_true] at h
  obtain ⟨-, h⟩ := h
  split at h
  · rename_i i hcmd
    obtain ⟨hwf, -⟩ := h
    exact .inr ⟨i, hcmd, (Bool.and_eq_true_iff.mp hwf).1⟩
  · rename_i why hcmd
    exact .inl ⟨why, hcmd⟩
  · exact h.elim

theorem contextStep_safe {s : State} (h : s.Inv) : SafeOutcome (contextStep s) := by
  cases hirq : s.irqEnabled
  · cases hbusy : s.fg.busy
    · exact ⟨_, by simp [contextStep, hirq, fgStep, hbusy], takeCommand_inv h⟩
    · obtain ⟨why, hcmd⟩ | ⟨i, hcmd, hi⟩ := h.fg.cmd_cases hbusy
      · exact ⟨_, contextStep_of_illegal hirq hbusy hcmd, raiseIllegal_inv h⟩
      · rw [contextStep_of_command hirq hbusy hcmd hi]
        exact command_safe h hirq hbusy hcmd hi
  · cases hact : s.irq.active
    · exact ⟨_, contextStep_of_entry hact (by simpa [State.irqEnabled, hact] using hirq), irqEnter_inv h hirq⟩
    · rw [contextStep_of_irq_active hact]
      exact handler_safe h hact

/-- Settles O46: whichever agent takes the step, its step from a state of the invariant is safe, and drawing the turn
touches no field of the invariant. -/
theorem everyStepIsSafe : Obligations.EveryStepIsSafe := by
  intro s h
  have hdraw : (drawTurn s).2.Inv := h.withTurn _
  cases hd : s.dmaEnabled <;> cases hc : s.irqEnabled || s.fgEnabled
  · exact ⟨s, step_of_idle h.params hd hc, h⟩
  · rw [step_of_context h.params hd hc]
    exact contextStep_safe h
  · rw [step_of_transfer h.params hd hc]
    exact dmaStep_safe h hd
  · cases ht : (drawTurn s).1
    · rw [step_of_transfer_turn h.params hd hc ht]
      exact dmaStep_safe hdraw hd
    · rw [step_of_turn h.params hd hc ht]
      exact contextStep_safe hdraw

end Sys2Proof.Machine
end

section
/-! Reset and the transfer without a clock (70_reset_and_hazards.md R350, R351, R353): what the reset state meets, when
it has a step, and what a step leaves of a started transfer whose clock is off. -/

namespace Sys2Proof.Machine

/-! ### R353: a started transfer without a clock -/

/-- What a step of the context can do to a started transfer: nothing to its fields, and to the pending bits what an
entry does. `PLAY`'s start, the one other writer of both, is guarded (R201). -/
theorem contextStep_of_started {s t : State} (h : contextStep s = .next t) (hs : s.started = true) :
    t.dma = s.dma ∧ (t.evt = s.evt ∨ ∃ e, t.evt = clearPending e s.evt) := by
  obtain ⟨-, hb⟩ | ⟨-, -, rfl⟩ | ⟨-, -, i, -, -, hb⟩ | ⟨-, -, -, rfl⟩ | ⟨-, -, rfl⟩ := contextStep_cases h
  · exact ⟨hb.keeps.dma, .inl hb.keeps.evt⟩
  · obtain ⟨e, f, he, -⟩ := irqEnter_cases s
    rw [he]
    exact ⟨rfl, .inr ⟨e, rfl⟩⟩
  · exact ⟨hb.transferKept.dma hs, .inl (hb.transferKept.evt hs)⟩
  · exact ⟨rfl, .inl rfl⟩
  · obtain ⟨-, he⟩ | ⟨d, rest, -, he⟩ := takeCommand_cases s <;> rw [he] <;> exact ⟨rfl, .inl rfl⟩

theorem clearPending_sets_none (e : Event) (v : EvtStatus) :
    (v.ht = false → (clearPending e v).ht = false) ∧ (v.tc = false → (clearPending e v).tc = false) := by
  cases e <;> simp [clearPending]

/-- Settles O54: without the clock the transfer has no step, and a step of the context emits nothing, leaves a started
transfer's fields and at most clears a pending bit. -/
theorem noClockNoTransfer : Obligations.NoClockNoTransfer := by
  intro s t hclock hs h
  obtain ⟨-, ⟨-, -, -, rfl⟩ | ⟨hd, -⟩ | ⟨-, f, hc⟩⟩ := step_cases h
  · exact ⟨rfl, rfl, id, id⟩
  · obtain ⟨-, hon⟩ := dmaEnabled_iff.mp hd
    exact absurd (hclock.symm.trans hon) (by decide)
  · obtain ⟨hdma, hevt⟩ := contextStep_of_started (s := s.withTurn f) hc hs
    refine ⟨contextStep_audio (s := s.withTurn f) hc, hdma, ?_⟩
    obtain he | ⟨e, he⟩ := hevt <;> rw [he]
    · exact ⟨id, id⟩
    · exact clearPending_sets_none e s.evt

/-! ### R350: the reset values -/

/-- Settles O10: the reset state's own fields; its buffer lists no address, so every byte is the unlisted 0. -/
theorem resetLeavesTheGivenValues : Obligations.ResetLeavesTheGivenValues :=
  ⟨rfl, rfl, rfl, rfl, Memory.read_nil, rfl, rfl, rfl, rfl, rfl, rfl, rfl, rfl, rfl, rfl⟩

theorem reset_params_valid : State.reset.params.valid = true := by decide

theorem reset_dataInv : DataInv State.reset where
  bufWf := reset_buf_wf
  bufBelow := rfl
  meter := by decide
  meterCnt := by decide
  tone := by constructor <;> decide
  dmaPos := by decide
  running := rfl

/-- The machine's invariant at reset: an accepted configuration, an idle sequencer, no handler and no event. -/
theorem reset_inv : State.reset.Inv :=
  reset_dataInv.inv reset_params_valid (fgInv_of_idle rfl) (irqInv_of_inactive rfl rfl) nofun

/-- No event is outstanding at reset. -/
theorem reset_timely : State.reset.Timely := by
  intro e he
  cases e <;> cases he

/-- Settles O11: the parts of the invariant at reset, an empty buffer, and no event outstanding. -/
theorem resetMeetsTheInvariants : Obligations.ResetMeetsTheInvariants :=
  ⟨reset_inv, .of_empty rfl rfl, reset_timely⟩

/-! ### R351: the steps right after reset -/

theorem State.waiting_isSome_iff {s : State} :
    s.waiting.isSome = true ↔ ∃ d rest, takeCommandWords s.params.hasLegacyHpMute s.port = some (d, rest) := by
  rw [Option.isSome_iff_exists, Prod.exists, State.waiting]

/-- Where neither `IRQ` nor a command in progress holds `FG`, it has a step exactly when a whole command waits. -/
theorem fgEnabled_of_idle {s : State} (hirq : s.irqEnabled = false) (hidle : s.fg.busy = false) :
    s.fgEnabled = s.waiting.isSome := by
  simp [State.fgEnabled, hirq, hidle]

/-- Settles O12: writing the port changes no agent's state, and the port of the reset state is empty before it. -/
theorem resetOnlyWaitsForACommand : Obligations.ResetOnlyWaitsForACommand := by
  intro ws
  refine ⟨rfl, rfl, rfl, rfl, rfl, rfl, ?_⟩
  rw [fgEnabled_of_idle rfl rfl]
  exact State.waiting_isSome_iff

end Sys2Proof.Machine
end
